-- ==== Sys2Proof/Word.lean ====
section
/-! DEFINITION. The words, bytes and frame payloads of RMH2-ACB and the names of its three ports. -/

namespace Sys2Proof

/-- `u8` (00_scope.md R12): one byte of a frame. -/
abbrev Byte := BitVec 8

/-- The 32-bit command word (30_encoding.md R71). -/
abbrev Word := BitVec 32

/-- `Num` (00_scope.md R9): an IEEE 754 binary32 value, held as its 32-bit pattern (30_encoding.md R72). -/
abbrev Num32 := BitVec 32

/-- A frame payload: exactly 8 bytes, `p[0]` first (00_scope.md R13, 20_memory.md R54). -/
abbrev Payload := Vector Byte 8

/-- The three request ports (30_encoding.md R73): the receive-completion context, the periodic control loop,
the configuration path. -/
inductive Port where
  | rx
  | ctl
  | cfg
deriving DecidableEq, Repr

end Sys2Proof
end

