-- ==== Sys2Proof/Config.lean ====
section
/-! DEFINITION. What this build of the hardware fixes (parameters, 00_scope.md §4), the reference constants the
spec gives, and the model's one free value. -/

namespace Sys2Proof.Config

/-- The number of command groups of a build with `n` actuators, `ceil(n / 4)` (00_scope.md R8). -/
abbrev groups (n : Nat) : Nat := (n + 3) / 4

/-- The numbers of actuators a build can have (00_scope.md R8): the model takes the number as an argument, the
parameter of `State`. -/
abbrev Buildable (n : Nat) : Prop := 1 ≤ n ∧ n ≤ 255

/-- The number of actuators of this hardware (00_scope.md R8), the value of `State`'s parameter where none is given. -/
abbrev N : Nat := 7

/-- The number of command groups of this hardware (00_scope.md R8). -/
abbrev G : Nat := groups N

/-- The reference value of `DT_NOM` (00_scope.md R11): 1/1000 second, as the binary32 nearest to it. `DT_NOM` is an
argument of the pseudo-operation `PIDF`, which alone reads it. DEDUCED, safe: log entry 8. -/
def dtNom : Num32 := 0x3A83126F#32

/-- The binary32 nearest to 2π (00_scope.md R10). -/
def twoPi : Num32 := 0x40C90FDB#32

/-- The one pattern that stands for NaN where an operation of 00_scope.md R15 gives a NaN; the spec's `Num` has one
NaN and gives it no payload. DESIGN CHOICE, safe: log entry 6. -/
def nan : Num32 := 0x7FC00000#32

/-- The 16-bit integer that the conversion of 00_scope.md R17 gives for a NaN: the spec says it is never applied to
one and states no result. A free value: nothing constrains it. DESIGN CHOICE, safe: log entry 7. -/
opaque s16OfNaN : Num32 → BitVec 16

end Sys2Proof.Config
end

