-- ==== Sys2Proof/Syntax.lean ====
section
/-! DEFINITION. The twelve operations of 30_encoding.md R80, one constructor per row of spec/opcode_table.json.
30_encoding.md R70 lets a model take the decoded operation, a constructor with typed fields, as its syntax. The widths
of R71 and R72 are the fields' types; that `WRK` carries one identifier a group, and the shape of the raw operand block,
are checked in `WellFormed.lean`. -/

namespace Sys2Proof

/-- One operation with the fields of its command word and its operand block, in the order of R80. -/
inductive Instr where
  /-- `RXF fid, [p0 .. p7]` (40_codec.md R107). -/
  | rxf (fid : BitVec 11) (p : Payload)
  /-- `DEC [p0 .. p7]` (40_codec.md R102). -/
  | dec (p : Payload)
  /-- `ENC id, demand` (40_codec.md R105). -/
  | enc (id : BitVec 8) (demand : Num32)
  /-- `PACK s, [f0 .. f7], high, low` (40_codec.md R106). -/
  | pack (slot : BitVec 2) (f : Payload) (high low : Byte)
  /-- `PID id, reference, feedback, dt` (41_pid.md R122). -/
  | pid (id : BitVec 8) (reference feedback dt : Num32)
  /-- `PRST id` (41_pid.md R129). -/
  | prst (id : BitVec 8)
  /-- `RDT id` (42_registry.md R141). -/
  | rdt (id : BitVec 8)
  /-- `WRC id, demand` (42_registry.md R142). -/
  | wrc (id : BitVec 8) (demand : Num32)
  /-- `RDC id` (42_registry.md R143). -/
  | rdc (id : BitVec 8)
  /-- `WRP id, kp, ki, kd, integral_limit, output_limit, sep_threshold, sep_en, dmeas` (42_registry.md R144). -/
  | wrp (id : BitVec 8) (sepEn dmeas : Bool) (kp ki kd integralLimit outputLimit sepThreshold : Num32)
  /-- `WRK base_rx_id, [cmd_frame_id[0] ..], i_fs, raw_fs, angle_num, angle_den` (42_registry.md R146). -/
  | wrk (rawFs : BitVec 15) (baseRxId : BitVec 11) (cmdFrameId : List (BitVec 11))
      (iFs angleNum angleDen : Num32)
  /-- `RDF` (42_registry.md R148). -/
  | rdf
deriving DecidableEq, Repr

end Sys2Proof
end

