-- ==== Sys2Proof/WellFormed.lean ====
section
/-! DEFINITION. The command as it is presented on a port, before it is decoded, and the check that its operand block
has the shape of a row (30_encoding.md R72, 20_memory.md R54); and the one check an `Instr` needs, as the widths are in
its fields' types: `WRK` carries one identifier for each of the `G` groups of the build (30_encoding.md R80). -/

namespace Sys2Proof

/-- The kinds of operand of 30_encoding.md R72. -/
inductive OperandKind where
  /-- A `Num`, carried as its 32-bit pattern. -/
  | num
  /-- A payload or frame of 8 bytes. -/
  | payload
  /-- One byte. -/
  | u8
  /-- An integer 0..2047. -/
  | u11
deriving DecidableEq, Repr

/-- One operand as presented, before its check. -/
inductive Operand where
  | num (bits : Num32)
  | payload (bytes : List Byte)
  | u8 (byte : Byte)
  | u11 (value : Nat)
deriving DecidableEq, Repr

/-- A request: the 32-bit command word followed by its operand block (30_encoding.md R70, R72). -/
structure Command where
  word : Word
  operands : List Operand
deriving DecidableEq, Repr

/-- An operand of the kind asked for: a payload holds exactly 8 bytes (20_memory.md R54), a `u11` is at most 2047
(30_encoding.md R72). -/
def Operand.fits : OperandKind → Operand → Bool
  | .num, .num _ => true
  | .payload, .payload bytes => bytes.length == 8
  | .u8, .u8 _ => true
  | .u11, .u11 value => value < 2048
  | _, _ => false

/-- The operand block has the shape given: as many operands, each of its kind, in order (30_encoding.md R72, R84). -/
def blockFits : List OperandKind → List Operand → Bool
  | [], [] => true
  | k :: ks, o :: os => Operand.fits k o && blockFits ks os
  | _, _ => false

/-- The operation is one of a build with `G` groups: `WRK` names `G` command frame identifiers (30_encoding.md R80). -/
def Instr.wellFormed (G : Nat) : Instr → Bool
  | .rxf _ _ => true
  | .dec _ => true
  | .enc _ _ => true
  | .pack _ _ _ _ => true
  | .pid _ _ _ _ => true
  | .prst _ => true
  | .rdt _ => true
  | .wrc _ _ => true
  | .rdc _ => true
  | .wrp _ _ _ _ _ _ _ _ _ => true
  | .wrk _ _ cmdFrameId _ _ _ => cmdFrameId.length == G
  | .rdf => true

end Sys2Proof
end

