-- ==== Sys2Proof/Decode.lean ====
section
/-! DEFINITION. The decoder of 30_encoding.md R71, R72, R80 and R81 step 0, total on every word and every operand
block, rejecting by name; and after it the encoder, written from the same table. -/

namespace Sys2Proof

/-- The rows of spec/opcode_table.json. -/
inductive Row where
  | rxf | dec | enc | pack | pid | prst | rdt | wrc | rdc | wrp | wrk | rdf
deriving DecidableEq, Repr

/-- Every row, in the table's order. -/
def rows : List Row :=
  [.rxf, .dec, .enc, .pack, .pid, .prst, .rdt, .wrc, .rdc, .wrp, .wrk, .rdf]

/-- `match` of the row (opcode_table.json; 30_encoding.md R80). -/
def rowMatch : Row → Word
  | .rxf => 0x01000000#32
  | .dec => 0x10000000#32
  | .enc => 0x11000000#32
  | .pack => 0x12000000#32
  | .pid => 0x20000000#32
  | .prst => 0x21000000#32
  | .rdt => 0x30000000#32
  | .wrc => 0x31000000#32
  | .rdc => 0x32000000#32
  | .wrp => 0x40000000#32
  | .wrk => 0x41000000#32
  | .rdf => 0x50000000#32

/-- `mask` of the row (opcode_table.json): the bits that are the opcode or must be zero (30_encoding.md R82). -/
def rowMask : Row → Word
  | .rxf => 0xFFFFF800#32
  | .dec => 0xFFFFFFFF#32
  | .enc => 0xFF00FFFF#32
  | .pack => 0xFFFFFFFC#32
  | .pid => 0xFF00FFFF#32
  | .prst => 0xFF00FFFF#32
  | .rdt => 0xFF00FFFF#32
  | .wrc => 0xFF00FFFF#32
  | .rdc => 0xFF00FFFF#32
  | .wrp => 0xFF00FFFC#32
  | .wrk => 0xFFFF8000#32
  | .rdf => 0xFFFFFFFF#32

/-- The fixed shape of the row's operand block (30_encoding.md R80, R84): "a function of the opcode alone (and of `G`
for `WRK`)", `G` being the number of groups of the build. -/
def rowShape (G : Nat) : Row → List OperandKind
  | .rxf => [.payload]
  | .dec => [.payload]
  | .enc => [.num]
  | .pack => [.payload, .u8, .u8]
  | .pid => [.num, .num, .num]
  | .prst => []
  | .rdt => []
  | .wrc => [.num]
  | .rdc => []
  | .wrp => [.num, .num, .num, .num, .num, .num]
  | .wrk => .u11 :: List.replicate G .u11 ++ [.num, .num, .num]
  | .rdf => []

/-- The word names this row: `(word AND mask) = match` (30_encoding.md R81 step 0). -/
def rowNamed (w : Word) (r : Row) : Bool := w &&& rowMask r == rowMatch r

/-- The row a command word names, if any (30_encoding.md R81 step 0). -/
def rowOf (w : Word) : Option Row := rows.find? (rowNamed w)

/-- `word[23:16]`, the ActuatorId field (30_encoding.md R71). -/
def idField (w : Word) : BitVec 8 := w.extractLsb' 16 8

/-- `aux[10:0]` of `RXF` (30_encoding.md R71). -/
def fidField (w : Word) : BitVec 11 := w.extractLsb' 0 11

/-- `aux[1:0]` of `PACK` (30_encoding.md R71). -/
def slotField (w : Word) : BitVec 2 := w.extractLsb' 0 2

/-- `aux[14:0]` of `WRK` (30_encoding.md R71). -/
def rawFsField (w : Word) : BitVec 15 := w.extractLsb' 0 15

/-- `aux[0]` of `WRP` (30_encoding.md R71). -/
def sepEnField (w : Word) : Bool := w.getLsbD 0

/-- `aux[1]` of `WRP` (30_encoding.md R71). -/
def dmeasField (w : Word) : Bool := w.getLsbD 1

/-- A payload operand of exactly 8 bytes (20_memory.md R54). -/
def payloadOf (bytes : List Byte) : Option Payload :=
  if h : bytes.length = 8 then some ⟨bytes.toArray, by simpa using h⟩ else none

/-- A `u11` operand, 0..2047 (30_encoding.md R72). -/
def u11Of (value : Nat) : Option (BitVec 11) :=
  if value < 2048 then some (BitVec.ofNat 11 value) else none

/-- Takes `n` `u11` operands from the front of a block, and gives the rest of the block with them. -/
def takeU11 : (n : Nat) → List Operand → Option (List (BitVec 11) × List Operand)
  | 0, rest => some ([], rest)
  | n + 1, .u11 value :: rest =>
    match u11Of value, takeU11 n rest with
    | some x, some (xs, rest') => some (x :: xs, rest')
    | _, _ => none
  | _ + 1, _ => none

/-- `RXF`: the fields of the word (30_encoding.md R71) and the operand block (R80). -/
def buildRxf (w : Word) : List Operand → Option Instr
  | [.payload p] => (payloadOf p).map (Instr.rxf (fidField w))
  | _ => none

/-- `DEC` (30_encoding.md R80): the word has no field. -/
def buildDec : List Operand → Option Instr
  | [.payload p] => (payloadOf p).map Instr.dec
  | _ => none

/-- `ENC` (30_encoding.md R71, R80). -/
def buildEnc (w : Word) : List Operand → Option Instr
  | [.num demand] => some (.enc (idField w) demand)
  | _ => none

/-- `PACK` (30_encoding.md R71, R80). -/
def buildPack (w : Word) : List Operand → Option Instr
  | [.payload f, .u8 high, .u8 low] => (payloadOf f).map fun f => Instr.pack (slotField w) f high low
  | _ => none

/-- `PID` (30_encoding.md R71, R80). -/
def buildPid (w : Word) : List Operand → Option Instr
  | [.num reference, .num feedback, .num dt] => some (.pid (idField w) reference feedback dt)
  | _ => none

/-- `PRST` (30_encoding.md R71, R80). -/
def buildPrst (w : Word) : List Operand → Option Instr
  | [] => some (.prst (idField w))
  | _ => none

/-- `RDT` (30_encoding.md R71, R80). -/
def buildRdt (w : Word) : List Operand → Option Instr
  | [] => some (.rdt (idField w))
  | _ => none

/-- `WRC` (30_encoding.md R71, R80). -/
def buildWrc (w : Word) : List Operand → Option Instr
  | [.num demand] => some (.wrc (idField w) demand)
  | _ => none

/-- `RDC` (30_encoding.md R71, R80). -/
def buildRdc (w : Word) : List Operand → Option Instr
  | [] => some (.rdc (idField w))
  | _ => none

/-- `WRP` (30_encoding.md R71, R80). -/
def buildWrp (w : Word) : List Operand → Option Instr
  | [.num kp, .num ki, .num kd, .num integralLimit, .num outputLimit, .num sepThreshold] =>
    some (.wrp (idField w) (sepEnField w) (dmeasField w) kp ki kd integralLimit outputLimit sepThreshold)
  | _ => none

/-- The operand block of `WRK` after its identifiers (30_encoding.md R80). -/
def buildWrkConstants (w : Word) (baseRxId : BitVec 11) (cmdFrameId : List (BitVec 11)) :
    List Operand → Option Instr
  | [.num iFs, .num angleNum, .num angleDen] =>
    some (.wrk (rawFsField w) baseRxId cmdFrameId iFs angleNum angleDen)
  | _ => none

/-- `WRK` (30_encoding.md R71, R80). -/
def buildWrk (G : Nat) (w : Word) : List Operand → Option Instr
  | .u11 base :: rest =>
    match u11Of base, takeU11 G rest with
    | some baseRxId, some (cmdFrameId, rest') => buildWrkConstants w baseRxId cmdFrameId rest'
    | _, _ => none
  | _ => none

/-- `RDF` (30_encoding.md R80): no field, no operand. -/
def buildRdf : List Operand → Option Instr
  | [] => some .rdf
  | _ => none

/-- The instruction of a row, from the fields of the word (30_encoding.md R71) and the operand block (R80); none where
the block has not the row's shape. -/
def build (G : Nat) (r : Row) (w : Word) (block : List Operand) : Option Instr :=
  match r with
  | .rxf => buildRxf w block
  | .dec => buildDec block
  | .enc => buildEnc w block
  | .pack => buildPack w block
  | .pid => buildPid w block
  | .prst => buildPrst w block
  | .rdt => buildRdt w block
  | .wrc => buildWrc w block
  | .rdc => buildRdc w block
  | .wrp => buildWrp w block
  | .wrk => buildWrk G w block
  | .rdf => buildRdf block

/-- Why a command is no instruction. -/
inductive DecodeError where
  /-- The word names no row: `ILLEGAL_OP` when the block is not halted (30_encoding.md R81 step 2, R82). -/
  | noRow
  /-- The operand block has not the shape of the row the word names: such a request "cannot be presented"
  (20_memory.md R54, 30_encoding.md R72). -/
  | operandBlock
deriving DecidableEq, Repr

/-- The request can be presented: where its word names a row, its operand block has that row's shape (30_encoding.md
R72, 20_memory.md R54). A word that names no row has no shape to fit. -/
def presentable (G : Nat) (c : Command) : Bool :=
  match rowOf c.word with
  | none => true
  | some r => blockFits (rowShape G r) c.operands

/-- Decodes a command of a build with `G` groups (30_encoding.md R81 step 0, R72). -/
def decode (G : Nat) (c : Command) : Except DecodeError Instr :=
  match rowOf c.word with
  | none => .error .noRow
  | some r =>
    match build G r c.word c.operands with
    | none => .error .operandBlock
    | some i => .ok i

/-- An operand of the kind with every bit zero. -/
def zeroOperand : OperandKind → Operand
  | .num => .num 0
  | .payload => .payload (List.replicate 8 0)
  | .u8 => .u8 0
  | .u11 => .u11 0

/-- The command of a word with an operand block of zeros in the shape of its row. -/
def zeroCommand (G : Nat) (w : Word) : Command :=
  ⟨w, match rowOf w with
      | some r => (rowShape G r).map zeroOperand
      | none => []⟩

/-- The instruction the decoder reads from the command word `w` (bit 0 the least significant) with an operand block of
zeros; bits from `nbits` on are zero. -/
def decodeTableWord (nbits w : Nat) : Option Instr :=
  match decode Config.G (zeroCommand Config.G (BitVec.ofNat 32 (w % 2 ^ nbits))) with
  | .ok i => some i
  | .error _ => none

/-- The row an instruction is of. -/
def Instr.row : Instr → Row
  | .rxf .. => .rxf
  | .dec .. => .dec
  | .enc .. => .enc
  | .pack .. => .pack
  | .pid .. => .pid
  | .prst .. => .prst
  | .rdt .. => .rdt
  | .wrc .. => .wrc
  | .rdc .. => .rdc
  | .wrp .. => .wrp
  | .wrk .. => .wrk
  | .rdf => .rdf

/-- A command word from its three parts, `opcode[31:24]`, `id[23:16]`, `aux[15:0]` (30_encoding.md R71). -/
def wordOf (opcode id : BitVec 8) (aux : BitVec 16) : Word := (opcode ++ id) ++ aux

/-- The command word of an instruction (30_encoding.md R71, R80). -/
def encodeWord : Instr → Word
  | .rxf fid _ => wordOf 0x01 0 (fid.zeroExtend 16)
  | .dec _ => wordOf 0x10 0 0
  | .enc id _ => wordOf 0x11 id 0
  | .pack slot _ _ _ => wordOf 0x12 0 (slot.zeroExtend 16)
  | .pid id _ _ _ => wordOf 0x20 id 0
  | .prst id => wordOf 0x21 id 0
  | .rdt id => wordOf 0x30 id 0
  | .wrc id _ => wordOf 0x31 id 0
  | .rdc id => wordOf 0x32 id 0
  | .wrp id sepEn dmeas _ _ _ _ _ _ =>
    wordOf 0x40 id ((BitVec.ofBool dmeas ++ BitVec.ofBool sepEn).zeroExtend 16)
  | .wrk rawFs _ _ _ _ _ => wordOf 0x41 0 (rawFs.zeroExtend 16)
  | .rdf => wordOf 0x50 0 0

/-- The operand block of an instruction (30_encoding.md R72, R80). -/
def encodeOperands : Instr → List Operand
  | .rxf _ p => [.payload p.toList]
  | .dec p => [.payload p.toList]
  | .enc _ demand => [.num demand]
  | .pack _ f high low => [.payload f.toList, .u8 high, .u8 low]
  | .pid _ reference feedback dt => [.num reference, .num feedback, .num dt]
  | .prst _ => []
  | .rdt _ => []
  | .wrc _ demand => [.num demand]
  | .rdc _ => []
  | .wrp _ _ _ kp ki kd integralLimit outputLimit sepThreshold =>
    [.num kp, .num ki, .num kd, .num integralLimit, .num outputLimit, .num sepThreshold]
  | .wrk _ baseRxId cmdFrameId iFs angleNum angleDen =>
    .u11 baseRxId.toNat :: cmdFrameId.map (fun x => Operand.u11 x.toNat) ++
      [.num iFs, .num angleNum, .num angleDen]
  | .rdf => []

/-- The command of an instruction: its word and its operand block. -/
def encode (i : Instr) : Command := ⟨encodeWord i, encodeOperands i⟩

end Sys2Proof
end

