-- ==== Sys2Proof/Machine/State.lean ====
section
/-! DEFINITION. The state of RMH2-ACB (10_state.md R20), its reset values (R39), what crosses its boundary
(30_encoding.md R70, R77), and the two ways the model can stop. -/

namespace Sys2Proof.Machine

/-- `TEL[id]`, the last telemetry of an actuator (10_state.md R25). `velocity` is an s16 in two's complement. -/
structure Tel where
  angle : Num32
  velocity : BitVec 16
  current : Num32
  temperature : Byte
deriving DecidableEq, Repr

/-- `CMD[id]`, the last command of an actuator (10_state.md R26). -/
structure Cmd where
  demand : Num32
deriving DecidableEq, Repr

/-- The state of one controller, `PST[id].run` (10_state.md R28): Idle is 0, Running is 1. -/
inductive Run where
  | idle
  | running
deriving DecidableEq, Repr

/-- `PST[id]`, the PidState of an actuator (10_state.md R27, R28). -/
structure Pst where
  integral : Num32
  lastError : Num32
  lastFeedback : Num32
  run : Run
deriving DecidableEq, Repr

/-- `PCF[id]`, the PidParams and the PID configuration of an actuator (10_state.md R29, R30). -/
structure Pcf where
  valid : Bool
  kp : Num32
  ki : Num32
  kd : Num32
  integralLimit : Num32
  outputLimit : Num32
  sepThreshold : Num32
  sepEn : Bool
  dmeas : Bool
deriving DecidableEq, Repr

/-- `CODEC`, the codec and addressing constants (10_state.md R32), of a build with `G` groups. -/
structure Codec (G : Nat) where
  valid : Bool
  baseRxId : BitVec 11
  cmdFrameId : Vector (BitVec 11) G
  iFs : Num32
  rawFs : BitVec 15
  angleNum : Num32
  angleDen : Num32
deriving DecidableEq, Repr

/-- `FAULT`, the halt and fault record (10_state.md R34). -/
structure FaultRecord where
  halt : Bool
  cause : BitVec 4
  word : Word
  port : BitVec 2
deriving DecidableEq, Repr

/-- The result values of a response with status OK (30_encoding.md R80), by the operations that return them. -/
inductive Results where
  /-- No result value: `RXF`, `PRST`, `WRP`, `WRK`. -/
  | none
  /-- `angle`, `velocity`, `current`, `temperature`: `DEC`, `RDT`. -/
  | telemetry (t : Tel)
  /-- `frameId`, `offset`, `high`, `low`: `ENC`. -/
  | encoded (frameId : BitVec 32) (offset : BitVec 3) (high low : Byte)
  /-- `f'[0..7]`: `PACK`. -/
  | frame (f : Payload)
  /-- `output`: `PID`. -/
  | output (v : Num32)
  /-- `stored`: `WRC`. -/
  | stored (v : Num32)
  /-- `demand`: `RDC`. -/
  | demand (v : Num32)
  /-- `halt`, `cause`, `word`, `port`: `RDF`. -/
  | faultRecord (f : FaultRecord)
deriving DecidableEq, Repr

/-- The response to an operation (30_encoding.md R77): a status and, for status OK, the result values. -/
inductive Response where
  /-- Status 0: executed. -/
  | ok (r : Results)
  /-- Status 1: an `RXF` whose identifier maps to no actuator, or while `CODEC.valid = 0`. -/
  | ignored
  /-- Status 2: this operation raised a fault. -/
  | fault
  /-- Status 3: the block was already halted. -/
  | halted
deriving DecidableEq, Repr

/-- The last response given on each port. The model's own: log entry 2. -/
structure Outputs where
  rx : Option Response
  ctl : Option Response
  cfg : Option Response
deriving DecidableEq, Repr

/-- What the outside does to the block: an operation on a port (30_encoding.md R70) or the reset input
(70_reset_and_hazards.md R190). -/
inductive Event where
  | request (port : Port) (command : Command)
  | reset
deriving DecidableEq, Repr

/-- The state of a build with `N` actuators (00_scope.md R8); `State` alone is that of this hardware (log entry 9). `tel`,
`cmd`, `pst`, `pcf`, `codec` and `fault` are the whole state of the block (10_state.md R20); the slot of ActuatorId `id`
is index `id - 1`. The other four fields are the model's own (log entries 1, 2, 3). -/
structure State (N : Nat := Config.N) where
  /-- `TEL[1..N]`. -/
  tel : Vector Tel N
  /-- `CMD[1..N]`. -/
  cmd : Vector Cmd N
  /-- `PST[1..N]`. -/
  pst : Vector Pst N
  /-- `PCF[1..N]`. -/
  pcf : Vector Pcf N
  /-- `CODEC`. -/
  codec : Codec (Config.groups N)
  /-- `FAULT`. -/
  fault : FaultRecord
  /-- The events to come, in the one total order of 20_memory.md R59. DESIGN CHOICE, safe: log entry 1. -/
  inbox : List Event
  /-- The port on which the operation being executed arrived (30_encoding.md R73). DESIGN CHOICE, unsafe for its reset
  value: log entry 3. -/
  port : Port
  /-- The command word of the operation being executed (30_encoding.md R71). DESIGN CHOICE, unsafe for its
  reset value: log entry 3. -/
  word : Word
  /-- The last response on each port. DESIGN CHOICE, safe: log entry 2. -/
  rsp : Outputs
deriving DecidableEq, Repr

/-- The model stops with no fault: every fault of the spec is a next state, fault entry (60_exceptions.md R168), and
"every 32-bit word on every port has exactly one outcome" (30_encoding.md R82). So this type is closed and empty: nothing
raises it. Safe. -/
inductive Fault where
deriving DecidableEq, Repr

/-- Why the model gives no step. -/
inductive Refusal where
  /-- An instruction without a meaning in the model; raised by an arm of `exec`. No arm raises it. Safe. -/
  | notModelled (mnemonic : String)
  /-- The operand block at the head of `inbox` has not the shape of the row its word names; the spec says such a
  request cannot be presented (20_memory.md R54, 30_encoding.md R72). Raised by `step` alone. Safe: log entry 4. -/
  | operandBlock
deriving DecidableEq, Repr

/-- The outcome of a step of a build with `N` actuators. -/
abbrev Result (N : Nat := Config.N) := Host.Outcome (State N) Fault Refusal

/-- `TEL[id]` after reset (10_state.md R39). -/
def Tel.reset : Tel := ⟨0, 0, 0, 0⟩

/-- `CMD[id]` after reset (10_state.md R39). -/
def Cmd.reset : Cmd := ⟨0⟩

/-- `PST[id]` after reset: the Idle state (10_state.md R39, 41_pid.md R121). -/
def Pst.reset : Pst := ⟨0, 0, 0, .idle⟩

/-- `PCF[id]` after reset (10_state.md R39). -/
def Pcf.reset : Pcf := ⟨false, 0, 0, 0, 0, 0, 0, false, false⟩

/-- `CODEC` after reset (10_state.md R39). -/
def Codec.reset {G : Nat} : Codec G := ⟨false, 0, Vector.replicate G 0, 0, 0, 0, 0⟩

/-- `FAULT` after reset (10_state.md R39). -/
def FaultRecord.reset : FaultRecord := ⟨false, 0, 0, 0⟩

/-- The state after reset of a build with `N` actuators: every field of every record is zero (10_state.md R39,
70_reset_and_hazards.md R191). The values of the model's own fields are named in log entries 1, 2 and 3. -/
def State.resetOf (N : Nat) : State N where
  tel := Vector.replicate N Tel.reset
  cmd := Vector.replicate N Cmd.reset
  pst := Vector.replicate N Pst.reset
  pcf := Vector.replicate N Pcf.reset
  codec := Codec.reset
  fault := FaultRecord.reset
  inbox := []
  port := .rx
  word := 0
  rsp := ⟨none, none, none⟩

/-- The state of this hardware after reset. -/
def State.reset : State := State.resetOf Config.N

end Sys2Proof.Machine
end

