-- ==== Sys2Proof/Machine/Flags.lean ====
section
/-! DEFINITION. The codes of ports, fault causes and statuses, and the output signal. The block has no condition codes
and no flag that one operation sets and another tests (10_state.md R23): the status of an operation is part of its
response, and `FAULT.halt` is the one sticky status. -/

namespace Sys2Proof.Machine

/-- The fault causes (60_exceptions.md R165). -/
inductive Cause where
  | illegalOp
  | badId
  | codecUninit
  | paramsUninit
  | nanOperand
  | dtNonpositive
  | badConfig
  | nanResult
deriving DecidableEq, Repr

/-- The value written to `FAULT.cause` (60_exceptions.md R165). -/
def causeCode : Cause → BitVec 4
  | .illegalOp => 1
  | .badId => 2
  | .codecUninit => 3
  | .paramsUninit => 4
  | .nanOperand => 5
  | .dtNonpositive => 6
  | .badConfig => 7
  | .nanResult => 8

/-- The code of a port (30_encoding.md R73), written to `FAULT.port`. -/
def portCode : Port → BitVec 2
  | .rx => 0
  | .ctl => 1
  | .cfg => 2

/-- The status code of a response (30_encoding.md R77). -/
def statusCode : Response → Nat
  | .ok _ => 0
  | .ignored => 1
  | .fault => 2
  | .halted => 3

/-- `PST[id].run` as the bit the spec gives it (10_state.md R28). -/
def runBit : Run → BitVec 1
  | .idle => 0
  | .running => 1

/-- The output signal `fault_o`, equal to `FAULT.halt` at all times (60_exceptions.md R172). -/
def faultO {N : Nat} (s : State N) : Bool := s.fault.halt

end Sys2Proof.Machine
end

