-- ==== Sys2Proof/Machine/Num.lean ====
section
/-! DEFINITION. The operations on `Num` of 00_scope.md R15 to R17, for `Num` = IEEE 754 binary32 (R9), in exact
integer arithmetic.

Every finite binary32 is a whole number of units of 2^-149, the least subnormal. So a sum of two values is an exact
`Int` of units, a product is an exact number of units over 2^149, a quotient is an exact fraction of units, and one
function, `roundUnits`, rounds them all. Nothing is evaluated in floating point. -/

namespace Sys2Proof.F32

open Sys2Proof.Config (nan)

/-- The sign bit. -/
def sign (x : Num32) : Bool := x.getLsbD 31

/-- The pattern without its sign bit, as a number: it grows with the absolute value. -/
def mag (x : Num32) : Nat := x.toNat % 2 ^ 31

/-- The magnitude pattern of the infinities. -/
def infMag : Nat := 255 * 2 ^ 23

/-- `isNaN` (00_scope.md R15). -/
def isNaN (x : Num32) : Bool := infMag < mag x

/-- An infinity of either sign. -/
def isInf (x : Num32) : Bool := mag x == infMag

/-- Neither an infinity nor NaN. -/
def isFinite (x : Num32) : Bool := mag x < infMag

/-- A zero of either sign. -/
def isZero (x : Num32) : Bool := mag x == 0

/-- What a magnitude pattern below the infinities is worth, in units of 2^-149: with exponent field 0 its fraction;
with exponent field `e >= 1` its significand, the hidden bit put back, times `2^(e-1)`. Exponent fields 0 and 1 have one
scale (gradual underflow). -/
def unitsOfMag (m : Nat) : Nat :=
  if m / 2 ^ 23 = 0 then m % 2 ^ 23 else (2 ^ 23 + m % 2 ^ 23) * 2 ^ (m / 2 ^ 23 - 1)

/-- The absolute value of a finite `x`, in units of 2^-149. -/
def units (x : Num32) : Nat := unitsOfMag (mag x)

/-- The value of a finite `x`, in units of 2^-149. -/
def value (x : Num32) : Int := if sign x then -(units x : Int) else units x

/-- The pattern with this sign and this magnitude pattern. -/
def ofSignMag (neg : Bool) (m : Nat) : Num32 := BitVec.ofBool neg ++ BitVec.ofNat 31 m

/-- The infinity of this sign. -/
def inf (neg : Bool) : Num32 := ofSignMag neg infMag

/-- The zero of this sign. -/
def signedZero (neg : Bool) : Num32 := ofSignMag neg 0

/-- The whole number nearest to `n / d`, a tie going to the even one. -/
def roundDiv (n d : Nat) : Nat :=
  let q := n / d
  if d < 2 * (n % d) ∨ (d = 2 * (n % d) ∧ q % 2 = 1) then q + 1 else q

/-- How far the significand of `n / d` units is shifted: 0 up to the first normal binade, one more for each binade
above. -/
def scaleOf (n d : Nat) : Nat := Nat.log2 (n / d) - 23

/-- The magnitude pattern nearest to `n / d` units, ties to even, with gradual underflow, and the infinity from the
overflow threshold on. A significand that rounds up to the next power of two carries into the exponent field. -/
def roundMag (n d : Nat) : Nat :=
  let s := scaleOf n d
  min (s * 2 ^ 23 + roundDiv n (d * 2 ^ s)) infMag

/-- The binary32 nearest to `n / d` units with this sign (round to nearest even, 00_scope.md R9). -/
def roundUnits (neg : Bool) (n d : Nat) : Num32 := ofSignMag neg (roundMag n d)

/-- `zero` (00_scope.md R15): `+0`. -/
def zero : Num32 := 0#32

/-- `two` (00_scope.md R15). -/
def two : Num32 := 0x40000000#32

/-- `ofInt(i)` (00_scope.md R15): exact for `|i| <= 65535`. -/
def ofInt (i : Int) : Num32 := roundUnits (i < 0) (i.natAbs * 2 ^ 149) 1

/-- `neg(a)` (00_scope.md R15): the sign bit inverted. -/
def neg (a : Num32) : Num32 := a ^^^ 0x80000000#32

/-- `abs(a)` (00_scope.md R15): the sign bit cleared. -/
def abs (a : Num32) : Num32 := a &&& 0x7FFFFFFF#32

/-- The sum of two finite values: an exact sum of zero is `+0`, except that two negative zeros give `-0`. -/
def addFinite (a b : Num32) : Num32 :=
  if value a + value b = 0 then signedZero (sign a && sign b)
  else roundUnits (value a + value b < 0) (value a + value b).natAbs 1

/-- `add(a, b)` (00_scope.md R15). -/
def add (a b : Num32) : Num32 :=
  if isNaN a || isNaN b then nan
  else if isInf a && isInf b then (if sign a == sign b then a else nan)
  else if isInf a then a
  else if isInf b then b
  else addFinite a b

/-- `sub(a, b)` (00_scope.md R15): the exact difference is the sum with the second operand negated. -/
def sub (a b : Num32) : Num32 := add a (neg b)

/-- The sign of a product or a quotient. -/
def signProduct (a b : Num32) : Bool := sign a != sign b

/-- `mul(a, b)` (00_scope.md R15). -/
def mul (a b : Num32) : Num32 :=
  if isNaN a || isNaN b then nan
  else if isInf a || isInf b then
    (if isZero a || isZero b then nan else inf (signProduct a b))
  else roundUnits (signProduct a b) (units a * units b) (2 ^ 149)

/-- `div(a, b)` (00_scope.md R15). No rule divides by zero (R15); IEEE 754's results for it stand here all the same. -/
def div (a b : Num32) : Num32 :=
  if isNaN a || isNaN b then nan
  else if isInf a then (if isInf b then nan else inf (signProduct a b))
  else if isInf b then signedZero (signProduct a b)
  else if isZero b then (if isZero a then nan else inf (signProduct a b))
  else roundUnits (signProduct a b) (units a * 2 ^ 149) (units b)

/-- A whole number that orders the values that are not NaN, infinities included, the two zeros together. -/
def key (x : Num32) : Int := if sign x then -(mag x : Int) else mag x

/-- `lt(a, b)` (00_scope.md R15): false whenever an operand is NaN. -/
def lt (a b : Num32) : Bool := !isNaN a && !isNaN b && decide (key a < key b)

/-- `le(a, b)` (00_scope.md R15): false whenever an operand is NaN. -/
def le (a b : Num32) : Bool := !isNaN a && !isNaN b && decide (key a ≤ key b)

/-- `gt(a, b)` (00_scope.md R15): false whenever an operand is NaN. -/
def gt (a b : Num32) : Bool := lt b a

/-- `clamp(x, lo, hi)` (00_scope.md R16). -/
def clamp (x lo hi : Num32) : Num32 := if gt x hi then hi else if lt x lo then lo else x

/-- `roundHAZ(x)` (00_scope.md R17) for a finite `x`: the integer nearest to `x`, a tie going away from zero. -/
def roundHAZ (x : Num32) : Int :=
  if sign x then -(((2 * units x + 2 ^ 149) / 2 ^ 150 : Nat) : Int)
  else ((2 * units x + 2 ^ 149) / 2 ^ 150 : Nat)

/-- `toS16(x)` (00_scope.md R17), an integer in -32768..32767. The spec states no result for a NaN and never applies it
to one: there the free value stands (log entry 7). -/
def toS16 (x : Num32) : Int :=
  if isNaN x then (Config.s16OfNaN x).toInt
  else if le (ofInt 32767) x then 32767
  else if le x (ofInt (-32768)) then -32768
  else roundHAZ x

/-- The `Num` nearest to the decimal literal `digits / 10^scale` with this sign (30_encoding.md R86). -/
def ofDecimal (neg : Bool) (digits scale : Nat) : Num32 := roundUnits neg (digits * 2 ^ 149) (10 ^ scale)

end Sys2Proof.F32
end

