-- ==== Sys2Proof/Machine/Operands.lean ====
section
/-! DEFINITION. How the operands of an operation are read: the selection of a record slot, the fields of a frame, the
conversions between 16-bit patterns and integers, and the checks on `Num` operands. -/

namespace Sys2Proof.Machine

variable {N : Nat}

/-- The slot of an ActuatorId field, if it is in `1..N` (10_state.md R24, 30_encoding.md R81 step 4). -/
def slotOf (id : BitVec 8) : Option (Fin N) :=
  if h : 1 ≤ id.toNat ∧ id.toNat ≤ N then some ⟨id.toNat - 1, by omega⟩ else none

/-- The identifier mapping `k = fid - base_rx_id` on unbounded integers (20_memory.md R57, R65): the slot of `k` where
`1 <= k <= N`. -/
def rxSlotOf (fid base : BitVec 11) : Option (Fin N) :=
  let k : Int := (fid.toNat : Int) - (base.toNat : Int)
  if h : 1 ≤ k ∧ k ≤ (N : Int) then some ⟨k.toNat - 1, by omega⟩ else none

/-- `Slot(id) = (id - 1) mod 4` (40_codec.md R104); the slot index `k` is `id - 1`. -/
def frameSlot (k : Fin N) : Nat := k.val % 4

/-- `Offset(id) = 2 * Slot(id)` (40_codec.md R104). -/
def frameOffset (k : Fin N) : Nat := 2 * frameSlot k

/-- `Group(id) = (id - 1) div 4` (40_codec.md R104). -/
def groupOf (k : Fin N) : Fin (Config.groups N) := ⟨k.val / 4, by have h := k.isLt; unfold Config.groups; omega⟩

/-- Bytes `i` and `i + 1` of a payload read big-endian (00_scope.md R13, 20_memory.md R51). -/
def be16 (high low : Byte) : Nat := high.toNat * 256 + low.toNat

/-- `s16(w)` (00_scope.md R12): a 16-bit pattern as a two's complement integer. -/
def s16 (w : Nat) : Int := if w < 32768 then (w : Int) else (w : Int) - 65536

/-- `u16(r)` (00_scope.md R12): the 16-bit pattern `r mod 65536`. -/
def u16 (r : Int) : BitVec 16 := BitVec.ofInt 16 r

/-- `w[15:8]` (40_codec.md R105). -/
def highByte (w : BitVec 16) : Byte := w.extractLsb' 8 8

/-- `w[7:0]` (40_codec.md R105). -/
def lowByte (w : BitVec 16) : Byte := w.extractLsb' 0 8

/-- The identifiers of `WRK`, one for each group (30_encoding.md R80). A list that has not `G` of them belongs to no
operation of the build (`Instr.wellFormed`) and is never decoded; the term is total all the same (log entry 4). -/
def frameIds {G : Nat} (ids : List (BitVec 11)) : Vector (BitVec 11) G := Vector.ofFn fun g => ids.getD g.val 0

/-- Some `Num` operand is NaN (30_encoding.md R81 step 7). -/
def anyNaN (l : List Num32) : Bool := l.any F32.isNaN

/-- The legality check of `WRK` (42_registry.md R147, 10_state.md R33). -/
def configLegal (iFs : Num32) (rawFs : BitVec 15) (angleNum angleDen : Num32) : Bool :=
  F32.isFinite iFs && F32.gt iFs F32.zero && decide (1 ≤ rawFs.toNat) && F32.isFinite angleNum &&
    F32.isFinite angleDen && !F32.isZero angleDen

/-- `sat0(L)` (42_registry.md R144, R145): a negative limit is stored as `zero`. -/
def sat0 (limit : Num32) : Num32 := if F32.lt limit F32.zero then F32.zero else limit

end Sys2Proof.Machine
end

