-- ==== Sys2Proof/Machine/Ops.lean ====
section
/-! DEFINITION. The named operations every meaning is written with: the response, the fault entry, reset, the checks
common to all operations, and the writes of whole records. There is no return from a fault (60_exceptions.md R170):
only reset leaves the halt. -/

namespace Sys2Proof.Machine

variable {N : Nat}

/-- The response outputs with a new response on port `q`. -/
def putResponse (q : Port) (r : Response) (o : Outputs) : Outputs :=
  match q with
  | .rx => { o with rx := some r }
  | .ctl => { o with ctl := some r }
  | .cfg => { o with cfg := some r }

/-- The last response on port `q`. -/
def responseAt (q : Port) (o : Outputs) : Option Response :=
  match q with
  | .rx => o.rx
  | .ctl => o.ctl
  | .cfg => o.cfg

/-- `respond(status, values)` (00_scope.md R18, 30_encoding.md R77): the response goes to the port that issued the
operation. -/
def respond (r : Response) (s : State N) : State N := { s with rsp := putResponse s.port r s.rsp }

/-- The end of an executed operation: status OK with its result values. -/
def answer (r : Results) (s : State N) : Result N := .next (respond (.ok r) s)

/-- Fault entry, `raise Fault(cause)` (60_exceptions.md R168): `FAULT <- {halt = 1, cause, word = w, port = q}`, no other
record is written, and the status is FAULT. -/
def raiseFault (c : Cause) (s : State N) : State N :=
  respond .fault { s with fault := ⟨true, causeCode c, s.word, portCode s.port⟩ }

/-- The reset input (70_reset_and_hazards.md R190, R191): every field of every record is zero. What the agents go on to
do is not the block's: `inbox` stays (log entry 10). -/
def resetBlock (s : State N) : State N := { State.resetOf N with inbox := s.inbox }

/-- Steps 1 and 3 of 30_encoding.md R81: a halted block answers HALTED; an operation that is not legal on the arriving
port (10_state.md R40) raises ILLEGAL_OP. -/
def accept (legal : List Port) (s : State N) (go : Result N) : Result N :=
  if s.fault.halt then .next (respond .halted s)
  else if legal.contains s.port then go
  else .next (raiseFault .illegalOp s)

/-- One check of 30_encoding.md R81: where it fails, the cause is raised. -/
def require (ok : Bool) (c : Cause) (s : State N) (go : Result N) : Result N :=
  if ok then go else .next (raiseFault c s)

/-- Step 4 of 30_encoding.md R81: an `id` outside `1..N` raises BAD_ID. -/
def withSlot (id : BitVec 8) (s : State N) (go : Fin N → Result N) : Result N :=
  match slotOf id with
  | some k => go k
  | none => .next (raiseFault .badId s)

/-- `TEL[id] <- t`: all four fields together (20_memory.md R55). -/
def writeTel (k : Fin N) (t : Tel) (s : State N) : State N := { s with tel := s.tel.set k t }

/-- `CMD[id] <- c`. -/
def writeCmd (k : Fin N) (c : Cmd) (s : State N) : State N := { s with cmd := s.cmd.set k c }

/-- `PST[id] <- p`: the whole record (20_memory.md R55). -/
def writePst (k : Fin N) (p : Pst) (s : State N) : State N := { s with pst := s.pst.set k p }

/-- `PCF[id] <- p`: the whole record (20_memory.md R55). -/
def writePcf (k : Fin N) (p : Pcf) (s : State N) : State N := { s with pcf := s.pcf.set k p }

/-- `CODEC <- c`: the whole record (20_memory.md R55). -/
def writeCodec (c : Codec (Config.groups N)) (s : State N) : State N := { s with codec := c }

end Sys2Proof.Machine
end

