-- ==== Sys2Proof/Machine/Codec.lean ====
section
/-! DEFINITION. The frame codec (40_codec.md): the pure functions `Decode` and `EncodeRaw`, and the operations DEC, ENC,
PACK and RXF. -/

namespace Sys2Proof.Machine

variable {N G : Nat}

/-- `angle = (ra * angle_num) / angle_den`, each step rounded (40_codec.md R101). -/
def decodeAngle (ra : Nat) (c : Codec G) : Num32 := F32.div (F32.mul (F32.ofInt ra) c.angleNum) c.angleDen

/-- `current = (rc * i_fs) / raw_fs`, each step rounded (40_codec.md R101). -/
def decodeCurrent (rc : Int) (c : Codec G) : Num32 :=
  F32.div (F32.mul (F32.ofInt rc) c.iFs) (F32.ofInt c.rawFs.toNat)

/-- `Decode(p, K)` (40_codec.md R101): big-endian fields, byte 7 not read. -/
def decodeTel (p : Payload) (c : Codec G) : Tel where
  angle := decodeAngle (be16 p[0] p[1]) c
  velocity := u16 (s16 (be16 p[2] p[3]))
  current := decodeCurrent (s16 (be16 p[4] p[5])) c
  temperature := p[6]

/-- `EncodeRaw(demand, K)` (40_codec.md R103): clamp, scale, round; a 16-bit signed integer. -/
def encodeRaw (demand : Num32) (c : Codec G) : Int :=
  F32.toS16 (F32.div (F32.mul (F32.clamp demand (F32.neg c.iFs) c.iFs) (F32.ofInt c.rawFs.toNat)) c.iFs)

/-- The frame with its slot `slot` holding `high` and `low`, the other six bytes as they are (40_codec.md R106). -/
def packFrame (slot : BitVec 2) (f : Payload) (high low : Byte) : Payload :=
  (f.set (2 * slot.toNat) high (by have := slot.isLt; omega)).set (2 * slot.toNat + 1) low
    (by have := slot.isLt; omega)

/-- `DEC [p0 .. p7]` (40_codec.md R102). -/
def execDec (p : Payload) (s : State N) : Result N :=
  accept [.ctl] s <|
  require s.codec.valid .codecUninit s <|
  answer (.telemetry (decodeTel p s.codec)) s

/-- The result values of `ENC` for slot `k` (40_codec.md R105). -/
def encodeResults (k : Fin N) (demand : Num32) (c : Codec (Config.groups N)) : Results :=
  let w := u16 (encodeRaw demand c)
  .encoded (c.cmdFrameId[groupOf k].zeroExtend 32) (BitVec.ofNat 3 (frameOffset k)) (highByte w) (lowByte w)

/-- `ENC id, demand` (40_codec.md R105). -/
def execEnc (id : BitVec 8) (demand : Num32) (s : State N) : Result N :=
  accept [.ctl] s <|
  withSlot id s fun k =>
  require s.codec.valid .codecUninit s <|
  require (!anyNaN [demand]) .nanOperand s <|
  answer (encodeResults k demand s.codec) s

/-- `PACK s, [f0 .. f7], high, low` (40_codec.md R106). -/
def execPack (slot : BitVec 2) (f : Payload) (high low : Byte) (s : State N) : Result N :=
  accept [.ctl] s <|
  answer (.frame (packFrame slot f high low)) s

/-- `RXF fid, [p0 .. p7]` (40_codec.md R107): an unknown identifier, or any while the codec is not configured, is
ignored. -/
def execRxf (fid : BitVec 11) (p : Payload) (s : State N) : Result N :=
  accept [.rx] s <|
  if s.codec.valid then
    match rxSlotOf fid s.codec.baseRxId with
    | some k => answer .none (writeTel k (decodeTel p s.codec) s)
    | none => .next (respond .ignored s)
  else .next (respond .ignored s)

end Sys2Proof.Machine
end

