-- ==== Sys2Proof/Machine/Pid.lean ====
section
/-! DEFINITION. The PID controller state machine (41_pid.md): the seven steps of `PID` and the explicit reset `PRST`. -/

namespace Sys2Proof.Machine

variable {N : Nat}

/-- Step 1 (41_pid.md R124): `error = reference - feedback`. -/
def pidError (reference feedback : Num32) : Num32 := F32.sub reference feedback

/-- Step 2 (41_pid.md R124): the trapezoidal update, gated by integral separation when that is enabled. -/
def pidAccumulate (c : Pcf) (p : Pst) (error dt : Num32) : Num32 :=
  if !c.sepEn || F32.lt (F32.abs error) c.sepThreshold then
    F32.add p.integral (F32.mul (F32.div (F32.add error p.lastError) F32.two) dt)
  else p.integral

/-- Step 3 (41_pid.md R125): the accumulator clamped, on every tick. -/
def pidIntegral (c : Pcf) (p : Pst) (error dt : Num32) : Num32 :=
  F32.clamp (pidAccumulate c p error dt) (F32.neg c.integralLimit) c.integralLimit

/-- Step 4 (41_pid.md R126): on the measurement with `dmeas = 1`, on the error with `dmeas = 0` (log entry 12). -/
def pidDerivative (c : Pcf) (p : Pst) (error feedback dt : Num32) : Num32 :=
  if c.dmeas then F32.div (F32.sub p.lastFeedback feedback) dt
  else F32.div (F32.sub error p.lastError) dt

/-- Steps 5 and 6 (41_pid.md R127): `(kp*error + ki*integral) + kd*derivative`, clamped. -/
def pidOutput (c : Pcf) (error integral derivative : Num32) : Num32 :=
  F32.clamp
    (F32.add (F32.add (F32.mul c.kp error) (F32.mul c.ki integral)) (F32.mul c.kd derivative))
    (F32.neg c.outputLimit) c.outputLimit

/-- One tick (41_pid.md R123): the record of step 7 and the output. -/
def pidTick (c : Pcf) (p : Pst) (reference feedback dt : Num32) : Pst × Num32 :=
  let error := pidError reference feedback
  let integral := pidIntegral c p error dt
  let derivative := pidDerivative c p error feedback dt
  (⟨integral, error, feedback, .running⟩, pidOutput c error integral derivative)

/-- The numeric check of 41_pid.md R128: none of the error, the new integral and the output is NaN. -/
def pidNumeric (r : Pst × Num32) : Bool := !anyNaN [r.1.lastError, r.1.integral, r.2]

/-- `PID id, reference, feedback, dt` (41_pid.md R122, R123, R128). -/
def execPid (id : BitVec 8) (reference feedback dt : Num32) (s : State N) : Result N :=
  accept [.ctl] s <|
  withSlot id s fun k =>
  require s.pcf[k].valid .paramsUninit s <|
  require (!anyNaN [reference, feedback, dt]) .nanOperand s <|
  require (!F32.le dt F32.zero) .dtNonpositive s <|
  let r := pidTick s.pcf[k] s.pst[k] reference feedback dt
  require (pidNumeric r) .nanResult s <|
  answer (.output r.2) (writePst k r.1 s)

/-- `PRST id` (41_pid.md R129): the Idle state, whether or not parameters were written. -/
def execPrst (id : BitVec 8) (s : State N) : Result N :=
  accept [.cfg] s <|
  withSlot id s fun k =>
  answer .none (writePst k ⟨F32.zero, F32.zero, F32.zero, .idle⟩ s)

end Sys2Proof.Machine
end

