-- ==== Sys2Proof/Machine/Registry.lean ====
section
/-! DEFINITION. The registry and synchronisation operations (42_registry.md): RDT, WRC, RDC, WRP, WRK, RDF. -/

namespace Sys2Proof.Machine

variable {N G : Nat}

/-- `RDT id` (42_registry.md R141): the four fields in one snapshot. -/
def execRdt (id : BitVec 8) (s : State N) : Result N :=
  accept [.ctl] s <|
  withSlot id s fun k =>
  answer (.telemetry s.tel[k]) s

/-- The demand that `WRC` stores: clamped to the full scale in force (42_registry.md R142). -/
def clampDemand (demand : Num32) (c : Codec G) : Num32 := F32.clamp demand (F32.neg c.iFs) c.iFs

/-- `WRC id, demand` (42_registry.md R142). -/
def execWrc (id : BitVec 8) (demand : Num32) (s : State N) : Result N :=
  accept [.ctl] s <|
  withSlot id s fun k =>
  require s.codec.valid .codecUninit s <|
  require (!anyNaN [demand]) .nanOperand s <|
  answer (.stored (clampDemand demand s.codec)) (writeCmd k ⟨clampDemand demand s.codec⟩ s)

/-- `RDC id` (42_registry.md R143). -/
def execRdc (id : BitVec 8) (s : State N) : Result N :=
  accept [.ctl] s <|
  withSlot id s fun k =>
  answer (.demand s.cmd[k].demand) s

/-- `WRP id, ...` (42_registry.md R144, R145): every field in one step; `PST[id]` is not touched. -/
def execWrp (id : BitVec 8) (sepEn dmeas : Bool) (kp ki kd integralLimit outputLimit sepThreshold : Num32)
    (s : State N) : Result N :=
  accept [.cfg] s <|
  withSlot id s fun k =>
  require (!anyNaN [kp, ki, kd, integralLimit, outputLimit, sepThreshold]) .nanOperand s <|
  answer .none <| writePcf k
    { valid := true, kp := kp, ki := ki, kd := kd, integralLimit := sat0 integralLimit,
      outputLimit := sat0 outputLimit, sepThreshold := sepThreshold, sepEn := sepEn, dmeas := dmeas } s

/-- `WRK ...` (42_registry.md R146, R147): the NaN check, the legality check, then the whole record. -/
def execWrk (rawFs : BitVec 15) (baseRxId : BitVec 11) (cmdFrameId : List (BitVec 11))
    (iFs angleNum angleDen : Num32) (s : State N) : Result N :=
  accept [.cfg] s <|
  require (!anyNaN [iFs, angleNum, angleDen]) .nanOperand s <|
  require (configLegal iFs rawFs angleNum angleDen) .badConfig s <|
  answer .none <| writeCodec
    { valid := true, baseRxId := baseRxId, cmdFrameId := frameIds cmdFrameId, iFs := iFs, rawFs := rawFs,
      angleNum := angleNum, angleDen := angleDen } s

/-- `RDF` (42_registry.md R148): legal on every port, and the one operation that executes on a halted block
(30_encoding.md R81 step 1). -/
def execRdf (s : State N) : Result N := answer (.faultRecord s.fault) s

end Sys2Proof.Machine
end

