-- ==== Sys2Proof/Machine/Dispatch.lean ====
section
/-! DEFINITION. The dispatch: one arm per constructor of `Instr`. -/

namespace Sys2Proof.Machine

open Sys2Proof

def exec (i : Instr) (s : State) : Host.Outcome State Fault Refusal :=
  match i with
  | .rxf fid p => Sys2Proof.Machine.execRxf fid p s
  | .dec p => Sys2Proof.Machine.execDec p s
  | .enc id demand => Sys2Proof.Machine.execEnc id demand s
  | .pack slot f high low => Sys2Proof.Machine.execPack slot f high low s
  | .pid id reference feedback dt => Sys2Proof.Machine.execPid id reference feedback dt s
  | .prst id => Sys2Proof.Machine.execPrst id s
  | .rdt id => Sys2Proof.Machine.execRdt id s
  | .wrc id demand => Sys2Proof.Machine.execWrc id demand s
  | .rdc id => Sys2Proof.Machine.execRdc id s
  | .wrp id sepEn dmeas kp ki kd integralLimit outputLimit sepThreshold => Sys2Proof.Machine.execWrp id sepEn dmeas kp ki kd integralLimit outputLimit sepThreshold s
  | .wrk rawFs baseRxId cmdFrameId iFs angleNum angleDen => Sys2Proof.Machine.execWrk rawFs baseRxId cmdFrameId iFs angleNum angleDen s
  | .rdf => Sys2Proof.Machine.execRdf s

end Sys2Proof.Machine
end

