-- ==== Sys2Proof/Machine/Fetch.lean ====
section
/-! DEFINITION. How an event reaches the block: taking the next one of the total order, latching a request, what
happens to a command that is no instruction, and serving one event. -/

namespace Sys2Proof.Machine

variable {N : Nat}

/-- The next event of the total order (20_memory.md R59), and the state without it. -/
def nextEvent (s : State N) : Option (Event × State N) :=
  match s.inbox with
  | [] => none
  | e :: rest => some (e, { s with inbox := rest })

/-- A request is on the block: its port and its command word are latched for the operation's response and for fault
entry (30_encoding.md R73, 60_exceptions.md R168). -/
def latch (q : Port) (c : Command) (s : State N) : State N := { s with port := q, word := c.word }

/-- A command that is no instruction. A word that names no row answers HALTED on a halted block, whatever it is, and
raises ILLEGAL_OP otherwise (30_encoding.md R81 steps 1 and 2, R82); an operand block that cannot be presented is
refused (log entry 4). -/
def rejected (e : DecodeError) (s : State N) : Result N :=
  match e with
  | .noRow => if s.fault.halt then .next (respond .halted s) else .next (raiseFault .illegalOp s)
  | .operandBlock => .refused .operandBlock

/-- The port on which a word's operation is legal (10_state.md R40); CTL where any is, or where the word names no
row. Only `State.withFetchWord` asks. -/
def homePort (w : Word) : Port :=
  match rowOf w with
  | some .rxf => .rx
  | some .prst => .cfg
  | some .wrp => .cfg
  | some .wrk => .cfg
  | _ => .ctl

/-- The request of a command word with an operand block of zeros, on the word's own port (log entry 5). -/
def tableRequest (nbits w : Nat) : Event :=
  .request (homePort (BitVec.ofNat 32 (w % 2 ^ nbits))) (zeroCommand Config.G (BitVec.ofNat 32 (w % 2 ^ nbits)))

/-- The block serves the next event of the total order (20_memory.md R58, R59), an instruction by its meaning `run`. With
no event waiting the block waits and nothing changes (60_exceptions.md R178). -/
def serve (run : Instr → State N → Result N) (s : State N) : Result N :=
  match nextEvent s with
  | none => .next s
  | some (.reset, s) => .next (resetBlock s)
  | some (.request q c, s) =>
    match decode (Config.groups N) c with
    | .ok i => run i (latch q c s)
    | .error e => rejected e (latch q c s)

end Sys2Proof.Machine
end

