-- ==== Sys2Proof/Machine/Step.lean ====
section
/-! DEFINITION. One step of this hardware: the block serves the next event (20_memory.md R58, R59), or waits. -/

namespace Sys2Proof.Machine

/-- One step. -/
def step (s : State) : Host.Outcome State Fault Refusal := serve exec s

/-- The state with the request of the word `w` (an operand block of zeros) as the very next event. -/
def State.withFetchWord (s : State) (nbits w : Nat) : State :=
  { s with inbox := tableRequest nbits w :: s.inbox }

end Sys2Proof.Machine
end

