-- ==== Sys2Proof/Machine/Build.lean ====
section
/-! DEFINITION. The machine with the number of actuators `N` as its argument (00_scope.md R8: "The model takes `N` as an
argument with `1 <= N <= 255`"): the dispatch and the step of every build, over the same meanings. `exec`, `step` and
`core` are the build of `Config.N` actuators (log entry 9). -/

namespace Sys2Proof.Machine

/-- What an operation does in a build with `N` actuators. -/
def execOf {N : Nat} (i : Instr) (s : State N) : Result N :=
  match i with
  | .rxf fid p => execRxf fid p s
  | .dec p => execDec p s
  | .enc id demand => execEnc id demand s
  | .pack slot f high low => execPack slot f high low s
  | .pid id reference feedback dt => execPid id reference feedback dt s
  | .prst id => execPrst id s
  | .rdt id => execRdt id s
  | .wrc id demand => execWrc id demand s
  | .rdc id => execRdc id s
  | .wrp id sepEn dmeas kp ki kd integralLimit outputLimit sepThreshold =>
    execWrp id sepEn dmeas kp ki kd integralLimit outputLimit sepThreshold s
  | .wrk rawFs baseRxId cmdFrameId iFs angleNum angleDen =>
    execWrk rawFs baseRxId cmdFrameId iFs angleNum angleDen s
  | .rdf => execRdf s

/-- One step of a build with `N` actuators. -/
def stepOf {N : Nat} (s : State N) : Result N := serve execOf s

/-- The machine of a build with `N` actuators; `Sys2Proof.core` is that of `Config.N`. -/
def coreOf (N : Nat) : Host.Core :=
  { State := State N, Fault := Fault, Refusal := Refusal, step := stepOf, reset := State.resetOf N }

end Sys2Proof.Machine
end

