-- ==== Sys2Proof/Machine/Pseudo.lean ====
section
/-! DEFINITION. The pseudo-operations TICK, ENCP and PIDF (30_encoding.md R90 to R92). They have no command word: each is
a sequence of operations that an agent on port CTL issues, every one after the response to the one before, so an
expansion is a function from the responses received so far to the next operation. Operations of other ports may fall
between (20_memory.md R59). -/

namespace Sys2Proof.Machine

/-- The telemetry field used as feedback, `sel` (30_encoding.md R90). -/
inductive Selector where
  | angle
  | velocity
  | current
  | temperature
deriving DecidableEq, Repr

/-- `fb = sel(t)` (30_encoding.md R90): the integer fields through `ofInt`. -/
def feedbackOf (sel : Selector) (t : Tel) : Num32 :=
  match sel with
  | .angle => t.angle
  | .velocity => F32.ofInt t.velocity.toInt
  | .current => t.current
  | .temperature => F32.ofInt t.temperature.toNat

/-- `TICK id, reference, sel, dt` (30_encoding.md R90): the next of its four operations, given the responses so far. A
response that is not OK brings no value; the block is then halted and "the later ones answer HALTED" whatever operand
the caller puts there, which is the argument `other`. -/
def tickNext (id : BitVec 8) (reference : Num32) (sel : Selector) (dt other : Num32) :
    List Response → Option Instr
  | [] => some (.rdt id)
  | [t] => some (.pid id reference (match t with | .ok (.telemetry t) => feedbackOf sel t | _ => other) dt)
  | [_, u] => some (.wrc id (match u with | .ok (.output u) => u | _ => other))
  | [_, _, c] => some (.enc id (match c with | .ok (.stored c) => c | _ => other))
  | _ => none

/-- `ENCP id, demand, [f0 .. f7]` (30_encoding.md R91): the next of its two operations, given the responses so far.
Without an OK response to the `ENC` there is nothing to place. -/
def encpNext (id : BitVec 8) (demand : Num32) (f : Payload) : List Response → Option Instr
  | [] => some (.enc id demand)
  | [.ok (.encoded _ offset high low)] => some (.pack (BitVec.ofNat 2 (offset.toNat / 2)) f high low)
  | _ => none

/-- What `ENCP` yields, `(frameId, f')` (30_encoding.md R91). -/
def encpYield : List Response → Option (BitVec 32 × Payload)
  | [.ok (.encoded frameId _ _ _), .ok (.frame f)] => some (frameId, f)
  | _ => none

/-- `PIDF id, reference, feedback` (30_encoding.md R92): `PID` with `DT_NOM`, which "the model takes as an argument"
(00_scope.md R11); its reference value is `Config.dtNom`. -/
def pidf (dtNom : Num32) (id : BitVec 8) (reference feedback : Num32) : Instr := .pid id reference feedback dtNom

/-- Serves one event at once, ahead of those that wait. -/
def serveNow (e : Event) (s : State) : Result := step { s with inbox := e :: s.inbox }

/-- Serves the events in order; none if one of them is refused. -/
def serveAll : List Event → State → Option State
  | [], s => some s
  | e :: es, s =>
    match serveNow e s with
    | .next s => serveAll es s
    | .fault _ => none
    | .refused _ => none

/-- An agent on port `q` issues an expansion: before each of its operations the events of one gap are served (other
agents', 20_memory.md R59), then the operation, whose response it reads from its port. Gives the state after the last
gap's operation and the responses, the oldest first. -/
def runScript (q : Port) (next : List Response → Option Instr) :
    (gaps : List (List Event)) → List Response → State → Option (State × List Response)
  | [], rs, s => some (s, rs)
  | gap :: gaps, rs, s =>
    match next rs, serveAll gap s with
    | some i, some s =>
      match serveNow (.request q (encode i)) s with
      | .next s =>
        match responseAt q s.rsp with
        | some r => runScript q next gaps (rs ++ [r]) s
        | none => none
      | .fault _ => none
      | .refused _ => none
    | none, some s => some (s, rs)
    | _, none => none

end Sys2Proof.Machine
end

