-- ==== Sys2Proof/Safety.lean ====
section
/-! DEFINITION. The terms claims are stated in: what a legal state is, which records two states share, who may do what
(10_state.md R40), and the fault table (60_exceptions.md R165) read as conditions on a state and an operation. -/

namespace Sys2Proof.Machine

variable {N : Nat}

/-- A good state of a run is not halted (60_exceptions.md R169). -/
def Safe (s : State N) : Prop := s.fault.halt = false

/-- The two states agree in every record of the block (10_state.md R20). -/
def SameRecords (s t : State N) : Prop :=
  t.tel = s.tel ∧ t.cmd = s.cmd ∧ t.pst = s.pst ∧ t.pcf = s.pcf ∧ t.codec = s.codec ∧ t.fault = s.fault

/-- The two states agree in the four records of slot `k`. -/
def SameSlot (k : Fin N) (s t : State N) : Prop :=
  t.tel[k] = s.tel[k] ∧ t.cmd[k] = s.cmd[k] ∧ t.pst[k] = s.pst[k] ∧ t.pcf[k] = s.pcf[k]

/-- A telemetry record without NaN (40_codec.md R111). -/
def LegalTel (t : Tel) : Prop := F32.isNaN t.angle = false ∧ F32.isNaN t.current = false

/-- A controller record without NaN, all zero while Idle (41_pid.md R121, R128). -/
def LegalPst (p : Pst) : Prop :=
  F32.isNaN p.integral = false ∧ F32.isNaN p.lastError = false ∧ F32.isNaN p.lastFeedback = false ∧
    (p.run = .idle → p = Pst.reset)

/-- The legal values of a parameter record (10_state.md R31); all zero while never written (R39). -/
def LegalPcf (c : Pcf) : Prop :=
  F32.isNaN c.kp = false ∧ F32.isNaN c.ki = false ∧ F32.isNaN c.kd = false ∧ F32.isNaN c.sepThreshold = false ∧
    F32.le F32.zero c.integralLimit = true ∧ F32.le F32.zero c.outputLimit = true ∧
    (c.valid = false → c = Pcf.reset)

/-- The legal values of the codec record (10_state.md R33); all zero while never written (R39). -/
def LegalCodec {G : Nat} (c : Codec G) : Prop :=
  if c.valid then configLegal c.iFs c.rawFs c.angleNum c.angleDen = true else c = Codec.reset

/-- The legal values of the fault record (10_state.md R34, 60_exceptions.md R165): all zero while not halted; one of
the eight causes and one of the three ports while halted. -/
def LegalFault (f : FaultRecord) : Prop :=
  if f.halt then (∃ c, f.cause = causeCode c) ∧ (∃ q, f.port = portCode q) else f = FaultRecord.reset

/-- The legal states: every record holds legal values, and a controller whose parameters were never written is in its
constructed state (70_reset_and_hazards.md R194). -/
structure Legal (s : State N) : Prop where
  tel : ∀ k : Fin N, LegalTel s.tel[k]
  cmd : ∀ k : Fin N, F32.isNaN s.cmd[k].demand = false
  pst : ∀ k : Fin N, LegalPst s.pst[k]
  pcf : ∀ k : Fin N, LegalPcf s.pcf[k]
  codec : LegalCodec s.codec
  fault : LegalFault s.fault
  constructed : ∀ k : Fin N, s.pcf[k].valid = false → s.pst[k] = Pst.reset

/-- The ports on which an operation is legal (10_state.md R40). -/
def legalPorts : Row → List Port
  | .rxf => [.rx]
  | .dec => [.ctl]
  | .enc => [.ctl]
  | .pack => [.ctl]
  | .pid => [.ctl]
  | .rdt => [.ctl]
  | .wrc => [.ctl]
  | .rdc => [.ctl]
  | .prst => [.cfg]
  | .wrp => [.cfg]
  | .wrk => [.cfg]
  | .rdf => [.rx, .ctl, .cfg]

/-- The `id` field of an operation that takes one (30_encoding.md R80). -/
def idOf : Instr → Option (BitVec 8)
  | .enc id _ => some id
  | .pid id _ _ _ => some id
  | .prst id => some id
  | .rdt id => some id
  | .wrc id _ => some id
  | .rdc id => some id
  | .wrp id _ _ _ _ _ _ _ _ => some id
  | .rxf _ _ => none
  | .dec _ => none
  | .pack _ _ _ _ => none
  | .wrk _ _ _ _ _ _ => none
  | .rdf => none

/-- The slot an operation names: by its `id` field, or, for `RXF`, through the identifier mapping (20_memory.md R57). -/
def namedSlot (s : State N) : Instr → Option (Fin N)
  | .rxf fid _ => rxSlotOf fid s.codec.baseRxId
  | i => (idOf i).bind slotOf

/-- The `Num` operands of an operation (30_encoding.md R80). -/
def numOperands : Instr → List Num32
  | .enc _ demand => [demand]
  | .wrc _ demand => [demand]
  | .pid _ reference feedback dt => [reference, feedback, dt]
  | .wrp _ _ _ kp ki kd integralLimit outputLimit sepThreshold =>
    [kp, ki, kd, integralLimit, outputLimit, sepThreshold]
  | .wrk _ _ _ iFs angleNum angleDen => [iFs, angleNum, angleDen]
  | .rxf _ _ => []
  | .dec _ => []
  | .pack _ _ _ _ => []
  | .prst _ => []
  | .rdt _ => []
  | .rdc _ => []
  | .rdf => []

/-- The causes in the order of their codes (60_exceptions.md R165). -/
def causes : List Cause :=
  [.illegalOp, .badId, .codecUninit, .paramsUninit, .nanOperand, .dtNonpositive, .badConfig, .nanResult]

/-- The condition of a cause for an operation at hand (60_exceptions.md R165's table, one line a row). -/
def violates (s : State N) (i : Instr) : Cause → Bool
  | .illegalOp => !(legalPorts i.row).contains s.port
  | .badId => (idOf i).any fun id => id.toNat == 0 || decide (N < id.toNat)
  | .codecUninit => [Row.dec, .enc, .wrc].contains i.row && !s.codec.valid
  | .paramsUninit =>
    match i with
    | .pid id _ _ _ => (slotOf id).any fun k => !s.pcf[k].valid
    | _ => false
  | .nanOperand => anyNaN (numOperands i)
  | .dtNonpositive =>
    match i with
    | .pid _ _ _ dt => F32.le dt F32.zero
    | _ => false
  | .badConfig =>
    match i with
    | .wrk rawFs _ _ iFs angleNum angleDen => !configLegal iFs rawFs angleNum angleDen
    | _ => false
  | .nanResult =>
    match i with
    | .pid id reference feedback dt =>
      (slotOf id).any fun k => !pidNumeric (pidTick s.pcf[k] s.pst[k] reference feedback dt)
    | _ => false

/-- The causes each operation can raise, the complete list (60_exceptions.md R166). -/
def causesOf : Row → List Cause
  | .rxf => [.illegalOp]
  | .dec => [.illegalOp, .codecUninit]
  | .enc => [.illegalOp, .badId, .codecUninit, .nanOperand]
  | .pack => [.illegalOp]
  | .pid => [.illegalOp, .badId, .paramsUninit, .nanOperand, .dtNonpositive, .nanResult]
  | .prst => [.illegalOp, .badId]
  | .rdt => [.illegalOp, .badId]
  | .wrc => [.illegalOp, .badId, .codecUninit, .nanOperand]
  | .rdc => [.illegalOp, .badId]
  | .wrp => [.illegalOp, .badId, .nanOperand]
  | .wrk => [.illegalOp, .nanOperand, .badConfig]
  | .rdf => [.illegalOp]

/-- The reference configuration (00_scope.md R10) with the identifiers given: the source fixes none. -/
def referenceCodec {G : Nat} (baseRxId : BitVec 11) (cmdFrameId : Vector (BitVec 11) G) : Codec G where
  valid := true
  baseRxId := baseRxId
  cmdFrameId := cmdFrameId
  iFs := 0x40400000#32
  rawFs := 16384
  angleNum := Config.twoPi
  angleDen := 0x45FFF800#32

end Sys2Proof.Machine
end

