-- ==== Sys2Proof/Certificates/Slice0/Obligations.lean ====
section
/-! DEFINITION. The statements for the provers. A name of a state's updated copy, `{ s with … }`, states the whole frame:
every field not named is as it was. The slot of ActuatorId `id` is `k` with `id = k + 1`. -/

open Sys2Proof Sys2Proof.Machine
open Sys2Proof.Config (N G)

/-! ## Encoding -/

/-- Decoding what the encoder writes gives the operation back, for every build, every operation of it and every operand
(30_encoding.md R70 to R72, R80). -/
def Obligations.DecodeOfEncode : Prop :=
  ∀ (g : Nat) (i : Instr), i.wellFormed g = true → decode g (encode i) = .ok i

/-- In every build, what the decoder reads is an operation of it, and encoding that gives the command back: no bit of a
legal command is dropped (R71, R82). -/
def Obligations.EncodeOfDecode : Prop :=
  ∀ (g : Nat) (c : Command) (i : Instr), decode g c = .ok i → i.wellFormed g = true ∧ encode i = c

/-- At most one row of the table matches a word (R81 step 0). -/
def Obligations.RowsAreDisjoint : Prop :=
  ∀ (w : Word) (a b : Row), rowNamed w a = true → rowNamed w b = true → a = b

/-- 30_encoding.md R82: which words are illegal, what an illegal word, a wrong port and an `id` outside `1..N` raise, and
that every request that can be presented has an outcome. -/
def Obligations.IllegalEncodings : Prop :=
  (∀ w : Word, rowOf w = none ↔
    (w.extractLsb' 24 8 ∉ [0x01#8, 0x10#8, 0x11#8, 0x12#8, 0x20#8, 0x21#8, 0x30#8, 0x31#8, 0x32#8, 0x40#8, 0x41#8, 0x50#8]) ∨
    (w.extractLsb' 24 8 ∈ [0x01#8, 0x10#8, 0x12#8, 0x41#8, 0x50#8] ∧ w.extractLsb' 16 8 ≠ 0) ∨
    (w.extractLsb' 24 8 = 0x01#8 ∧ w.extractLsb' 11 5 ≠ 0) ∨
    (w.extractLsb' 24 8 ∈ [0x12#8, 0x40#8] ∧ w.extractLsb' 2 14 ≠ 0) ∨
    (w.extractLsb' 24 8 = 0x41#8 ∧ w.extractLsb' 15 1 ≠ 0) ∨
    (w.extractLsb' 24 8 ∈ [0x10#8, 0x11#8, 0x20#8, 0x21#8, 0x30#8, 0x31#8, 0x32#8, 0x50#8] ∧ w.extractLsb' 0 16 ≠ 0)) ∧
  (∀ (s : State) (q : Port) (c : Command) (rest : List Event),
    s.inbox = .request q c :: rest → s.fault.halt = false → rowOf c.word = none →
    step s = .next { s with
      inbox := rest, port := q, word := c.word,
      fault := ⟨true, 1, c.word, portCode q⟩, rsp := putResponse q .fault s.rsp }) ∧
  (∀ (s : State) (i : Instr), s.fault.halt = false → s.port ∉ legalPorts i.row →
    exec i s = .next { s with
      fault := ⟨true, 1, s.word, portCode s.port⟩, rsp := putResponse s.port .fault s.rsp }) ∧
  (∀ (s : State) (i : Instr) (id : BitVec 8), s.fault.halt = false → s.port ∈ legalPorts i.row →
    idOf i = some id → (id.toNat = 0 ∨ N < id.toNat) →
    exec i s = .next { s with
      fault := ⟨true, 2, s.word, portCode s.port⟩, rsp := putResponse s.port .fault s.rsp }) ∧
  (∀ (s : State) (q : Port) (c : Command) (rest : List Event),
    s.inbox = .request q c :: rest → presentable G c = true → ∃ t, step s = .next t)

/-- Words written out from 30_encoding.md R85 and 95_test_vectors.md decode to the operations they stand for. -/
def Obligations.DecodedWordsOfTheTable : Prop :=
  decodeTableWord 32 0x01000201 = some (.rxf 0x201 (Vector.replicate 8 0)) ∧
  decodeTableWord 32 0x10000000 = some (.dec (Vector.replicate 8 0)) ∧
  decodeTableWord 32 0x11020000 = some (.enc 2 0) ∧
  decodeTableWord 32 0x12000001 = some (.pack 1 (Vector.replicate 8 0) 0 0) ∧
  decodeTableWord 32 0x20010000 = some (.pid 1 0 0 0) ∧
  decodeTableWord 32 0x21010000 = some (.prst 1) ∧
  decodeTableWord 32 0x30010000 = some (.rdt 1) ∧
  decodeTableWord 32 0x31010000 = some (.wrc 1 0) ∧
  decodeTableWord 32 0x32010000 = some (.rdc 1) ∧
  decodeTableWord 32 0x40010001 = some (.wrp 1 true false 0 0 0 0 0 0) ∧
  decodeTableWord 32 0x40010002 = some (.wrp 1 false true 0 0 0 0 0 0) ∧
  decodeTableWord 32 0x41004000 = some (.wrk 16384 0 [0, 0] 0 0 0) ∧
  decodeTableWord 32 0x50000000 = some .rdf ∧
  decodeTableWord 32 0x01000800 = none ∧
  decodeTableWord 32 0x00000000 = none

/-! ## The step, reset and the total order -/

/-- When the command at the head of the order decodes to an operation, the step is that operation at the state with the
request taken and its port and word latched. -/
def Obligations.StepRunsTheDecodedOperation : Prop :=
  ∀ (s : State) (q : Port) (c : Command) (rest : List Event) (i : Instr),
    s.inbox = .request q c :: rest → decode G c = .ok i →
    step s = exec i { s with inbox := rest, port := q, word := c.word }

/-- 10_state.md R39 and 70_reset_and_hazards.md R191: the state after reset, from any state, halted or not. The last
clause, `t.inbox = rest`, is the model's choice (DESIGN CHOICE, log entry 10): the rules are silent on the operations that
agents have still to issue. -/
def Obligations.ResetZeroesEveryRecord : Prop :=
  (∀ k : Fin N, State.reset.tel[k] = ⟨0, 0, 0, 0⟩ ∧ State.reset.cmd[k] = ⟨0⟩ ∧
    State.reset.pst[k] = ⟨0, 0, 0, .idle⟩ ∧ State.reset.pcf[k] = ⟨false, 0, 0, 0, 0, 0, 0, false, false⟩) ∧
  State.reset.codec = ⟨false, 0, Vector.replicate G 0, 0, 0, 0, 0⟩ ∧
  State.reset.fault = ⟨false, 0, 0, 0⟩ ∧ faultO State.reset = false ∧
  ∀ (s : State) (rest : List Event), s.inbox = .reset :: rest →
    ∃ t, step s = .next t ∧ SameRecords State.reset t ∧ t.inbox = rest

/-- With no operation waiting the block waits (70_reset_and_hazards.md R192); that this is a step that changes nothing
is the model's choice (log entry 1). -/
def Obligations.IdleBlockWaits : Prop :=
  ∀ s : State, s.inbox = [] → step s = .next s

/-- Every request that can be presented is answered on its own port by one step, which takes it from the order and
changes no other port's response (30_encoding.md R77, 20_memory.md R61). -/
def Obligations.EveryRequestIsAnswered : Prop :=
  ∀ (s : State) (q : Port) (c : Command) (rest : List Event),
    s.inbox = .request q c :: rest → presentable G c = true →
    ∃ t r, step s = .next t ∧ t.inbox = rest ∧ responseAt q t.rsp = some r ∧
      ∀ q', q' ≠ q → responseAt q' t.rsp = responseAt q' s.rsp

/-- A block with `n` events to come, all presentable, has served them all after `n` steps: no operation waits for another
port, a frame or a fresh value (20_memory.md R61). -/
def Obligations.WaitingOperationsAreAllServed : Prop :=
  ∀ s : State, (∀ q c, Event.request q c ∈ s.inbox → presentable G c = true) →
    ∃ t, Host.Core.run Sys2Proof.core s.inbox.length s = .next t ∧ State.inbox t = []

/-! ## Faults and the halt -/

/-- 60_exceptions.md R168: fault entry writes `FAULT` and nothing else, is entered only while not halted, and the record
of the first fault stays until reset. -/
def Obligations.FaultEntryIsPrecise : Prop :=
  (∀ (s t : State) (q : Port) (c : Command) (rest : List Event),
    s.inbox = .request q c :: rest → step s = .next t → responseAt q t.rsp = some .fault →
    s.fault.halt = false ∧ ∃ cause : Cause, t = { s with
      inbox := rest, port := q, word := c.word,
      fault := ⟨true, causeCode cause, c.word, portCode q⟩, rsp := putResponse q .fault s.rsp }) ∧
  (∀ (s t : State) (q : Port) (c : Command) (rest : List Event),
    s.inbox = .request q c :: rest → step s = .next t → t.fault ≠ s.fault →
    responseAt q t.rsp = some .fault) ∧
  (∀ (s t : State) (q : Port) (c : Command) (rest : List Event),
    s.inbox = .request q c :: rest → step s = .next t → s.fault.halt = true → t.fault = s.fault)

/-- 60_exceptions.md R169: while halted every operation but `RDF`, on every port, and every word that is no operation,
answers HALTED and changes nothing; and no later step but reset clears the halt. -/
def Obligations.HaltedBlockAnswersHalted : Prop :=
  (∀ (s : State) (q : Port) (c : Command) (rest : List Event),
    s.inbox = .request q c :: rest → s.fault.halt = true → presentable G c = true → rowOf c.word ≠ some .rdf →
    step s = .next { s with
      inbox := rest, port := q, word := c.word, rsp := putResponse q .halted s.rsp }) ∧
  (∀ s t : State, s.fault.halt = true → (∀ rest, s.inbox ≠ .reset :: rest) → step s = .next t →
    SameRecords s t)

/-- Along a run without reset a halted block keeps every record, however many operations arrive
(60_exceptions.md R169, R170). -/
def Obligations.HaltedRunKeepsEveryRecord : Prop :=
  ∀ (n : Nat) (s t : State), s.fault.halt = true → Event.reset ∉ s.inbox →
    Host.Core.run Sys2Proof.core n s = .next t → SameRecords s t

/-- 60_exceptions.md R165, R167 and 30_encoding.md R81: an operation raises the cause of the lowest code whose condition
in the table of causes holds; and where none holds it raises none. -/
def Obligations.LowestCauseIsRaised : Prop :=
  ∀ (s : State) (i : Instr), s.fault.halt = false →
    match causes.find? (violates s i) with
    | some cause => exec i s = .next { s with
        fault := ⟨true, causeCode cause, s.word, portCode s.port⟩, rsp := putResponse s.port .fault s.rsp }
    | none => ∃ t, exec i s = .next t ∧ t.fault = s.fault ∧
        (responseAt s.port t.rsp = some .ignored ∨ ∃ r, responseAt s.port t.rsp = some (.ok r))

/-- 60_exceptions.md R166: no operation raises a cause outside its list; ILLEGAL_OP for an operation means the wrong port;
on its own port, with `id` in range, the needed records valid, no NaN operand and `dt > 0`, only `WRK` (BAD_CONFIG) and
`PID` (NAN_RESULT) can fault. -/
def Obligations.CausesEachOperationCanRaise : Prop :=
  ∀ (s t : State) (i : Instr), s.fault.halt = false → exec i s = .next t → t.fault.halt = true →
    (∃ cause ∈ causesOf i.row, t.fault.cause = causeCode cause) ∧
    (t.fault.cause = 1 → s.port ∉ legalPorts i.row) ∧
    (s.port ∈ legalPorts i.row →
      (∀ cause ∈ [Cause.badId, .codecUninit, .paramsUninit, .nanOperand, .dtNonpositive],
        violates s i cause = false) →
      (i.row = .wrk ∧ t.fault.cause = 7) ∨ (i.row = .pid ∧ t.fault.cause = 8))

/-! ## Who writes what -/

/-- 10_state.md R41: what the operations of each port leave alone, who changes `PST[id]`, and that an operation writes and
reads the per-actuator records of no slot but the one it names (`namedSlot`: by its `id` field, or `RXF` through the
identifier mapping). -/
def Obligations.PortsKeepToTheirRecords : Prop :=
  ∀ (s t : State) (i : Instr), exec i s = .next t →
    (s.port = .rx → t.cmd = s.cmd ∧ t.pst = s.pst ∧ t.pcf = s.pcf ∧ t.codec = s.codec ∧
      ∀ j : Fin N, namedSlot s i ≠ some j → t.tel[j] = s.tel[j]) ∧
    (s.port = .ctl → t.tel = s.tel ∧ t.pcf = s.pcf ∧ t.codec = s.codec) ∧
    (s.port = .cfg → t.tel = s.tel ∧ t.cmd = s.cmd) ∧
    (∀ k : Fin N, t.pst[k] ≠ s.pst[k] →
      ∃ id : BitVec 8, id.toNat = k.val + 1 ∧ (i = .prst id ∨ ∃ r f dt, i = .pid id r f dt)) ∧
    (∀ j : Fin N, namedSlot s i ≠ some j → SameSlot j s t) ∧
    (∀ s' : State, (∀ k : Fin N, namedSlot s i = some k → SameSlot k s s') →
      s'.codec = s.codec → s'.fault = s.fault → s'.port = s.port → s'.word = s.word →
      ∃ t', exec i s' = .next t' ∧ (∀ k : Fin N, namedSlot s i = some k → SameSlot k t t') ∧
        t'.codec = t.codec ∧ t'.fault = t.fault ∧ responseAt s.port t'.rsp = responseAt s.port t.rsp)

/-- 20_memory.md R56: the reads and the pure functions change no record and answer the same when repeated; the writes are
idempotent; `PID` is not. -/
def Obligations.IdempotentOperations : Prop :=
  (∀ (s t : State) (i : Instr), i.row ∈ [Row.rdt, .rdc, .rdf, .dec, .enc, .pack] →
    exec i s = .next t → t.fault = s.fault →
    SameRecords s t ∧ exec i t = .next t) ∧
  (∀ (s t : State) (i : Instr), i.row ∈ [Row.wrc, .wrp, .wrk, .prst, .rxf] → exec i s = .next t →
    ∃ u, exec i t = .next u ∧ SameRecords t u ∧ (t.fault = s.fault → u = t)) ∧
  (∃ (s t u : State) (i : Instr), i.row = .pid ∧ exec i s = .next t ∧ exec i t = .next u ∧ t.pst ≠ u.pst ∧
    u.fault = s.fault)

/-- 20_memory.md R60: two operations that name different ActuatorIds (by their `id` field, or `RXF` through the
identifier mapping) and none of which faults commute: either order leaves the same records, and each operation gets the
same response. -/
def Obligations.DifferentActuatorsCommute : Prop :=
  ∀ (s t u t' u' : State) (q q' : Port) (i i' : Instr) (k k' : Fin N),
    namedSlot s i = some k → namedSlot s i' = some k' → k ≠ k' →
    exec i (latch q (encode i) s) = .next t → exec i' (latch q' (encode i') t) = .next u →
    exec i' (latch q' (encode i') s) = .next t' → exec i (latch q (encode i) t') = .next u' →
    u.fault.halt = false → u'.fault.halt = false →
    SameRecords u u' ∧ responseAt q u'.rsp = responseAt q t.rsp ∧ responseAt q' u.rsp = responseAt q' t'.rsp

/-- 20_memory.md R58: after any step the telemetry of a slot is what it was, or the reset record, or the whole decoding of
the one payload of that step's `RXF` under the one codec record in force. -/
def Obligations.TelemetryComesFromOneFrame : Prop :=
  ∀ (s t : State) (k : Fin N), step s = .next t →
    t.tel[k] = s.tel[k] ∨
    (t.tel[k] = ⟨0, 0, 0, 0⟩ ∧ ∃ rest, s.inbox = .reset :: rest) ∨
    (∃ fid p rest c, s.inbox = .request .rx c :: rest ∧ decode G c = .ok (.rxf fid p) ∧
      fid.toNat = s.codec.baseRxId.toNat + k.val + 1 ∧ s.codec.valid = true ∧ t.tel[k] = decodeTel p s.codec)

/-! ## Invariants -/

/-- The state after reset is legal, in this hardware and in every build. -/
def Obligations.ResetStateIsLegal : Prop := Legal State.reset ∧ ∀ n : Nat, Legal (State.resetOf n)

/-- Every step from a legal state leads to a legal state: no record ever holds a NaN, the codec and the parameters keep
their legal values, an Idle controller is all zero, a controller never configured is in its constructed state, and the
fault record holds zero or a cause (10_state.md R31, R33, R34; 40_codec.md R111; 41_pid.md R121, R128;
70_reset_and_hazards.md R194). -/
def Obligations.EveryStepKeepsLegality : Prop :=
  ∀ s t : State, Legal s → step s = .next t → Legal t

/-! ## The frame codec -/

/-- `RXF` with an identifier in the window stores the four fields of its frame together and answers OK
(40_codec.md R101, R107). -/
def Obligations.RxfStoresTheFrame : Prop :=
  ∀ (s : State) (fid : BitVec 11) (p : Payload) (k : Fin N),
    s.fault.halt = false → s.port = .rx → s.codec.valid = true →
    fid.toNat = s.codec.baseRxId.toNat + (k.val + 1) →
    exec (.rxf fid p) s = .next { s with
      tel := s.tel.set k
        { angle := F32.div (F32.mul (F32.ofInt ((p[0] ++ p[1] : BitVec 16).toNat : Int)) s.codec.angleNum) s.codec.angleDen,
          velocity := p[2] ++ p[3],
          current := F32.div (F32.mul (F32.ofInt (p[4] ++ p[5] : BitVec 16).toInt) s.codec.iFs)
            (F32.ofInt (s.codec.rawFs.toNat : Int)),
          temperature := p[6] },
      rsp := putResponse .rx (.ok .none) s.rsp }

/-- 60_exceptions.md R162: an `RXF` with any payload whose identifier is outside the window, or while the codec is not
configured, changes nothing and answers IGNORED. -/
def Obligations.RxfIgnoresUnknownIdentifiers : Prop :=
  ∀ (s : State) (fid : BitVec 11) (p : Payload),
    s.fault.halt = false → s.port = .rx →
    (s.codec.valid = false ∨ (fid.toNat : Int) < s.codec.baseRxId.toNat + 1 ∨
      (s.codec.baseRxId.toNat : Int) + N < fid.toNat) →
    exec (.rxf fid p) s = .next { s with rsp := putResponse .rx .ignored s.rsp }

/-- 20_memory.md R65: the identifier mapping is a bijection between the window and `1..N`, and an ActuatorId is
determined by its group and slot. -/
def Obligations.AddressMappingsAreInjective : Prop :=
  (∀ (base f f' : BitVec 11) (k : Fin N), rxSlotOf f base = some k → rxSlotOf f' base = some k → f = f') ∧
  (∀ (base : BitVec 11) (k : Fin N), base.toNat + k.val + 1 < 2048 →
    rxSlotOf (BitVec.ofNat 11 (base.toNat + k.val + 1)) base = some k) ∧
  (∀ j k : Fin N, groupOf j = groupOf k → frameSlot j = frameSlot k → j = k)

/-- `DEC` answers the four decoded fields and writes no record (40_codec.md R101, R102). -/
def Obligations.DecAnswersTheFields : Prop :=
  ∀ (s : State) (p : Payload), s.fault.halt = false → s.port = .ctl → s.codec.valid = true →
    exec (.dec p) s = .next { s with
      rsp := putResponse .ctl (.ok (.telemetry
        { angle := F32.div (F32.mul (F32.ofInt ((p[0] ++ p[1] : BitVec 16).toNat : Int)) s.codec.angleNum) s.codec.angleDen,
          velocity := p[2] ++ p[3],
          current := F32.div (F32.mul (F32.ofInt (p[4] ++ p[5] : BitVec 16).toInt) s.codec.iFs)
            (F32.ofInt (s.codec.rawFs.toNat : Int)),
          temperature := p[6] })) s.rsp }

/-- 40_codec.md R111: under a legal codec record every payload decodes to a record without NaN, and `RXF` and `DEC` raise
no numeric fault. -/
def Obligations.DecodeIsTotal : Prop :=
  (∀ (c : Codec G) (p : Payload), c.valid = true → LegalCodec c →
    F32.isNaN (decodeTel p c).angle = false ∧ F32.isNaN (decodeTel p c).current = false) ∧
  (∀ (s : State) (p : Payload) (fid : BitVec 11), s.fault.halt = false → s.codec.valid = true →
    (s.port = .ctl → ∃ t, exec (.dec p) s = .next t ∧ t.fault = s.fault) ∧
    (s.port = .rx → ∃ t, exec (.rxf fid p) s = .next t ∧ t.fault = s.fault))

/-- `ENC` answers the frame identifier of the actuator's group, the offset of its slot and the two bytes of the clamped,
scaled and rounded demand, high byte first, and writes no record (40_codec.md R103 to R105). -/
def Obligations.EncAnswersTheSlot : Prop :=
  ∀ (s : State) (id : BitVec 8) (demand : Num32) (k : Fin N),
    s.fault.halt = false → s.port = .ctl → id.toNat = k.val + 1 → s.codec.valid = true →
    F32.isNaN demand = false →
    let d := F32.clamp demand (F32.neg s.codec.iFs) s.codec.iFs
    let x := F32.div (F32.mul d (F32.ofInt (s.codec.rawFs.toNat : Int))) s.codec.iFs
    let w : BitVec 16 := BitVec.ofInt 16 (F32.toS16 x)
    ∃ high low : Byte, high ++ low = w ∧
      exec (.enc id demand) s = .next { s with
        rsp := putResponse .ctl (.ok (.encoded
          ((s.codec.cmdFrameId.toList.getD (k.val / 4) 0).zeroExtend 32)
          (BitVec.ofNat 3 (2 * (k.val % 4))) high low)) s.rsp }

/-- 40_codec.md R110: saturation and placement. -/
def Obligations.EncodeSaturatesAndPlaces : Prop :=
  (∀ c : Codec G, c.iFs = 0x40400000#32 → 1 ≤ c.rawFs.toNat →
    encodeRaw 0x41200000#32 c = c.rawFs.toNat ∧ encodeRaw 0x40400000#32 c = c.rawFs.toNat ∧
    encodeRaw 0xC1200000#32 c = -(c.rawFs.toNat : Int) ∧ encodeRaw 0xC0400000#32 c = -(c.rawFs.toNat : Int)) ∧
  (∀ (base : BitVec 11) (ids : Vector (BitVec 11) G),
    u16 (encodeRaw 0x41200000#32 (referenceCodec base ids)) = 0x40#8 ++ 0x00#8 ∧
    u16 (encodeRaw 0xC1200000#32 (referenceCodec base ids)) = 0xC0#8 ++ 0x00#8) ∧
  ([0, 1, 2, 3, 4].map (fun k : Fin N => frameOffset k) = [0, 2, 4, 6, 0])

/-- 40_codec.md R109: in the reference configuration, for every demand in [-3, 3], decoding the bytes that `ENC` gives is
exactly 3/16384 times the raw command and recovers the demand within 3/16384, one step. Values are in units of 2^-149,
so 3/16384 is `3 * 2^135`. -/
def Obligations.RoundTripWithinOneStep : Prop :=
  ∀ (s t : State) (id : BitVec 8) (d : Num32) (base : BitVec 11) (ids : Vector (BitVec 11) G)
    (frameId : BitVec 32) (offset : BitVec 3) (high low : Byte) (p : Payload),
    s.codec = referenceCodec base ids → F32.isNaN d = false →
    F32.le 0xC0400000#32 d = true → F32.le d 0x40400000#32 = true →
    s.port = .ctl → exec (.enc id d) s = .next t →
    responseAt .ctl t.rsp = some (.ok (.encoded frameId offset high low)) →
    p[4] = high → p[5] = low →
    F32.isFinite (decodeTel p s.codec).current = true ∧
    F32.value (decodeTel p s.codec).current = 3 * 2 ^ 135 * encodeRaw d s.codec ∧
    |F32.value (decodeTel p s.codec).current - F32.value d| ≤ 3 * 2 ^ 135

/-- 40_codec.md R106: the word of `PACK`; it writes exactly the two bytes of its slot, even while the codec is not
configured, and no record, and faults on a wrong port only; a later `PACK` of the same slot wins; `PACK`s of different
slots commute; and the rule's example. -/
def Obligations.PackWritesOneSlot : Prop :=
  (∀ (slot : BitVec 2) (f : Payload) (high low : Byte),
    (encodeWord (.pack slot f high low)).toNat = 0x12000000 + slot.toNat) ∧
  (∀ (s : State) (slot : BitVec 2) (f : Payload) (high low : Byte), s.fault.halt = false → s.port ≠ .ctl →
    exec (.pack slot f high low) s = .next { s with
      fault := ⟨true, 1, s.word, portCode s.port⟩, rsp := putResponse s.port .fault s.rsp }) ∧
  (∀ (s : State) (slot : BitVec 2) (f : Payload) (high low : Byte), s.fault.halt = false → s.port = .ctl →
    ∃ f' : Payload, exec (.pack slot f high low) s = .next { s with
        rsp := putResponse .ctl (.ok (.frame f')) s.rsp } ∧
      ∀ i : Fin 8, f'[i] =
        if i.val = 2 * slot.toNat then high else if i.val = 2 * slot.toNat + 1 then low else f[i]) ∧
  (∀ (slot : BitVec 2) (f : Payload) (high low high' low' : Byte),
    packFrame slot (packFrame slot f high low) high' low' = packFrame slot f high' low') ∧
  (∀ (a b : BitVec 2) (f : Payload) (high low high' low' : Byte), a ≠ b →
    packFrame b (packFrame a f high low) high' low' = packFrame a (packFrame b f high' low') high low) ∧
  packFrame 1 #v[0, 0, 0, 0, 0, 0, 0, 0] 0x20 0x00 = #v[0x00, 0x00, 0x20, 0x00, 0x00, 0x00, 0x00, 0x00]

/-! ## Num -/

/-- Sums are correctly rounded (00_scope.md R9, R15): below the overflow threshold no finite value is nearer to the exact
sum, on a tie with another value the result's last bit is 0, beyond it the result is the infinity of the sum's sign; an
exact zero is `+0` unless both operands are negative. -/
def Obligations.AddIsCorrectlyRounded : Prop :=
  ∀ a b : Num32, F32.isFinite a = true → F32.isFinite b = true →
    let z := F32.value a + F32.value b
    (|z| < (2 ^ 25 - 1) * 2 ^ 252 → F32.isFinite (F32.add a b) = true ∧
      ∀ c : Num32, F32.isFinite c = true →
        |F32.value (F32.add a b) - z| ≤ |F32.value c - z| ∧
        (|F32.value (F32.add a b) - z| = |F32.value c - z| → F32.value c ≠ F32.value (F32.add a b) →
          F32.mag (F32.add a b) % 2 = 0)) ∧
    ((2 ^ 25 - 1) * 2 ^ 252 ≤ |z| → F32.add a b = F32.inf (decide (z < 0))) ∧
    (z = 0 → F32.add a b = F32.signedZero (F32.sign a && F32.sign b))

/-- Products are correctly rounded (00_scope.md R9, R15). The exact product is `value a * value b` in units of 2^-298. -/
def Obligations.MulIsCorrectlyRounded : Prop :=
  ∀ a b : Num32, F32.isFinite a = true → F32.isFinite b = true →
    let z := F32.value a * F32.value b
    (|z| < (2 ^ 25 - 1) * 2 ^ 252 * 2 ^ 149 → F32.isFinite (F32.mul a b) = true ∧
      ∀ c : Num32, F32.isFinite c = true →
        |F32.value (F32.mul a b) * 2 ^ 149 - z| ≤ |F32.value c * 2 ^ 149 - z| ∧
        (|F32.value (F32.mul a b) * 2 ^ 149 - z| = |F32.value c * 2 ^ 149 - z| →
          F32.value c ≠ F32.value (F32.mul a b) → F32.mag (F32.mul a b) % 2 = 0)) ∧
    ((2 ^ 25 - 1) * 2 ^ 252 * 2 ^ 149 ≤ |z| → F32.isInf (F32.mul a b) = true) ∧
    F32.sign (F32.mul a b) = (F32.sign a != F32.sign b)

/-- Quotients are correctly rounded (00_scope.md R9, R15). The exact quotient is `value a * 2^149 / value b` units. -/
def Obligations.DivIsCorrectlyRounded : Prop :=
  ∀ a b : Num32, F32.isFinite a = true → F32.isFinite b = true → F32.isZero b = false →
    let z := F32.value a * 2 ^ 149
    let v := F32.value b
    (|z| < (2 ^ 25 - 1) * 2 ^ 252 * |v| → F32.isFinite (F32.div a b) = true ∧
      ∀ c : Num32, F32.isFinite c = true →
        |F32.value (F32.div a b) * v - z| ≤ |F32.value c * v - z| ∧
        (|F32.value (F32.div a b) * v - z| = |F32.value c * v - z| →
          F32.value c ≠ F32.value (F32.div a b) → F32.mag (F32.div a b) % 2 = 0)) ∧
    ((2 ^ 25 - 1) * 2 ^ 252 * |v| ≤ |z| → F32.isInf (F32.div a b) = true) ∧
    F32.sign (F32.div a b) = (F32.sign a != F32.sign b)

/-- `ofInt` is exact on the integers the spec gives it (00_scope.md R15). -/
def Obligations.OfIntIsExact : Prop :=
  ∀ i : Int, |i| ≤ 65535 → F32.isFinite (F32.ofInt i) = true ∧ F32.value (F32.ofInt i) = i * 2 ^ 149

/-- A NaN arises from operands that are none only by `inf - inf`, `0 * inf` and `inf / inf`
(00_scope.md R15, 41_pid.md R128); a divisor is never zero. -/
def Obligations.NanArisesOnlyFromInfinities : Prop :=
  ∀ a b : Num32, F32.isNaN a = false → F32.isNaN b = false →
    (F32.isNaN (F32.add a b) = true ↔ F32.isInf a = true ∧ F32.isInf b = true ∧ F32.sign a ≠ F32.sign b) ∧
    (F32.isNaN (F32.mul a b) = true ↔
      (F32.isInf a = true ∧ F32.isZero b = true) ∨ (F32.isZero a = true ∧ F32.isInf b = true)) ∧
    (F32.isZero b = false → (F32.isNaN (F32.div a b) = true ↔ F32.isInf a = true ∧ F32.isInf b = true))

/-- The comparisons (00_scope.md R15): false on NaN, the order of the values on finite operands, an infinity beyond every
finite value. -/
def Obligations.ComparisonsOrderTheValues : Prop :=
  ∀ a b : Num32,
    (F32.isNaN a = true ∨ F32.isNaN b = true →
      F32.lt a b = false ∧ F32.le a b = false ∧ F32.gt a b = false) ∧
    (F32.isFinite a = true → F32.isFinite b = true →
      (F32.lt a b = true ↔ F32.value a < F32.value b) ∧ (F32.le a b = true ↔ F32.value a ≤ F32.value b) ∧
      (F32.gt a b = true ↔ F32.value b < F32.value a)) ∧
    (F32.isFinite a = true →
      F32.lt a (F32.inf false) = true ∧ F32.lt (F32.inf true) a = true ∧ F32.le (F32.inf false) a = false ∧
        F32.le a (F32.inf true) = false)

/-- 00_scope.md R16's clamp: a NaN passes, a value in range is kept with its sign of zero, and for `L >= 0` the result of
every other value lies in `[-L, L]`. -/
def Obligations.ClampKeepsTheRange : Prop :=
  (∀ x lo hi : Num32, F32.isNaN x = true → F32.clamp x lo hi = x) ∧
  (∀ x limit : Num32, F32.isNaN x = false → F32.le F32.zero limit = true →
    F32.le (F32.neg limit) (F32.clamp x (F32.neg limit) limit) = true ∧
    F32.le (F32.clamp x (F32.neg limit) limit) limit = true ∧
    (F32.le (F32.neg limit) x = true → F32.le x limit = true → F32.clamp x (F32.neg limit) limit = x) ∧
    (F32.gt x limit = true → F32.clamp x (F32.neg limit) limit = limit) ∧
    (F32.lt x (F32.neg limit) = true → F32.clamp x (F32.neg limit) limit = F32.neg limit))

/-- 00_scope.md R17: `toS16` saturates at both ends, otherwise gives the nearest integer, a tie going away from zero; the
rule's examples; and it is never applied to a NaN. -/
def Obligations.ToS16RoundsToNearest : Prop :=
  (∀ x : Num32, F32.isNaN x = false →
    (F32.le (F32.ofInt 32767) x = true → F32.toS16 x = 32767) ∧
    (F32.le x (F32.ofInt (-32768)) = true → F32.toS16 x = -32768) ∧
    (F32.le (F32.ofInt 32767) x = false → F32.le x (F32.ofInt (-32768)) = false →
      2 * |F32.toS16 x * 2 ^ 149 - F32.value x| ≤ 2 ^ 149 ∧
      (2 * |F32.toS16 x * 2 ^ 149 - F32.value x| = 2 ^ 149 → |F32.value x| < |F32.toS16 x * 2 ^ 149|)) ∧
    -32768 ≤ F32.toS16 x ∧ F32.toS16 x ≤ 32767) ∧
  (F32.toS16 0x3F000000#32 = 1 ∧ F32.toS16 0xBF000000#32 = -1 ∧ F32.toS16 0x40200000#32 = 3 ∧
    F32.toS16 0xC0200000#32 = -3 ∧ F32.toS16 0x80000000#32 = 0) ∧
  (∀ (c : Codec G) (demand : Num32), c.valid = true → LegalCodec c → F32.isNaN demand = false →
    F32.isNaN (F32.div (F32.mul (F32.clamp demand (F32.neg c.iFs) c.iFs) (F32.ofInt (c.rawFs.toNat : Int))) c.iFs)
      = false)

/-! ## The PID controller -/

/-- 41_pid.md R123: the whole tick of `PID`, step by step, its record and its output, its numeric check, the rule's
example, that `PCF` is never written, and the causes it can raise. The derivative with `dmeas = 0` is R126's formula, which
the spec marks as from general knowledge and not in the source (PRESUMED, log entry 12). -/
def Obligations.PidComputesTheTick : Prop :=
  (∀ (s : State) (id : BitVec 8) (k : Fin N) (reference feedback dt : Num32),
    s.fault.halt = false → s.port = .ctl → id.toNat = k.val + 1 → s.pcf[k].valid = true →
    F32.isNaN reference = false → F32.isNaN feedback = false → F32.isNaN dt = false →
    F32.le dt F32.zero = false →
    let c := s.pcf[k]
    let p := s.pst[k]
    let error := F32.sub reference feedback
    let acc :=
      if c.sepEn = false ∨ F32.lt (F32.abs error) c.sepThreshold = true then
        F32.add p.integral (F32.mul (F32.div (F32.add error p.lastError) F32.two) dt)
      else p.integral
    let integral := F32.clamp acc (F32.neg c.integralLimit) c.integralLimit
    let derivative :=
      if c.dmeas = true then F32.div (F32.sub p.lastFeedback feedback) dt
      else F32.div (F32.sub error p.lastError) dt
    let u := F32.add (F32.add (F32.mul c.kp error) (F32.mul c.ki integral)) (F32.mul c.kd derivative)
    let output := F32.clamp u (F32.neg c.outputLimit) c.outputLimit
    (F32.isNaN error = false → F32.isNaN integral = false → F32.isNaN output = false →
      exec (.pid id reference feedback dt) s = .next { s with
        pst := s.pst.set k ⟨integral, error, feedback, .running⟩,
        rsp := putResponse .ctl (.ok (.output output)) s.rsp }) ∧
    (F32.isNaN error = true ∨ F32.isNaN integral = true ∨ F32.isNaN output = true →
      exec (.pid id reference feedback dt) s = .next { s with
        fault := ⟨true, 8, s.word, 1⟩, rsp := putResponse .ctl .fault s.rsp })) ∧
  (∀ (s : State) (k : Fin N) (id : BitVec 8), s.fault.halt = false → s.port = .ctl → id.toNat = k.val + 1 →
    s.pcf[k] = ⟨true, 0x40000000#32, 0x3F000000#32, 0x3E800000#32, 0x41200000#32, 0x42C80000#32, 0x420C0000#32,
      true, true⟩ →
    s.pst[k] = ⟨0, 0, 0, .idle⟩ →
    exec (.pid id 0x40A00000#32 0 0x3F800000#32) s = .next { s with
      pst := s.pst.set k ⟨0x40200000#32, 0x40A00000#32, 0, .running⟩,
      rsp := putResponse .ctl (.ok (.output 0x41340000#32)) s.rsp }) ∧
  (∀ (s t : State) (id : BitVec 8) (reference feedback dt : Num32), exec (.pid id reference feedback dt) s = .next t →
    t.pcf = s.pcf ∧ (t.fault = s.fault ∨ t.fault.cause ∈ [1#4, 2#4, 4#4, 5#4, 6#4, 8#4]))

/-- A NaN can arise in a tick only where an infinity is involved (41_pid.md R128): with legal parameters, `dt > 0` and
finite intermediate results `PID` completes with status OK; the sum itself may overflow and is then clamped. -/
def Obligations.PidOfFiniteValuesCompletes : Prop :=
  ∀ (s : State) (id : BitVec 8) (k : Fin N) (reference feedback dt : Num32),
    s.fault.halt = false → s.port = .ctl → id.toNat = k.val + 1 → s.pcf[k].valid = true → LegalPcf s.pcf[k] →
    F32.isFinite reference = true → F32.isFinite feedback = true → F32.isFinite dt = true →
    F32.gt dt F32.zero = true →
    let c := s.pcf[k]
    let p := s.pst[k]
    let error := F32.sub reference feedback
    let integral := pidIntegral c p error dt
    (∀ x ∈ [error, p.integral, F32.mul (F32.div (F32.add error p.lastError) F32.two) dt,
      F32.mul c.kp error, F32.mul c.ki integral, F32.add (F32.mul c.kp error) (F32.mul c.ki integral),
      F32.mul c.kd (pidDerivative c p error feedback dt)], F32.isFinite x = true) →
    ∃ t v, exec (.pid id reference feedback dt) s = .next t ∧ responseAt .ctl t.rsp = some (.ok (.output v)) ∧
      t = { s with pst := s.pst.set k ⟨integral, error, feedback, .running⟩, rsp := t.rsp }

/-- After every successful `PID` the stored integral lies in `[-integral_limit, integral_limit]` and the output in
`[-output_limit, output_limit]`, on frozen ticks too (41_pid.md R125, R127). -/
def Obligations.PidStaysInItsLimits : Prop :=
  ∀ (s t : State) (id : BitVec 8) (k : Fin N) (reference feedback dt v : Num32),
    LegalPcf s.pcf[k] → id.toNat = k.val + 1 → s.port = .ctl →
    exec (.pid id reference feedback dt) s = .next t → responseAt .ctl t.rsp = some (.ok (.output v)) →
    F32.le (F32.neg s.pcf[k].integralLimit) t.pst[k].integral = true ∧
    F32.le t.pst[k].integral s.pcf[k].integralLimit = true ∧
    F32.le (F32.neg s.pcf[k].outputLimit) v = true ∧ F32.le v s.pcf[k].outputLimit = true

/-- Anti-windup (41_pid.md R131 (a), first half): with separation enabled and an error that is not below the threshold the
integral does not grow over any number of ticks; it stays at its value. -/
def Obligations.SeparationFreezesTheIntegral : Prop :=
  ∀ (n : Nat) (s : State) (id : BitVec 8) (k : Fin N) (reference feedback dt : Num32),
    id.toNat = k.val + 1 → s.pcf[k].sepEn = true →
    F32.lt (F32.abs (F32.sub reference feedback)) s.pcf[k].sepThreshold = false →
    F32.le (F32.neg s.pcf[k].integralLimit) s.pst[k].integral = true →
    F32.le s.pst[k].integral s.pcf[k].integralLimit = true →
    s.inbox = List.replicate n (.request .ctl (encode (.pid id reference feedback dt))) →
    ∃ t : State, Host.Core.run Sys2Proof.core n s = .next t ∧ t.pst[k].integral = s.pst[k].integral

/-- Anti-windup (41_pid.md R131 (a), second half) on the numbers of 95_test_vectors.md S5: with threshold 35 and the error
held at 5 the integral is 2.5, 7.5, and from the third tick on exactly at the clamp 10, however many ticks follow. -/
def Obligations.HeldErrorRunsToTheClamp : Prop :=
  ∀ (n : Nat) (s : State) (k : Fin N) (id : BitVec 8), s.fault.halt = false → id.toNat = k.val + 1 →
    s.pcf[k] = ⟨true, 0x40000000#32, 0x3F000000#32, 0x3E800000#32, 0x41200000#32, 0x42C80000#32, 0x420C0000#32,
      true, true⟩ →
    s.pst[k] = ⟨0, 0, 0, .idle⟩ →
    s.inbox = List.replicate n (.request .ctl (encode (.pid id 0x40A00000#32 0 0x3F800000#32))) →
    ∃ t : State, Host.Core.run Sys2Proof.core n s = .next t ∧ t.fault = s.fault ∧
      t.pst[k].integral = match n with
        | 0 => 0#32
        | 1 => 0x40200000#32
        | 2 => 0x40F00000#32
        | _ => 0x41200000#32

/-- Derivative on the measurement (41_pid.md R131 (b)): with `dmeas = 1` and a feedback equal to the last one, the
derivative is `zero` whatever the reference, so the two outputs differ by no derivative term: both are the sum with
`kd * zero`. -/
def Obligations.NoDerivativeKick : Prop :=
  ∀ (s t : State) (id : BitVec 8) (k : Fin N) (reference feedback dt v : Num32),
    s.pcf[k].dmeas = true → s.pst[k].lastFeedback = feedback → F32.isFinite feedback = true →
    F32.isNaN dt = false → F32.gt dt F32.zero = true → id.toNat = k.val + 1 → s.port = .ctl →
    exec (.pid id reference feedback dt) s = .next t → responseAt .ctl t.rsp = some (.ok (.output v)) →
    v = F32.clamp
      (F32.add (F32.add (F32.mul s.pcf[k].kp (F32.sub reference feedback)) (F32.mul s.pcf[k].ki t.pst[k].integral))
        (F32.mul s.pcf[k].kd F32.zero))
      (F32.neg s.pcf[k].outputLimit) s.pcf[k].outputLimit

/-- Idempotence of construction (41_pid.md R131 (c), 70_reset_and_hazards.md R194): two controllers, of one block or of
two, with identical parameters and identical state, given the same inputs, give the same response to the last input and
end in the same state; since this holds for every input sequence, it holds after each of its inputs. -/
def Obligations.EqualControllersAnswerEqually : Prop :=
  ∀ (inputs : List (Num32 × Num32 × Num32)) (s s' : State) (id id' : BitVec 8) (k k' : Fin N),
    id.toNat = k.val + 1 → id'.toNat = k'.val + 1 → s.pcf[k] = s'.pcf[k'] → s.pst[k] = s'.pst[k'] →
    s.fault.halt = s'.fault.halt → s.rsp.ctl = s'.rsp.ctl →
    s.inbox = inputs.map (fun x => .request .ctl (encode (.pid id x.1 x.2.1 x.2.2))) →
    s'.inbox = inputs.map (fun x => .request .ctl (encode (.pid id' x.1 x.2.1 x.2.2))) →
    ∃ t t' : State, Host.Core.run Sys2Proof.core inputs.length s = .next t ∧
      Host.Core.run Sys2Proof.core inputs.length s' = .next t' ∧
      t.pst[k] = t'.pst[k'] ∧ t.rsp.ctl = t'.rsp.ctl ∧ t.fault.halt = t'.fault.halt

/-- `PRST` leaves the controller Idle with an all-zero state, whether or not it has parameters, and writes nothing else
(41_pid.md R129). -/
def Obligations.PrstMakesTheControllerIdle : Prop :=
  ∀ (s : State) (id : BitVec 8) (k : Fin N), s.fault.halt = false → s.port = .cfg → id.toNat = k.val + 1 →
    exec (.prst id) s = .next { s with
      pst := s.pst.set k ⟨0, 0, 0, .idle⟩, rsp := putResponse .cfg (.ok .none) s.rsp }

/-- The state machine of a controller (41_pid.md R121), by events: what reset, a successful `PID`, `PRST`, a faulting
`PID` and every other operation do to it. -/
def Obligations.ControllerStateMachine : Prop :=
  (∀ (s t : State) (rest : List Event) (k : Fin N), s.inbox = .reset :: rest → step s = .next t →
    t.pst[k] = ⟨0, 0, 0, .idle⟩) ∧
  (∀ (s t : State) (i : Instr) (k : Fin N), exec i s = .next t →
    match i with
    | .pid id reference feedback _ =>
      (id.toNat = k.val + 1 ∧ (∃ v, responseAt s.port t.rsp = some (.ok (.output v))) ∧
        t.pst[k].run = .running ∧ t.pst[k].lastError = F32.sub reference feedback ∧
          t.pst[k].lastFeedback = feedback) ∨
      ((id.toNat ≠ k.val + 1 ∨ ∀ v, responseAt s.port t.rsp ≠ some (.ok (.output v))) ∧ t.pst[k] = s.pst[k])
    | .prst id =>
      (id.toNat = k.val + 1 ∧ responseAt s.port t.rsp = some (.ok .none) ∧ t.pst[k] = ⟨0, 0, 0, .idle⟩) ∨
      ((id.toNat ≠ k.val + 1 ∨ responseAt s.port t.rsp ≠ some (.ok .none)) ∧ t.pst[k] = s.pst[k])
    | _ => t.pst[k] = s.pst[k]) ∧
  (∀ (s t : State) (id : BitVec 8) (reference feedback dt : Num32),
    exec (.pid id reference feedback dt) s = .next t → responseAt s.port t.rsp = some .fault →
    t.pst = s.pst ∧ t.fault.halt = true)

/-! ## The registry -/

/-- `RDT` answers the four fields of one record and writes none (42_registry.md R141). -/
def Obligations.RdtReadsTheRecord : Prop :=
  ∀ (s : State) (id : BitVec 8) (k : Fin N), s.fault.halt = false → s.port = .ctl → id.toNat = k.val + 1 →
    exec (.rdt id) s = .next { s with rsp := putResponse .ctl (.ok (.telemetry s.tel[k])) s.rsp }

/-- `WRC` stores and returns the demand clamped to the full scale in force (42_registry.md R142). -/
def Obligations.WrcStoresTheClampedDemand : Prop :=
  ∀ (s : State) (id : BitVec 8) (demand : Num32) (k : Fin N),
    s.fault.halt = false → s.port = .ctl → id.toNat = k.val + 1 → s.codec.valid = true →
    F32.isNaN demand = false →
    let v :=
      if F32.gt demand s.codec.iFs = true then s.codec.iFs
      else if F32.lt demand (F32.neg s.codec.iFs) = true then F32.neg s.codec.iFs else demand
    exec (.wrc id demand) s = .next { s with
      cmd := s.cmd.set k ⟨v⟩, rsp := putResponse .ctl (.ok (.stored v)) s.rsp }

/-- After a `WRC` under a legal codec record the command is within the bounds in force (10_state.md R26). -/
def Obligations.CommandIsWithinItsBounds : Prop :=
  ∀ (s t : State) (id : BitVec 8) (demand v : Num32) (k : Fin N),
    LegalCodec s.codec → id.toNat = k.val + 1 → s.port = .ctl → exec (.wrc id demand) s = .next t →
    responseAt .ctl t.rsp = some (.ok (.stored v)) →
    t.cmd[k].demand = v ∧ F32.le (F32.neg s.codec.iFs) v = true ∧ F32.le v s.codec.iFs = true

/-- `RDC` answers the stored demand, whatever the codec record holds now, and writes no record (42_registry.md R143). -/
def Obligations.RdcReadsTheCommand : Prop :=
  ∀ (s : State) (id : BitVec 8) (k : Fin N), s.fault.halt = false → s.port = .ctl → id.toNat = k.val + 1 →
    exec (.rdc id) s = .next { s with rsp := putResponse .ctl (.ok (.demand s.cmd[k].demand)) s.rsp }

/-- `WRP` replaces every parameter of one record in one step, a negative limit stored as `zero`, everything else as given,
and leaves the controller's state alone (42_registry.md R144, R145; 41_pid.md R130). -/
def Obligations.WrpReplacesTheParameters : Prop :=
  ∀ (s : State) (id : BitVec 8) (sepEn dmeas : Bool) (kp ki kd integralLimit outputLimit sepThreshold : Num32)
    (k : Fin N),
    s.fault.halt = false → s.port = .cfg → id.toNat = k.val + 1 →
    (∀ x ∈ [kp, ki, kd, integralLimit, outputLimit, sepThreshold], F32.isNaN x = false) →
    exec (.wrp id sepEn dmeas kp ki kd integralLimit outputLimit sepThreshold) s = .next { s with
      pcf := s.pcf.set k
        { valid := true, kp := kp, ki := ki, kd := kd,
          integralLimit := if F32.lt integralLimit 0#32 = true then 0#32 else integralLimit,
          outputLimit := if F32.lt outputLimit 0#32 = true then 0#32 else outputLimit,
          sepThreshold := sepThreshold, sepEn := sepEn, dmeas := dmeas },
      rsp := putResponse .cfg (.ok .none) s.rsp }

/-- A configuration write is seen by the next tick (20_memory.md R64): a `PID` served right after a `WRP` of the same id
computes with the new parameters, on the controller state as it was. -/
def Obligations.NextTickSeesTheNewParameters : Prop :=
  ∀ (s t u : State) (id : BitVec 8) (sepEn dmeas : Bool)
    (kp ki kd integralLimit outputLimit sepThreshold reference feedback dt v : Num32) (k : Fin N),
    id.toNat = k.val + 1 → s.fault.halt = false →
    exec (.wrp id sepEn dmeas kp ki kd integralLimit outputLimit sepThreshold) { s with port := .cfg } = .next t →
    exec (.pid id reference feedback dt) { t with port := .ctl } = .next u →
    responseAt .ctl u.rsp = some (.ok (.output v)) →
    (u.pst[k], v) = pidTick
      ⟨true, kp, ki, kd, sat0 integralLimit, sat0 outputLimit, sepThreshold, sepEn, dmeas⟩
      s.pst[k] reference feedback dt

/-- `WRK` with usable constants replaces the whole codec record and no other, equal identifiers included; with a constant
that is not usable it raises BAD_CONFIG and writes nothing (42_registry.md R146, R147). -/
def Obligations.WrkReplacesTheCodec : Prop :=
  ∀ (s : State) (rawFs : BitVec 15) (base : BitVec 11) (ids : Vector (BitVec 11) G) (iFs angleNum angleDen : Num32),
    s.fault.halt = false → s.port = .cfg →
    F32.isNaN iFs = false → F32.isNaN angleNum = false → F32.isNaN angleDen = false →
    exec (.wrk rawFs base ids.toList iFs angleNum angleDen) s = .next
      (if F32.isInf iFs = false ∧ F32.gt iFs 0#32 = true ∧ 1 ≤ rawFs.toNat ∧ F32.isInf angleNum = false ∧
          F32.isInf angleDen = false ∧ angleDen ≠ 0x00000000#32 ∧ angleDen ≠ 0x80000000#32 then
        { s with
          codec := ⟨true, base, ids, iFs, rawFs, angleNum, angleDen⟩,
          rsp := putResponse .cfg (.ok .none) s.rsp }
      else
        { s with fault := ⟨true, 7, s.word, 2⟩, rsp := putResponse .cfg .fault s.rsp })

/-- 42_registry.md R148: `RDF` answers the fault record on every port, halted or not, and writes none; a malformed `RDF`
word raises ILLEGAL_OP when not halted and answers HALTED when halted; and the rule's two examples. -/
def Obligations.RdfReadsTheFaultRecord : Prop :=
  encode .rdf = ⟨0x50000000#32, []⟩ ∧
  (∀ s : State, exec .rdf s = .next { s with
    rsp := putResponse s.port (.ok (.faultRecord s.fault)) s.rsp }) ∧
  (∀ (s : State) (q : Port) (c : Command) (rest : List Event), s.inbox = .request q c :: rest →
    c.word.extractLsb' 24 8 = 0x50#8 → c.word.extractLsb' 0 24 ≠ 0 →
    step s = .next
      (if s.fault.halt = true then
        { s with inbox := rest, port := q, word := c.word, rsp := putResponse q .halted s.rsp }
      else
        { s with
          inbox := rest, port := q, word := c.word,
          fault := ⟨true, 1, c.word, portCode q⟩, rsp := putResponse q .fault s.rsp })) ∧
  (∀ q : Port, exec .rdf { State.reset with port := q } = .next { State.reset with
    port := q, rsp := putResponse q (.ok (.faultRecord ⟨false, 0, 0, 0⟩)) State.reset.rsp }) ∧
  (∀ s : State, s.fault.halt = false → s.pcf[(0 : Fin N)].valid = true →
    s.inbox = [.request .ctl (encode (.pid 1 0x40A00000#32 0 0)), .request .ctl (encode .rdf)] →
    ∃ t : State, Host.Core.run Sys2Proof.core 2 s = .next t ∧
      responseAt .ctl t.rsp = some (.ok (.faultRecord ⟨true, 6, 0x20010000#32, 1⟩)))

/-! ## Pseudo-operations -/

/-- `TICK` served without a gap (30_encoding.md R90): four operations; where none of them faults, the demand stored is the
clamped output of the tick on the selected telemetry field, and the bytes answered are the encoding of what is stored. -/
def Obligations.TickEncodesWhatItStores : Prop :=
  ∀ (s : State) (id : BitVec 8) (k : Fin N) (reference dt other : Num32) (sel : Selector),
    s.fault.halt = false → id.toNat = k.val + 1 → s.codec.valid = true → s.pcf[k].valid = true →
    ∃ (t : State) (rs : List Response),
      runScript .ctl (tickNext id reference sel dt other) [[], [], [], []] [] s = some (t, rs) ∧ rs.length = 4 ∧
      (t.fault.halt = false → ∃ v : Num32,
        rs = [.ok (.telemetry s.tel[k]), .ok (.output v), .ok (.stored t.cmd[k].demand),
          .ok (encodeResults k t.cmd[k].demand s.codec)] ∧
        (t.pst[k], v) = pidTick s.pcf[k] s.pst[k] reference (feedbackOf sel s.tel[k]) dt ∧
        t.cmd[k].demand = F32.clamp v (F32.neg s.codec.iFs) s.codec.iFs)

/-- `ENCP` served without a gap (30_encoding.md R91): it yields the identifier of the actuator's group and the caller's
frame with the two encoded bytes at the actuator's offset, and changes no record. -/
def Obligations.EncpPlacesTheEncodedBytes : Prop :=
  ∀ (s : State) (id : BitVec 8) (k : Fin N) (demand : Num32) (f : Payload),
    s.fault.halt = false → id.toNat = k.val + 1 → s.codec.valid = true → F32.isNaN demand = false →
    ∃ (t : State) (rs : List Response) (f' : Payload),
      runScript .ctl (encpNext id demand f) [[], []] [] s = some (t, rs) ∧ SameRecords s t ∧
      encpYield rs = some (s.codec.cmdFrameId[groupOf k].zeroExtend 32, f') ∧
      ∀ i : Fin 8, f'[i] =
        if i.val = frameOffset k then highByte (u16 (encodeRaw demand s.codec))
        else if i.val = frameOffset k + 1 then lowByte (u16 (encodeRaw demand s.codec))
        else f[i]

/-! ## The number of actuators as an argument -/

/-- The hardware is the build of seven actuators (00_scope.md R8). -/
def Obligations.HardwareIsTheBuildOfSeven : Prop :=
  N = 7 ∧ G = 2 ∧ Config.Buildable N ∧ State.reset = State.resetOf 7 ∧
  (∀ (i : Instr) (s : State 7), exec i s = execOf i s) ∧ (∀ s : State 7, step s = stepOf s)

/-- 00_scope.md R8 for every build `n`, `1 <= n <= 255`: the ActuatorIds are exactly `1..n`, one slot each, every one of
them fits the `id` field; and there are `ceil(n / 4)` groups, of at most four actuators, none empty. -/
def Obligations.EveryBuildHasItsActuators : Prop :=
  ∀ n : Nat, Config.Buildable n →
    (∀ id : BitVec 8, (slotOf id : Option (Fin n)).isSome = true ↔ 1 ≤ id.toNat ∧ id.toNat ≤ n) ∧
    (∀ k : Fin n, ∃ id : BitVec 8, slotOf id = some k ∧ ∀ id' : BitVec 8, slotOf id' = some k → id' = id) ∧
    (n ≤ 4 * Config.groups n ∧ 4 * Config.groups n < n + 4) ∧
    (∀ g : Fin (Config.groups n), ∃ k : Fin n, groupOf k = g ∧ frameSlot k = 0) ∧
    (∀ j k : Fin n, groupOf j = groupOf k → frameSlot j = frameSlot k → j = k)

/-- In every build (00_scope.md R8) a step from a legal state, whatever event is served, leads to a legal state; and every
request that can be presented has a next state. -/
def Obligations.EveryBuildServesAndStaysLegal : Prop :=
  ∀ (n : Nat) (s : State n), Legal s →
    (∀ t : State n, stepOf s = .next t → Legal t) ∧
    (∀ (q : Port) (c : Command) (rest : List Event), s.inbox = .request q c :: rest →
      presentable (Config.groups n) c = true → ∃ t, stepOf s = .next t)
end

