-- ==== Sys2Proof/Laws/Codec.lean ====
section
/-! SUPPORT. What reading and writing 16-bit fields as two bytes does. -/

namespace Sys2Proof.Machine

/-- Two bytes read big-endian are the number of their concatenation. -/
theorem be16_eq (high low : Byte) : be16 high low = (high ++ low : BitVec 16).toNat := by
  have := low.isLt
  rw [be16, BitVec.toNat_append, ← Nat.shiftLeft_add_eq_or_of_lt this, Nat.shiftLeft_eq]

theorem s16_toNat (w : BitVec 16) : s16 w.toNat = w.toInt := by
  rw [s16, BitVec.toInt_eq_toNat_cond]
  split <;> split <;> omega

theorem u16_toInt (w : BitVec 16) : u16 w.toInt = w := by rw [u16, BitVec.ofInt_toInt]

/-- Reading a signed field and writing it back gives the bytes back. -/
theorem u16_s16_be16 (high low : Byte) : u16 (s16 (be16 high low)) = high ++ low := by
  rw [be16_eq, s16_toNat, u16_toInt]

theorem highByte_append_lowByte (w : BitVec 16) : highByte w ++ lowByte w = w := by
  apply BitVec.eq_of_toNat_eq
  rw [← be16_eq, be16, highByte, lowByte]
  have := w.isLt
  simp only [BitVec.extractLsb'_toNat, Nat.shiftRight_eq_div_pow]
  omega

/-- All that writing one slot of a frame does (40_codec.md R106). -/
theorem packFrame_get (slot : BitVec 2) (f : Payload) (high low : Byte) (i : Nat) (h : i < 8) :
    (packFrame slot f high low)[i] =
      if i = 2 * slot.toNat + 1 then low else if i = 2 * slot.toNat then high else f[i] := by
  unfold packFrame
  simp only [Vector.getElem_set]
  split <;> split <;> first | rfl | (rename_i h1 _; omega) | skip
  all_goals
    split <;> first | rfl | (split <;> first | rfl | omega) | omega

end Sys2Proof.Machine
end

