-- ==== Sys2Proof/Laws/Decode.lean ====
section
/-! SUPPORT. What the parts of the decoder and of the encoder do: the fields of a word put together from its parts, the
checked operands, and the shapes of operand blocks. -/

namespace Sys2Proof

/-! ### The command word -/

theorem wordOf_toNat (opcode id : BitVec 8) (aux : BitVec 16) :
    (wordOf opcode id aux).toNat = opcode.toNat * 2 ^ 24 + id.toNat * 2 ^ 16 + aux.toNat := by
  have hi := id.isLt
  have hx := aux.isLt
  rw [wordOf, BitVec.toNat_append, BitVec.toNat_append, ← Nat.shiftLeft_add_eq_or_of_lt hx,
    ← Nat.shiftLeft_add_eq_or_of_lt hi]
  simp only [Nat.shiftLeft_eq]
  omega

theorem extract_toNat (w : Word) (start len : Nat) :
    (w.extractLsb' start len).toNat = w.toNat / 2 ^ start % 2 ^ len := by
  simp [BitVec.extractLsb'_toNat, Nat.shiftRight_eq_div_pow]

theorem opcode_wordOf (opcode id : BitVec 8) (aux : BitVec 16) :
    (wordOf opcode id aux).extractLsb' 24 8 = opcode := by
  apply BitVec.eq_of_toNat_eq
  rw [extract_toNat, wordOf_toNat]
  have ho := opcode.isLt
  have hi := id.isLt
  have hx := aux.isLt
  omega

theorem idField_wordOf (opcode id : BitVec 8) (aux : BitVec 16) : idField (wordOf opcode id aux) = id := by
  apply BitVec.eq_of_toNat_eq
  rw [idField, extract_toNat, wordOf_toNat]
  have ho := opcode.isLt
  have hi := id.isLt
  have hx := aux.isLt
  omega

theorem aux_wordOf (opcode id : BitVec 8) (aux : BitVec 16) :
    (wordOf opcode id aux).extractLsb' 0 16 = aux := by
  apply BitVec.eq_of_toNat_eq
  rw [extract_toNat, wordOf_toNat]
  have ho := opcode.isLt
  have hi := id.isLt
  have hx := aux.isLt
  omega

/-- Every word is its three parts put together. -/
theorem wordOf_parts (w : Word) : wordOf (w.extractLsb' 24 8) (idField w) (w.extractLsb' 0 16) = w := by
  apply BitVec.eq_of_toNat_eq
  rw [wordOf_toNat, idField, extract_toNat, extract_toNat, extract_toNat]
  have := w.isLt
  omega

theorem wordOf_and (a b a' b' : BitVec 8) (c c' : BitVec 16) :
    wordOf a b c &&& wordOf a' b' c' = wordOf (a &&& a') (b &&& b') (c &&& c') := by
  show ((a ++ b) ++ c : BitVec (8 + 8 + 16)) &&& ((a' ++ b') ++ c' : BitVec (8 + 8 + 16)) = _
  rw [BitVec.and_append, BitVec.and_append]
  rfl

theorem wordOf_inj {a b a' b' : BitVec 8} {c c' : BitVec 16} :
    wordOf a b c = wordOf a' b' c' ↔ a = a' ∧ b = b' ∧ c = c' := by
  constructor
  · intro h
    exact ⟨by rw [← opcode_wordOf a b c, h, opcode_wordOf], by rw [← idField_wordOf a b c, h, idField_wordOf],
      by rw [← aux_wordOf a b c, h, aux_wordOf]⟩
  · rintro ⟨rfl, rfl, rfl⟩
    rfl

/-- Masking with the bits `start .. start + len - 1` set gives zero just where that field is zero. -/
theorem and_eq_zero_iff (x m : BitVec 16) (start len : Nat)
    (hm : ∀ i : Fin 16, m.getLsbD i.val = decide (start ≤ i.val ∧ i.val < start + len)) (hl : start + len ≤ 16) :
    x &&& m = 0 ↔ x.extractLsb' start len = 0 := by
  constructor
  · intro h
    apply BitVec.eq_of_getLsbD_eq
    intro j hj
    have h1 := congrArg (fun v => BitVec.getLsbD v (start + j)) h
    have h2 := hm ⟨start + j, by omega⟩
    simp only [BitVec.getLsbD_and] at h1 h2
    rw [h2] at h1
    have h3 : start ≤ start + j ∧ start + j < start + len := by omega
    simp only [h3, and_self, decide_true, Bool.and_true] at h1
    rw [BitVec.getLsbD_extractLsb']
    simp [hj, h1]
  · intro h
    apply BitVec.eq_of_getLsbD_eq
    intro j hj
    rw [BitVec.getLsbD_and, hm ⟨j, hj⟩]
    by_cases hr : start ≤ j ∧ j < start + len
    · have h1 := congrArg (fun v => BitVec.getLsbD v (j - start)) h
      have e : start + (j - start) = j := by omega
      have e' : j - start < len := by omega
      simp only [BitVec.getLsbD_extractLsb', e, e', decide_true, Bool.true_and] at h1
      simp [h1]
    · simp [hr]

/-- A field of the low half of a word is the same field of the word. -/
theorem extract_aux (w : Word) (start len : Nat) (h : start + len ≤ 16) :
    (w.extractLsb' 0 16).extractLsb' start len = w.extractLsb' start len := by
  apply BitVec.eq_of_getLsbD_eq
  intro j hj
  have : start + j < 16 := by omega
  simp only [BitVec.getLsbD_extractLsb', hj, decide_true, Bool.true_and]
  simp [this]

theorem extract_zeroExtend_high {n : Nat} (x : BitVec n) (start len : Nat) (h : n ≤ start) :
    (x.zeroExtend 16).extractLsb' start len = 0 := by
  apply BitVec.eq_of_getLsbD_eq
  intro j hj
  simp only [BitVec.getLsbD_extractLsb', hj, decide_true, Bool.true_and]
  simp [BitVec.getLsbD_of_ge x (start + j) (by omega)]

theorem extract_zeroExtend_low {n : Nat} (x : BitVec n) (h : n ≤ 16) :
    (x.zeroExtend 16).extractLsb' 0 n = x := by
  apply BitVec.eq_of_getLsbD_eq
  intro j hj
  simp only [BitVec.getLsbD_extractLsb', hj, decide_true, Bool.true_and]
  simp
  omega

theorem mem_rows (r : Row) : r ∈ rows := by cases r <;> decide

theorem rowOf_some {w : Word} {r : Row} (h : rowOf w = some r) : rowNamed w r = true := List.find?_some h

theorem rowOf_none {w : Word} (h : rowOf w = none) (r : Row) : rowNamed w r = false := by
  have := List.find?_eq_none.mp h r (mem_rows r)
  simpa using this

/-! ### The operands -/

theorem payloadOf_toList (p : Payload) : payloadOf p.toList = some p := by
  unfold payloadOf
  rw [dif_pos (by simp)]
  congr 1

theorem payloadOf_some {bytes : List Byte} {p : Payload} (h : payloadOf bytes = some p) : p.toList = bytes := by
  unfold payloadOf at h
  split at h
  · cases h
    simp
  · cases h

theorem u11Of_toNat (x : BitVec 11) : u11Of x.toNat = some x := by
  unfold u11Of
  rw [if_pos x.isLt]
  simp

theorem u11Of_some {value : Nat} {x : BitVec 11} (h : u11Of value = some x) : x.toNat = value := by
  unfold u11Of at h
  split at h
  · rename_i hv
    cases h
    rw [BitVec.toNat_ofNat]
    exact Nat.mod_eq_of_lt hv
  · cases h

/-- Reading back the identifiers that were written in front of a block. -/
theorem takeU11_append (l : List (BitVec 11)) (rest : List Operand) :
    takeU11 l.length (l.map (fun x => Operand.u11 x.toNat) ++ rest) = some (l, rest) := by
  induction l with
  | nil => rfl
  | cons x l ih =>
    simp only [List.length_cons, List.map_cons, List.cons_append, takeU11]
    rw [u11Of_toNat, ih]

/-- All that taking identifiers from a block can do. -/
theorem takeU11_some (n : Nat) (block : List Operand) (l : List (BitVec 11)) (rest : List Operand)
    (h : takeU11 n block = some (l, rest)) :
    l.length = n ∧ block = l.map (fun x => Operand.u11 x.toNat) ++ rest := by
  induction n generalizing block l rest with
  | zero =>
    simp only [takeU11, Option.some.injEq, Prod.mk.injEq] at h
    obtain ⟨rfl, rfl⟩ := h
    simp
  | succ n ih =>
    match block, h with
    | [], h => simp [takeU11] at h
    | .num _ :: _, h => simp [takeU11] at h
    | .payload _ :: _, h => simp [takeU11] at h
    | .u8 _ :: _, h => simp [takeU11] at h
    | .u11 a :: l, h =>
      simp only [takeU11] at h
      split at h
      · rename_i x xs r hx ht
        simp only [Option.some.injEq, Prod.mk.injEq] at h
        obtain ⟨rfl, rfl⟩ := h
        obtain ⟨rfl, rfl⟩ := ih _ _ _ ht
        simp [u11Of_some hx]
      · cases h

/-! ### Blocks of the right shape -/

theorem fits_cons {k : OperandKind} {ks : List OperandKind} {block : List Operand}
    (h : blockFits (k :: ks) block = true) :
    ∃ o os, block = o :: os ∧ Operand.fits k o = true ∧ blockFits ks os = true := by
  cases block with
  | nil => simp [blockFits] at h
  | cons o os =>
    simp only [blockFits, Bool.and_eq_true] at h
    exact ⟨o, os, rfl, h⟩

theorem fits_nil {block : List Operand} (h : blockFits [] block = true) : block = [] := by
  cases block with
  | nil => rfl
  | cons => simp [blockFits] at h

theorem fits_num_cons {ks : List OperandKind} {block : List Operand} (h : blockFits (.num :: ks) block = true) :
    ∃ x os, block = .num x :: os ∧ blockFits ks os = true := by
  obtain ⟨o, os, rfl, h1, h2⟩ := fits_cons h
  cases o with
  | num x => exact ⟨x, os, rfl, h2⟩
  | payload | u8 | u11 => cases h1

theorem fits_u8_cons {ks : List OperandKind} {block : List Operand} (h : blockFits (.u8 :: ks) block = true) :
    ∃ x os, block = .u8 x :: os ∧ blockFits ks os = true := by
  obtain ⟨o, os, rfl, h1, h2⟩ := fits_cons h
  cases o with
  | u8 x => exact ⟨x, os, rfl, h2⟩
  | payload | num | u11 => cases h1

theorem fits_payload_cons {ks : List OperandKind} {block : List Operand}
    (h : blockFits (.payload :: ks) block = true) :
    ∃ bytes p os, block = .payload bytes :: os ∧ payloadOf bytes = some p ∧ blockFits ks os = true := by
  obtain ⟨o, os, rfl, h1, h2⟩ := fits_cons h
  cases o with
  | payload bytes =>
    have hl : bytes.length = 8 := by simpa [Operand.fits] using h1
    exact ⟨bytes, ⟨bytes.toArray, by simpa using hl⟩, os, rfl, dif_pos hl, h2⟩
  | u8 | num | u11 => cases h1

theorem fits_u11_cons {ks : List OperandKind} {block : List Operand} (h : blockFits (.u11 :: ks) block = true) :
    ∃ value x os, block = .u11 value :: os ∧ u11Of value = some x ∧ blockFits ks os = true := by
  obtain ⟨o, os, rfl, h1, h2⟩ := fits_cons h
  cases o with
  | u11 value =>
    have hv : value < 2048 := by simpa [Operand.fits] using h1
    exact ⟨value, BitVec.ofNat 11 value, os, rfl, if_pos hv, h2⟩
  | u8 | num | payload => cases h1

/-- A block that begins with `n` identifiers gives them. -/
theorem fits_takeU11 (n : Nat) (ks : List OperandKind) (block : List Operand)
    (h : blockFits (List.replicate n .u11 ++ ks) block = true) :
    ∃ l rest, takeU11 n block = some (l, rest) ∧ blockFits ks rest = true := by
  induction n generalizing block with
  | zero => exact ⟨_, _, rfl, h⟩
  | succ n ih =>
    rw [List.replicate_succ, List.cons_append] at h
    obtain ⟨value, x, os, rfl, hx, h2⟩ := fits_u11_cons h
    obtain ⟨l, rest, h3, h4⟩ := ih os h2
    exact ⟨_, _, by simp only [takeU11, hx, h3]; rfl, h4⟩

theorem fits_u11_append (l : List (BitVec 11)) (ks : List OperandKind) (os : List Operand)
    (h : blockFits ks os = true) :
    blockFits (List.replicate l.length .u11 ++ ks) (l.map (fun x => Operand.u11 x.toNat) ++ os) = true := by
  induction l with
  | nil => exact h
  | cons x l ih =>
    simp only [List.length_cons, List.replicate_succ, List.cons_append, List.map_cons, blockFits, Operand.fits, ih,
      Bool.and_true]
    simpa using x.isLt

end Sys2Proof
end

