-- ==== Sys2Proof/Laws/Num.lean ====
section
/-! SUPPORT. The small lemmas of the operations on `Num`: sign and magnitude, order, clamping, the scale of patterns, and
what rounding does. -/

namespace Sys2Proof.F32

/-! ### Sign and magnitude -/

theorem mag_lt (x : Num32) : mag x < 2 ^ 31 := Nat.mod_lt _ (by decide)

theorem toNat_ofSignMag (b : Bool) (m : Nat) :
    (ofSignMag b m).toNat = (if b then 2 ^ 31 else 0) + m % 2 ^ 31 := by
  have hm : m % 2 ^ 31 < 2 ^ 31 := Nat.mod_lt _ (by decide)
  unfold ofSignMag
  rw [BitVec.toNat_append, BitVec.toNat_ofNat, ← Nat.shiftLeft_add_eq_or_of_lt hm]
  cases b <;> simp [Nat.shiftLeft_eq]

theorem sign_eq (x : Num32) : sign x = decide (2 ^ 31 ≤ x.toNat) := by
  have hx := x.isLt
  simp only [sign, BitVec.getLsbD, Nat.testBit, Nat.shiftRight_eq_div_pow]
  rcases Nat.lt_or_ge x.toNat (2 ^ 31) with h | h
  · rw [Nat.div_eq_of_lt h]
    have : ¬ (2 ^ 31 ≤ x.toNat) := by omega
    simp only [this]
    decide
  · have : x.toNat / 2 ^ 31 = 1 := by omega
    simp only [this, h]
    decide

@[simp] theorem sign_ofSignMag (b : Bool) (m : Nat) : sign (ofSignMag b m) = b := by
  rw [sign_eq, toNat_ofSignMag]
  have hm : m % 2 ^ 31 < 2 ^ 31 := Nat.mod_lt _ (by decide)
  cases b
  · simp only [Bool.false_eq_true, if_false, decide_eq_false_iff_not]; omega
  · simp only [if_true, decide_eq_true_eq]; omega

theorem mag_ofSignMag (b : Bool) {m : Nat} (h : m < 2 ^ 31) : mag (ofSignMag b m) = m := by
  rw [mag, toNat_ofSignMag]
  cases b <;> simp <;> omega

/-- A pattern is its sign and its magnitude. -/
theorem ofSignMag_sign_mag (x : Num32) : ofSignMag (sign x) (mag x) = x := by
  apply BitVec.eq_of_toNat_eq
  rw [toNat_ofSignMag, sign_eq]
  have hx := x.isLt
  by_cases h : 2 ^ 31 ≤ x.toNat
  · simp only [h, decide_true, if_true, mag]; omega
  · simp only [h, decide_false, Bool.false_eq_true, if_false, mag]; omega

theorem ext_sign_mag {x y : Num32} (hs : sign x = sign y) (hm : mag x = mag y) : x = y := by
  rw [← ofSignMag_sign_mag x, ← ofSignMag_sign_mag y, hs, hm]

theorem neg_eq (x : Num32) : neg x = ofSignMag (!sign x) (mag x) := by
  apply BitVec.eq_of_getLsbD_eq
  intro i hi
  have h31 : (0x80000000#32).getLsbD i = decide (i = 31) := by
    have : ∀ j : Fin 32, (0x80000000#32).getLsbD j.val = decide (j.val = 31) := by decide
    exact this ⟨i, hi⟩
  rw [neg, BitVec.getLsbD_xor, h31, ofSignMag, BitVec.getLsbD_append]
  rcases Nat.lt_or_ge i 31 with h | h
  · have : ¬ i = 31 := by omega
    have hm : (mag x).testBit i = (decide (i < 31) && x.toNat.testBit i) := Nat.testBit_mod_two_pow _ _ _
    simp [h, this, BitVec.getLsbD, Nat.mod_eq_of_lt (show mag x < 2147483648 from mag_lt x), hm]
  · have : i = 31 := by omega
    subst this
    simp [sign]

theorem abs_eq (x : Num32) : abs x = ofSignMag false (mag x) := by
  apply BitVec.eq_of_getLsbD_eq
  intro i hi
  have h31 : (0x7FFFFFFF#32).getLsbD i = decide (i < 31) := by
    have : ∀ j : Fin 32, (0x7FFFFFFF#32).getLsbD j.val = decide (j.val < 31) := by decide
    exact this ⟨i, hi⟩
  rw [abs, BitVec.getLsbD_and, h31, ofSignMag, BitVec.getLsbD_append]
  rcases Nat.lt_or_ge i 31 with h | h
  · have hm : (mag x).testBit i = (decide (i < 31) && x.toNat.testBit i) := Nat.testBit_mod_two_pow _ _ _
    simp [h, BitVec.getLsbD, Nat.mod_eq_of_lt (show mag x < 2147483648 from mag_lt x), hm]
  · have : i = 31 := by omega
    subst this
    simp

@[simp] theorem sign_neg (x : Num32) : sign (neg x) = !sign x := by rw [neg_eq, sign_ofSignMag]

@[simp] theorem mag_neg (x : Num32) : mag (neg x) = mag x := by rw [neg_eq, mag_ofSignMag _ (mag_lt x)]

@[simp] theorem sign_abs (x : Num32) : sign (abs x) = false := by rw [abs_eq, sign_ofSignMag]

@[simp] theorem mag_abs (x : Num32) : mag (abs x) = mag x := by rw [abs_eq, mag_ofSignMag _ (mag_lt x)]

@[simp] theorem neg_neg (x : Num32) : neg (neg x) = x := ext_sign_mag (by simp) (by simp)

@[simp] theorem isNaN_neg (x : Num32) : isNaN (neg x) = isNaN x := by simp [isNaN]

@[simp] theorem isNaN_abs (x : Num32) : isNaN (abs x) = isNaN x := by simp [isNaN]

@[simp] theorem isInf_neg (x : Num32) : isInf (neg x) = isInf x := by simp [isInf]

@[simp] theorem isFinite_neg (x : Num32) : isFinite (neg x) = isFinite x := by simp [isFinite]

@[simp] theorem isZero_neg (x : Num32) : isZero (neg x) = isZero x := by simp [isZero]

@[simp] theorem units_neg (x : Num32) : units (neg x) = units x := by simp [units]

@[simp] theorem value_neg (x : Num32) : value (neg x) = -value x := by
  cases h : sign x <;> simp [value, h]

@[simp] theorem key_neg (x : Num32) : key (neg x) = -key x := by
  cases h : sign x <;> simp [key, h]

/-! ### Finite, infinite, NaN -/

theorem isFinite_iff {x : Num32} : isFinite x = true ↔ mag x < infMag := by simp [isFinite]

theorem not_nan_of_finite {x : Num32} (h : isFinite x = true) : isNaN x = false := by
  simp only [isFinite, isNaN, decide_eq_true_eq, decide_eq_false_iff_not] at *; omega

theorem not_inf_of_finite {x : Num32} (h : isFinite x = true) : isInf x = false := by
  simp only [isFinite, isInf, decide_eq_true_eq, beq_eq_false_iff_ne] at *; omega

/-- A value that is not NaN is finite or an infinity. -/
theorem finite_of_not_nan_not_inf {x : Num32} (h : isNaN x = false) (h' : isInf x = false) :
    isFinite x = true := by
  simp only [isFinite, isInf, isNaN, decide_eq_true_eq, decide_eq_false_iff_not, beq_eq_false_iff_ne] at *; omega

@[simp] theorem isNaN_nan : isNaN Config.nan = true := by decide

@[simp] theorem isNaN_inf (b : Bool) : isNaN (inf b) = false := by cases b <;> decide

@[simp] theorem isNaN_signedZero (b : Bool) : isNaN (signedZero b) = false := by cases b <;> decide

theorem roundMag_le (n d : Nat) : roundMag n d ≤ infMag := Nat.min_le_right _ _

theorem mag_roundUnits (b : Bool) (n d : Nat) : mag (roundUnits b n d) = roundMag n d :=
  mag_ofSignMag b (Nat.lt_of_le_of_lt (roundMag_le n d) (by decide))

@[simp] theorem sign_roundUnits (b : Bool) (n d : Nat) : sign (roundUnits b n d) = b := sign_ofSignMag _ _

/-- Rounding never makes a NaN. -/
@[simp] theorem isNaN_roundUnits (b : Bool) (n d : Nat) : isNaN (roundUnits b n d) = false := by
  have := roundMag_le n d
  simp only [isNaN, mag_roundUnits, decide_eq_false_iff_not]; omega

@[simp] theorem isNaN_ofInt (i : Int) : isNaN (ofInt i) = false := isNaN_roundUnits _ _ _

/-- A sum of two finite values is no NaN. -/
theorem isNaN_add_finite {a b : Num32} (ha : isFinite a = true) (hb : isFinite b = true) :
    isNaN (add a b) = false := by
  simp only [add, not_nan_of_finite ha, not_nan_of_finite hb, not_inf_of_finite ha, not_inf_of_finite hb, addFinite,
    Bool.or_self, Bool.and_self, Bool.false_eq_true, if_false]
  split <;> simp

/-- A product of two finite values is no NaN. -/
theorem isNaN_mul_finite {a b : Num32} (ha : isFinite a = true) (hb : isFinite b = true) :
    isNaN (mul a b) = false := by
  simp [mul, not_nan_of_finite ha, not_nan_of_finite hb, not_inf_of_finite ha, not_inf_of_finite hb]

/-- A quotient by a finite nonzero value is no NaN. -/
theorem isNaN_div {a b : Num32} (ha : isNaN a = false) (hb : isFinite b = true) (hz : isZero b = false) :
    isNaN (div a b) = false := by
  simp only [div, ha, not_nan_of_finite hb, not_inf_of_finite hb, hz]
  cases isInf a <;> simp

/-! ### Order -/

theorem lt_iff {a b : Num32} : lt a b = true ↔ isNaN a = false ∧ isNaN b = false ∧ key a < key b := by
  simp [lt, and_assoc]

theorem le_iff {a b : Num32} : le a b = true ↔ isNaN a = false ∧ isNaN b = false ∧ key a ≤ key b := by
  simp [le, and_assoc]

theorem gt_iff {a b : Num32} : gt a b = true ↔ isNaN a = false ∧ isNaN b = false ∧ key b < key a := by
  simp [gt, lt_iff, and_left_comm]

@[simp] theorem key_zero : key zero = 0 := by decide

@[simp] theorem isNaN_zero : isNaN zero = false := by decide

/-- All that `clamp` can give. -/
theorem clamp_cases (x lo hi : Num32) :
    (gt x hi = true ∧ clamp x lo hi = hi) ∨ (gt x hi = false ∧ lt x lo = true ∧ clamp x lo hi = lo) ∨
      (gt x hi = false ∧ lt x lo = false ∧ clamp x lo hi = x) := by
  unfold clamp
  cases gt x hi <;> cases lt x lo <;> simp

/-- A clamp between bounds that are no NaN keeps NaN out. -/
theorem isNaN_clamp {x lo hi : Num32} (hl : isNaN lo = false) (hh : isNaN hi = false) :
    isNaN (clamp x lo hi) = isNaN x := by
  rcases clamp_cases x lo hi with ⟨h, e⟩ | ⟨_, h, e⟩ | ⟨_, _, e⟩
  · rw [e, hh, (gt_iff.mp h).1]
  · rw [e, hl, (lt_iff.mp h).1]
  · rw [e]

/-! ### The scale of patterns -/

theorem unitsOfMag_of_scale {s m : Nat} (hm : m ≤ 2 ^ 24) (h : s = 0 ∨ 2 ^ 23 ≤ m) :
    unitsOfMag (s * 2 ^ 23 + m) = m * 2 ^ s := by
  unfold unitsOfMag
  rcases Nat.lt_or_ge m (2 ^ 23) with h1 | h1
  · have hs : s = 0 := by omega
    subst hs
    have e1 : (0 * 2 ^ 23 + m) / 2 ^ 23 = 0 := by omega
    have e2 : (0 * 2 ^ 23 + m) % 2 ^ 23 = m := by omega
    rw [if_pos e1, e2]; simp
  · rcases Nat.lt_or_ge m (2 ^ 24) with h2 | h2
    · have e1 : (s * 2 ^ 23 + m) / 2 ^ 23 = s + 1 := by omega
      have e2 : (s * 2 ^ 23 + m) % 2 ^ 23 = m - 2 ^ 23 := by omega
      rw [e1, e2, if_neg (by omega), show 2 ^ 23 + (m - 2 ^ 23) = m by omega, Nat.add_sub_cancel]
    · have e : m = 2 ^ 24 := by omega
      subst e
      have e1 : (s * 2 ^ 23 + 2 ^ 24) / 2 ^ 23 = s + 2 := by omega
      have e2 : (s * 2 ^ 23 + 2 ^ 24) % 2 ^ 23 = 0 := by omega
      rw [e1, e2, if_neg (by omega)]
      have : s + 2 - 1 = s + 1 := by omega
      rw [this, pow_succ]
      ring

/-- Every magnitude pattern is a shift and a significand. -/
theorem exists_scale (p : Nat) :
    ∃ s m, p = s * 2 ^ 23 + m ∧ m < 2 ^ 24 ∧ (s = 0 ∨ 2 ^ 23 ≤ m) ∧ unitsOfMag p = m * 2 ^ s := by
  rcases Nat.lt_or_ge p (2 ^ 23) with h | h
  · exact ⟨0, p, by omega, by omega, .inl rfl, by
      have := unitsOfMag_of_scale (s := 0) (m := p) (by omega) (.inl rfl)
      simpa using this⟩
  · refine ⟨p / 2 ^ 23 - 1, 2 ^ 23 + p % 2 ^ 23, by omega, by omega, .inr (by omega), ?_⟩
    have := unitsOfMag_of_scale (s := p / 2 ^ 23 - 1) (m := 2 ^ 23 + p % 2 ^ 23) (by omega) (.inr (by omega))
    rwa [show (p / 2 ^ 23 - 1) * 2 ^ 23 + (2 ^ 23 + p % 2 ^ 23) = p by omega] at this

/-- A greater pattern is worth more. -/
theorem unitsOfMag_strictMono : StrictMono unitsOfMag := by
  apply strictMono_nat_of_lt_succ
  intro p
  obtain ⟨s, m, hp, hm, hs, hu⟩ := exists_scale p
  have e : unitsOfMag (p + 1) = (m + 1) * 2 ^ s := by
    rw [hp, Nat.add_assoc]
    exact unitsOfMag_of_scale (by omega) (by omega)
  rw [hu, e]
  exact Nat.mul_lt_mul_of_pos_right (Nat.lt_succ_self m) (Nat.two_pow_pos s)

theorem unitsOfMag_zero : unitsOfMag 0 = 0 := by decide

/-- Finite values are ordered as their keys are. -/
theorem value_le_value_iff {a b : Num32} : value a ≤ value b ↔ key a ≤ key b := by
  have h0 : ∀ m, unitsOfMag m = 0 ↔ m = 0 := fun m => by
    rw [← unitsOfMag_zero]; exact unitsOfMag_strictMono.injective.eq_iff
  have hle : ∀ m k, unitsOfMag m ≤ unitsOfMag k ↔ m ≤ k := fun m k => unitsOfMag_strictMono.le_iff_le
  have ha := h0 (mag a)
  have hb := h0 (mag b)
  have h1 := hle (mag a) (mag b)
  have h2 := hle (mag b) (mag a)
  unfold value key units
  cases sign a <;> cases sign b <;> simp only [Bool.false_eq_true, if_false, if_true] <;> omega

theorem value_lt_value_iff {a b : Num32} : value a < value b ↔ key a < key b := by
  rw [← not_le, ← not_le, value_le_value_iff]

/-! ### Rounding -/

/-- `roundDiv` is within half a step. -/
theorem roundDiv_near {n d : Nat} (hd : 0 < d) :
    2 * (roundDiv n d * d) ≤ 2 * n + d ∧ 2 * n ≤ 2 * (roundDiv n d * d) + d := by
  have h := Nat.div_add_mod n d
  have hr := Nat.mod_lt n hd
  have e : d * (n / d) = n / d * d := Nat.mul_comm _ _
  unfold roundDiv
  simp only
  split
  · rw [Nat.add_mul, Nat.one_mul]; omega
  · omega

/-- On a tie `roundDiv` is even. -/
theorem roundDiv_even {n d : Nat} (hd : 0 < d)
    (h : 2 * (roundDiv n d * d) = 2 * n + d ∨ 2 * n = 2 * (roundDiv n d * d) + d) : roundDiv n d % 2 = 0 := by
  have h1 := Nat.div_add_mod n d
  have hr := Nat.mod_lt n hd
  have e : d * (n / d) = n / d * d := Nat.mul_comm _ _
  unfold roundDiv at h ⊢
  simp only at h ⊢
  split
  · rename_i hc
    rw [if_pos hc, Nat.add_mul, Nat.one_mul] at h
    omega
  · rename_i hc
    rw [if_neg hc] at h
    omega

/-- The significand of `roundMag` is in its range. -/
theorem roundDiv_scale {n d : Nat} (hd : 0 < d) :
    roundDiv n (d * 2 ^ scaleOf n d) ≤ 2 ^ 24 ∧ (scaleOf n d = 0 ∨ 2 ^ 23 ≤ roundDiv n (d * 2 ^ scaleOf n d)) ∧
      (scaleOf n d = 0 ∨ d * 2 ^ (23 + scaleOf n d) ≤ n) := by
  have hD : 0 < d * 2 ^ scaleOf n d := Nat.mul_pos hd (Nat.two_pow_pos _)
  have hr : roundDiv n (d * 2 ^ scaleOf n d) = n / d / 2 ^ scaleOf n d ∨
      roundDiv n (d * 2 ^ scaleOf n d) = n / d / 2 ^ scaleOf n d + 1 := by
    rw [Nat.div_div_eq_div_mul]
    unfold roundDiv
    simp only
    split
    · exact .inr rfl
    · exact .inl rfl
  have hlog : n / d < 2 ^ (24 + scaleOf n d) := by
    have h1 : n / d < 2 ^ (Nat.log2 (n / d) + 1) := Nat.lt_log2_self
    exact lt_of_lt_of_le h1 (Nat.pow_le_pow_right (by decide) (by unfold scaleOf; omega))
  have hup : n / d / 2 ^ scaleOf n d < 2 ^ 24 := by
    rw [Nat.div_lt_iff_lt_mul (Nat.two_pow_pos _), ← pow_add]; exact hlog
  have hlow : scaleOf n d = 0 ∨ 2 ^ (23 + scaleOf n d) ≤ n / d := by
    rcases Nat.eq_zero_or_pos (scaleOf n d) with h | h
    · exact .inl h
    · right
      have hne : n / d ≠ 0 := by
        intro h0
        simp [scaleOf, h0] at h
      have : 2 ^ Nat.log2 (n / d) ≤ n / d := Nat.log2_self_le hne
      refine le_trans (Nat.pow_le_pow_right (by decide) ?_) this
      unfold scaleOf at h ⊢
      omega
  refine ⟨by omega, ?_, ?_⟩
  · rcases hlow with h | h
    · exact .inl h
    · right
      have : 2 ^ 23 ≤ n / d / 2 ^ scaleOf n d := by
        rw [Nat.le_div_iff_mul_le (Nat.two_pow_pos _), ← pow_add]; exact h
      omega
  · rcases hlow with h | h
    · exact .inl h
    · right
      rw [Nat.mul_comm]
      exact (Nat.le_div_iff_mul_le hd).mp h

/-- What the rounded pattern is worth, below the overflow threshold. -/
theorem unitsOfMag_roundMag {n d : Nat} (hd : 0 < d) (h : roundMag n d < infMag) :
    unitsOfMag (roundMag n d) = roundDiv n (d * 2 ^ scaleOf n d) * 2 ^ scaleOf n d := by
  obtain ⟨h1, h2, _⟩ := roundDiv_scale (n := n) hd
  unfold roundMag at h ⊢
  simp only at h ⊢
  rw [Nat.min_eq_left (by omega)]
  exact unitsOfMag_of_scale h1 h2

/-- On its grid `roundDiv` is nearest, and even on a tie with another point. -/
theorem roundDiv_nearest {n d : Nat} (hd : 0 < d) (k : Nat) :
    |(roundDiv n d * d : Int) - n| ≤ |(k * d : Int) - n| ∧
      (|(roundDiv n d * d : Int) - n| = |(k * d : Int) - n| → k ≠ roundDiv n d → roundDiv n d % 2 = 0) := by
  obtain ⟨h1, h2⟩ := roundDiv_near (n := n) hd
  have heven := roundDiv_even (n := n) hd
  generalize roundDiv n d = m at *
  have h1' : 2 * ((m * d : Int)) ≤ 2 * n + d := by exact_mod_cast h1
  have h2' : 2 * (n : Int) ≤ 2 * (m * d : Int) + d := by exact_mod_cast h2
  have hd' : (0 : Int) < d := by exact_mod_cast hd
  rcases Nat.lt_trichotomy k m with h | h | h
  · have hk : (k * d : Int) + d ≤ m * d := by
      have := Nat.mul_le_mul_right d (Nat.succ_le_of_lt h)
      rw [Nat.succ_mul] at this
      exact_mod_cast this
    refine ⟨by rcases abs_cases ((m * d : Int) - n) with ⟨e, _⟩ | ⟨e, _⟩ <;>
      rcases abs_cases ((k * d : Int) - n) with ⟨e', _⟩ | ⟨e', _⟩ <;> omega, fun he _ => heven ?_⟩
    left
    have : 2 * (m * d : Int) = 2 * n + d := by
      rcases abs_cases ((m * d : Int) - n) with ⟨e, _⟩ | ⟨e, _⟩ <;>
        rcases abs_cases ((k * d : Int) - n) with ⟨e', _⟩ | ⟨e', _⟩ <;> omega
    exact_mod_cast this
  · subst h
    exact ⟨le_refl _, fun _ hne => absurd rfl hne⟩
  · have hk : (m * d : Int) + d ≤ k * d := by
      have := Nat.mul_le_mul_right d (Nat.succ_le_of_lt h)
      rw [Nat.succ_mul] at this
      exact_mod_cast this
    refine ⟨by rcases abs_cases ((m * d : Int) - n) with ⟨e, _⟩ | ⟨e, _⟩ <;>
      rcases abs_cases ((k * d : Int) - n) with ⟨e', _⟩ | ⟨e', _⟩ <;> omega, fun he _ => heven ?_⟩
    right
    have : 2 * (n : Int) = 2 * (m * d : Int) + d := by
      rcases abs_cases ((m * d : Int) - n) with ⟨e, _⟩ | ⟨e, _⟩ <;>
        rcases abs_cases ((k * d : Int) - n) with ⟨e', _⟩ | ⟨e', _⟩ <;> omega
    exact_mod_cast this

/-- `roundMag` below the overflow threshold is nearest among all patterns, and even on a tie with another one. -/
theorem roundMag_nearest {n d : Nat} (hd : 0 < d) (h : roundMag n d < infMag) (p : Nat) :
    |(unitsOfMag (roundMag n d) * d : Int) - n| ≤ |(unitsOfMag p * d : Int) - n| ∧
      (|(unitsOfMag (roundMag n d) * d : Int) - n| = |(unitsOfMag p * d : Int) - n| → p ≠ roundMag n d →
        roundMag n d % 2 = 0) := by
  obtain ⟨hm, hm', hn⟩ := roundDiv_scale (n := n) hd
  have hr := unitsOfMag_roundMag hd h
  have hmag : roundMag n d = scaleOf n d * 2 ^ 23 + roundDiv n (d * 2 ^ scaleOf n d) := by
    unfold roundMag at h ⊢
    simp only at h ⊢
    exact Nat.min_eq_left (by omega)
  have hD : 0 < d * 2 ^ scaleOf n d := Nat.mul_pos hd (Nat.two_pow_pos _)
  have hgrid := roundDiv_nearest (n := n) hD
  generalize hs : scaleOf n d = s at *
  generalize hg : roundDiv n (d * 2 ^ s) = m at *
  have er : (unitsOfMag (roundMag n d) * d : Int) = (m * (d * 2 ^ s : Nat) : Int) := by
    rw [hr]; push_cast; ring
  obtain ⟨s', m', hp, hm'lt, hs', hu⟩ := exists_scale p
  rcases Nat.lt_or_ge s' s with hlt | hge
  · have hs0 : s ≠ 0 := by omega
    have hlow : d * 2 ^ (23 + s) ≤ n := hn.resolve_left hs0
    have hu2 : unitsOfMag p < 2 ^ (23 + s) := by
      rw [hu]
      calc m' * 2 ^ s' < 2 ^ 24 * 2 ^ s' := Nat.mul_lt_mul_of_pos_right hm'lt (Nat.two_pow_pos _)
        _ = 2 ^ (24 + s') := (pow_add 2 24 s').symm
        _ ≤ 2 ^ (23 + s) := Nat.pow_le_pow_right (by decide) (by omega)
    have hud : unitsOfMag p * d < d * 2 ^ (23 + s) := by
      rw [Nat.mul_comm]; exact Nat.mul_lt_mul_of_pos_left hu2 hd
    obtain ⟨hg1, _⟩ := hgrid (2 ^ 23)
    have e23 : ((2 ^ 23 : Nat) * (d * 2 ^ s : Nat) : Int) = (d * 2 ^ (23 + s) : Nat) := by
      rw [pow_add]; push_cast; ring
    rw [e23] at hg1
    have hlow' : ((d * 2 ^ (23 + s) : Nat) : Int) ≤ n := by exact_mod_cast hlow
    have hud' : (unitsOfMag p * d : Int) < ((d * 2 ^ (23 + s) : Nat) : Int) := by exact_mod_cast hud
    rw [er]
    have a1 : |((d * 2 ^ (23 + s) : Nat) : Int) - n| = n - ((d * 2 ^ (23 + s) : Nat) : Int) := by
      rw [abs_of_nonpos (by omega)]; omega
    have a2 : |(unitsOfMag p * d : Int) - n| = n - (unitsOfMag p * d : Int) := by
      rw [abs_of_nonpos (by omega)]; omega
    rw [a1] at hg1
    rw [a2]
    exact ⟨by omega, fun he _ => by omega⟩
  · have ek : (unitsOfMag p * d : Int) = ((m' * 2 ^ (s' - s) : Nat) * (d * 2 ^ s : Nat) : Int) := by
      rw [hu]
      have : 2 ^ s' = 2 ^ (s' - s) * 2 ^ s := by rw [← pow_add, Nat.sub_add_cancel hge]
      rw [this]; push_cast; ring
    obtain ⟨hg1, hg2⟩ := hgrid (m' * 2 ^ (s' - s))
    rw [er, ek]
    refine ⟨hg1, fun he hne => ?_⟩
    have hk : m' * 2 ^ (s' - s) ≠ m := by
      intro e
      apply hne
      apply unitsOfMag_strictMono.injective
      rw [hr, hu, ← e, Nat.mul_assoc, ← pow_add, Nat.sub_add_cancel hge]
    have := hg2 he hk
    omega

end Sys2Proof.F32
end

