-- ==== Sys2Proof/Laws/State.lean ====
section
/-! SUPPORT. One lemma per field and update of the state, true by rfl, so that no proof unfolds a record update. -/

namespace Sys2Proof.Machine

variable {N : Nat}

@[simp] theorem respond_tel (r : Response) (s : State N) : (respond r s).tel = s.tel := rfl
@[simp] theorem respond_cmd (r : Response) (s : State N) : (respond r s).cmd = s.cmd := rfl
@[simp] theorem respond_pst (r : Response) (s : State N) : (respond r s).pst = s.pst := rfl
@[simp] theorem respond_pcf (r : Response) (s : State N) : (respond r s).pcf = s.pcf := rfl
@[simp] theorem respond_codec (r : Response) (s : State N) : (respond r s).codec = s.codec := rfl
@[simp] theorem respond_fault (r : Response) (s : State N) : (respond r s).fault = s.fault := rfl
@[simp] theorem respond_inbox (r : Response) (s : State N) : (respond r s).inbox = s.inbox := rfl
@[simp] theorem respond_port (r : Response) (s : State N) : (respond r s).port = s.port := rfl
@[simp] theorem respond_word (r : Response) (s : State N) : (respond r s).word = s.word := rfl
@[simp] theorem respond_rsp (r : Response) (s : State N) : (respond r s).rsp = putResponse s.port r s.rsp := rfl

@[simp] theorem raiseFault_tel (c : Cause) (s : State N) : (raiseFault c s).tel = s.tel := rfl
@[simp] theorem raiseFault_cmd (c : Cause) (s : State N) : (raiseFault c s).cmd = s.cmd := rfl
@[simp] theorem raiseFault_pst (c : Cause) (s : State N) : (raiseFault c s).pst = s.pst := rfl
@[simp] theorem raiseFault_pcf (c : Cause) (s : State N) : (raiseFault c s).pcf = s.pcf := rfl
@[simp] theorem raiseFault_codec (c : Cause) (s : State N) : (raiseFault c s).codec = s.codec := rfl
@[simp] theorem raiseFault_fault (c : Cause) (s : State N) : (raiseFault c s).fault = ⟨true, causeCode c, s.word, portCode s.port⟩ := rfl
@[simp] theorem raiseFault_inbox (c : Cause) (s : State N) : (raiseFault c s).inbox = s.inbox := rfl
@[simp] theorem raiseFault_port (c : Cause) (s : State N) : (raiseFault c s).port = s.port := rfl
@[simp] theorem raiseFault_word (c : Cause) (s : State N) : (raiseFault c s).word = s.word := rfl
@[simp] theorem raiseFault_rsp (c : Cause) (s : State N) : (raiseFault c s).rsp = putResponse s.port .fault s.rsp := rfl

@[simp] theorem writeTel_tel (k : Fin N) (t : Tel) (s : State N) : (writeTel k t s).tel = s.tel.set k t := rfl
@[simp] theorem writeTel_cmd (k : Fin N) (t : Tel) (s : State N) : (writeTel k t s).cmd = s.cmd := rfl
@[simp] theorem writeTel_pst (k : Fin N) (t : Tel) (s : State N) : (writeTel k t s).pst = s.pst := rfl
@[simp] theorem writeTel_pcf (k : Fin N) (t : Tel) (s : State N) : (writeTel k t s).pcf = s.pcf := rfl
@[simp] theorem writeTel_codec (k : Fin N) (t : Tel) (s : State N) : (writeTel k t s).codec = s.codec := rfl
@[simp] theorem writeTel_fault (k : Fin N) (t : Tel) (s : State N) : (writeTel k t s).fault = s.fault := rfl
@[simp] theorem writeTel_inbox (k : Fin N) (t : Tel) (s : State N) : (writeTel k t s).inbox = s.inbox := rfl
@[simp] theorem writeTel_port (k : Fin N) (t : Tel) (s : State N) : (writeTel k t s).port = s.port := rfl
@[simp] theorem writeTel_word (k : Fin N) (t : Tel) (s : State N) : (writeTel k t s).word = s.word := rfl
@[simp] theorem writeTel_rsp (k : Fin N) (t : Tel) (s : State N) : (writeTel k t s).rsp = s.rsp := rfl

@[simp] theorem writeCmd_tel (k : Fin N) (c : Cmd) (s : State N) : (writeCmd k c s).tel = s.tel := rfl
@[simp] theorem writeCmd_cmd (k : Fin N) (c : Cmd) (s : State N) : (writeCmd k c s).cmd = s.cmd.set k c := rfl
@[simp] theorem writeCmd_pst (k : Fin N) (c : Cmd) (s : State N) : (writeCmd k c s).pst = s.pst := rfl
@[simp] theorem writeCmd_pcf (k : Fin N) (c : Cmd) (s : State N) : (writeCmd k c s).pcf = s.pcf := rfl
@[simp] theorem writeCmd_codec (k : Fin N) (c : Cmd) (s : State N) : (writeCmd k c s).codec = s.codec := rfl
@[simp] theorem writeCmd_fault (k : Fin N) (c : Cmd) (s : State N) : (writeCmd k c s).fault = s.fault := rfl
@[simp] theorem writeCmd_inbox (k : Fin N) (c : Cmd) (s : State N) : (writeCmd k c s).inbox = s.inbox := rfl
@[simp] theorem writeCmd_port (k : Fin N) (c : Cmd) (s : State N) : (writeCmd k c s).port = s.port := rfl
@[simp] theorem writeCmd_word (k : Fin N) (c : Cmd) (s : State N) : (writeCmd k c s).word = s.word := rfl
@[simp] theorem writeCmd_rsp (k : Fin N) (c : Cmd) (s : State N) : (writeCmd k c s).rsp = s.rsp := rfl

@[simp] theorem writePst_tel (k : Fin N) (p : Pst) (s : State N) : (writePst k p s).tel = s.tel := rfl
@[simp] theorem writePst_cmd (k : Fin N) (p : Pst) (s : State N) : (writePst k p s).cmd = s.cmd := rfl
@[simp] theorem writePst_pst (k : Fin N) (p : Pst) (s : State N) : (writePst k p s).pst = s.pst.set k p := rfl
@[simp] theorem writePst_pcf (k : Fin N) (p : Pst) (s : State N) : (writePst k p s).pcf = s.pcf := rfl
@[simp] theorem writePst_codec (k : Fin N) (p : Pst) (s : State N) : (writePst k p s).codec = s.codec := rfl
@[simp] theorem writePst_fault (k : Fin N) (p : Pst) (s : State N) : (writePst k p s).fault = s.fault := rfl
@[simp] theorem writePst_inbox (k : Fin N) (p : Pst) (s : State N) : (writePst k p s).inbox = s.inbox := rfl
@[simp] theorem writePst_port (k : Fin N) (p : Pst) (s : State N) : (writePst k p s).port = s.port := rfl
@[simp] theorem writePst_word (k : Fin N) (p : Pst) (s : State N) : (writePst k p s).word = s.word := rfl
@[simp] theorem writePst_rsp (k : Fin N) (p : Pst) (s : State N) : (writePst k p s).rsp = s.rsp := rfl

@[simp] theorem writePcf_tel (k : Fin N) (p : Pcf) (s : State N) : (writePcf k p s).tel = s.tel := rfl
@[simp] theorem writePcf_cmd (k : Fin N) (p : Pcf) (s : State N) : (writePcf k p s).cmd = s.cmd := rfl
@[simp] theorem writePcf_pst (k : Fin N) (p : Pcf) (s : State N) : (writePcf k p s).pst = s.pst := rfl
@[simp] theorem writePcf_pcf (k : Fin N) (p : Pcf) (s : State N) : (writePcf k p s).pcf = s.pcf.set k p := rfl
@[simp] theorem writePcf_codec (k : Fin N) (p : Pcf) (s : State N) : (writePcf k p s).codec = s.codec := rfl
@[simp] theorem writePcf_fault (k : Fin N) (p : Pcf) (s : State N) : (writePcf k p s).fault = s.fault := rfl
@[simp] theorem writePcf_inbox (k : Fin N) (p : Pcf) (s : State N) : (writePcf k p s).inbox = s.inbox := rfl
@[simp] theorem writePcf_port (k : Fin N) (p : Pcf) (s : State N) : (writePcf k p s).port = s.port := rfl
@[simp] theorem writePcf_word (k : Fin N) (p : Pcf) (s : State N) : (writePcf k p s).word = s.word := rfl
@[simp] theorem writePcf_rsp (k : Fin N) (p : Pcf) (s : State N) : (writePcf k p s).rsp = s.rsp := rfl

@[simp] theorem writeCodec_tel (c : Codec (Config.groups N)) (s : State N) : (writeCodec c s).tel = s.tel := rfl
@[simp] theorem writeCodec_cmd (c : Codec (Config.groups N)) (s : State N) : (writeCodec c s).cmd = s.cmd := rfl
@[simp] theorem writeCodec_pst (c : Codec (Config.groups N)) (s : State N) : (writeCodec c s).pst = s.pst := rfl
@[simp] theorem writeCodec_pcf (c : Codec (Config.groups N)) (s : State N) : (writeCodec c s).pcf = s.pcf := rfl
@[simp] theorem writeCodec_codec (c : Codec (Config.groups N)) (s : State N) : (writeCodec c s).codec = c := rfl
@[simp] theorem writeCodec_fault (c : Codec (Config.groups N)) (s : State N) : (writeCodec c s).fault = s.fault := rfl
@[simp] theorem writeCodec_inbox (c : Codec (Config.groups N)) (s : State N) : (writeCodec c s).inbox = s.inbox := rfl
@[simp] theorem writeCodec_port (c : Codec (Config.groups N)) (s : State N) : (writeCodec c s).port = s.port := rfl
@[simp] theorem writeCodec_word (c : Codec (Config.groups N)) (s : State N) : (writeCodec c s).word = s.word := rfl
@[simp] theorem writeCodec_rsp (c : Codec (Config.groups N)) (s : State N) : (writeCodec c s).rsp = s.rsp := rfl

@[simp] theorem latch_tel (q : Port) (c : Command) (s : State N) : (latch q c s).tel = s.tel := rfl
@[simp] theorem latch_cmd (q : Port) (c : Command) (s : State N) : (latch q c s).cmd = s.cmd := rfl
@[simp] theorem latch_pst (q : Port) (c : Command) (s : State N) : (latch q c s).pst = s.pst := rfl
@[simp] theorem latch_pcf (q : Port) (c : Command) (s : State N) : (latch q c s).pcf = s.pcf := rfl
@[simp] theorem latch_codec (q : Port) (c : Command) (s : State N) : (latch q c s).codec = s.codec := rfl
@[simp] theorem latch_fault (q : Port) (c : Command) (s : State N) : (latch q c s).fault = s.fault := rfl
@[simp] theorem latch_inbox (q : Port) (c : Command) (s : State N) : (latch q c s).inbox = s.inbox := rfl
@[simp] theorem latch_port (q : Port) (c : Command) (s : State N) : (latch q c s).port = q := rfl
@[simp] theorem latch_word (q : Port) (c : Command) (s : State N) : (latch q c s).word = c.word := rfl
@[simp] theorem latch_rsp (q : Port) (c : Command) (s : State N) : (latch q c s).rsp = s.rsp := rfl

@[simp] theorem resetBlock_tel (s : State N) : (resetBlock s).tel = (State.resetOf N).tel := rfl
@[simp] theorem resetBlock_cmd (s : State N) : (resetBlock s).cmd = (State.resetOf N).cmd := rfl
@[simp] theorem resetBlock_pst (s : State N) : (resetBlock s).pst = (State.resetOf N).pst := rfl
@[simp] theorem resetBlock_pcf (s : State N) : (resetBlock s).pcf = (State.resetOf N).pcf := rfl
@[simp] theorem resetBlock_codec (s : State N) : (resetBlock s).codec = (State.resetOf N).codec := rfl
@[simp] theorem resetBlock_fault (s : State N) : (resetBlock s).fault = (State.resetOf N).fault := rfl
@[simp] theorem resetBlock_inbox (s : State N) : (resetBlock s).inbox = s.inbox := rfl
@[simp] theorem resetBlock_port (s : State N) : (resetBlock s).port = (State.resetOf N).port := rfl
@[simp] theorem resetBlock_word (s : State N) : (resetBlock s).word = (State.resetOf N).word := rfl
@[simp] theorem resetBlock_rsp (s : State N) : (resetBlock s).rsp = (State.resetOf N).rsp := rfl

@[simp] theorem withFetchWord_tel (s : State) (nbits w : Nat) : (s.withFetchWord nbits w).tel = s.tel := rfl
@[simp] theorem withFetchWord_cmd (s : State) (nbits w : Nat) : (s.withFetchWord nbits w).cmd = s.cmd := rfl
@[simp] theorem withFetchWord_pst (s : State) (nbits w : Nat) : (s.withFetchWord nbits w).pst = s.pst := rfl
@[simp] theorem withFetchWord_pcf (s : State) (nbits w : Nat) : (s.withFetchWord nbits w).pcf = s.pcf := rfl
@[simp] theorem withFetchWord_codec (s : State) (nbits w : Nat) : (s.withFetchWord nbits w).codec = s.codec := rfl
@[simp] theorem withFetchWord_fault (s : State) (nbits w : Nat) : (s.withFetchWord nbits w).fault = s.fault := rfl
@[simp] theorem withFetchWord_inbox (s : State) (nbits w : Nat) : (s.withFetchWord nbits w).inbox = tableRequest nbits w :: s.inbox := rfl
@[simp] theorem withFetchWord_port (s : State) (nbits w : Nat) : (s.withFetchWord nbits w).port = s.port := rfl
@[simp] theorem withFetchWord_word (s : State) (nbits w : Nat) : (s.withFetchWord nbits w).word = s.word := rfl
@[simp] theorem withFetchWord_rsp (s : State) (nbits w : Nat) : (s.withFetchWord nbits w).rsp = s.rsp := rfl

@[simp] theorem responseAt_putResponse (q : Port) (r : Response) (o : Outputs) :
    responseAt q (putResponse q r o) = some r := by cases q <;> rfl

theorem responseAt_putResponse_ne {q q' : Port} (h : q' ≠ q) (r : Response) (o : Outputs) :
    responseAt q' (putResponse q r o) = responseAt q' o := by
  cases q <;> cases q' <;> first | rfl | exact absurd rfl h

@[simp] theorem putResponse_putResponse (q : Port) (r r' : Response) (o : Outputs) :
    putResponse q r (putResponse q r' o) = putResponse q r o := by cases q <;> rfl

theorem putResponse_comm {q q' : Port} (h : q ≠ q') (r r' : Response) (o : Outputs) :
    putResponse q r (putResponse q' r' o) = putResponse q' r' (putResponse q r o) := by
  cases q <;> cases q' <;> first | rfl | exact absurd rfl h

end Sys2Proof.Machine
end

