-- ==== Sys2Proof/Laws/Ops.lean ====
section
/-! SUPPORT. For each shared operation, once, all it can do: the provers cite these instead of unfolding it. -/

namespace Sys2Proof.Machine

variable {N : Nat}

section accept
variable {legal : List Port} {s t : State N} {go : Result N}

theorem accept_halted (h : s.fault.halt = true) : accept legal s go = .next (respond .halted s) := by
  simp [accept, h]

theorem accept_legal (h : s.fault.halt = false) (hp : legal.contains s.port = true) : accept legal s go = go := by
  unfold accept
  rw [if_neg (by simp [h]), if_pos hp]

theorem accept_wrongPort (h : s.fault.halt = false) (hp : legal.contains s.port = false) :
    accept legal s go = .next (raiseFault .illegalOp s) := by
  unfold accept
  rw [if_neg (by simp [h]), if_neg (by rw [hp]; decide)]

/-- All that `accept` can do. -/
theorem accept_next (h : accept legal s go = .next t) :
    (s.fault.halt = true ∧ t = respond .halted s) ∨
    (s.fault.halt = false ∧ legal.contains s.port = false ∧ t = raiseFault .illegalOp s) ∨
    (s.fault.halt = false ∧ legal.contains s.port = true ∧ go = .next t) := by
  cases hh : s.fault.halt with
  | true =>
    rw [accept_halted hh] at h
    exact .inl ⟨rfl, (Host.Outcome.next.inj h).symm⟩
  | false =>
    cases hp : legal.contains s.port with
    | false =>
      rw [accept_wrongPort hh hp] at h
      exact .inr (.inl ⟨rfl, rfl, (Host.Outcome.next.inj h).symm⟩)
    | true =>
      rw [accept_legal hh hp] at h
      exact .inr (.inr ⟨rfl, rfl, h⟩)

end accept

section require
variable {ok : Bool} {c : Cause} {s t : State N} {go : Result N}

@[simp] theorem require_true : require true c s go = go := rfl

@[simp] theorem require_false : require false c s go = .next (raiseFault c s) := rfl

/-- All that `require` can do. -/
theorem require_next (h : require ok c s go = .next t) :
    (ok = false ∧ t = raiseFault c s) ∨ (ok = true ∧ go = .next t) := by
  cases ok with
  | false => exact .inl ⟨rfl, (Host.Outcome.next.inj h).symm⟩
  | true => exact .inr ⟨rfl, h⟩

end require

section withSlot
variable {id : BitVec 8} {s t : State N} {go : Fin N → Result N} {k : Fin N}

theorem withSlot_some (h : slotOf id = some k) : withSlot id s go = go k := by simp [withSlot, h]

theorem withSlot_none (h : (slotOf id : Option (Fin N)) = none) : withSlot id s go = .next (raiseFault .badId s) := by
  simp [withSlot, h]

/-- All that `withSlot` can do. -/
theorem withSlot_next (h : withSlot id s go = .next t) :
    ((slotOf id : Option (Fin N)) = none ∧ t = raiseFault .badId s) ∨ (∃ k, slotOf id = some k ∧ go k = .next t) := by
  cases hk : slotOf id with
  | none =>
    rw [withSlot_none hk] at h
    exact .inl ⟨rfl, (Host.Outcome.next.inj h).symm⟩
  | some k =>
    rw [withSlot_some hk] at h
    exact .inr ⟨k, rfl, h⟩

end withSlot

/-- All that `answer` can do. -/
theorem answer_next {r : Results} {s t : State N} (h : answer r s = .next t) : t = respond (.ok r) s :=
  (Host.Outcome.next.inj h).symm

theorem slotOf_eq_some {id : BitVec 8} {k : Fin N} : slotOf id = some k ↔ id.toNat = k.val + 1 := by
  unfold slotOf
  split
  · rename_i h
    constructor
    · intro e
      have := congrArg Fin.val (Option.some.inj e)
      simp only at this
      omega
    · intro e
      congr 1
      apply Fin.ext
      simp only
      omega
  · rename_i h
    constructor
    · intro e; cases e
    · intro e
      have := k.isLt
      exact absurd ⟨by omega, by omega⟩ h

theorem slotOf_eq_none {id : BitVec 8} : (slotOf id : Option (Fin N)) = none ↔ id.toNat = 0 ∨ N < id.toNat := by
  unfold slotOf
  split
  · rename_i h
    constructor
    · intro e; cases e
    · intro e; omega
  · rename_i h
    constructor
    · intro _; omega
    · intro _; rfl

theorem rxSlotOf_eq_some {fid base : BitVec 11} {k : Fin N} :
    rxSlotOf fid base = some k ↔ fid.toNat = base.toNat + k.val + 1 := by
  unfold rxSlotOf
  simp only
  split
  · rename_i h
    constructor
    · intro e
      have := congrArg Fin.val (Option.some.inj e)
      simp only at this
      omega
    · intro e
      congr 1
      apply Fin.ext
      simp only
      omega
  · rename_i h
    constructor
    · intro e; cases e
    · intro e
      have := k.isLt
      exact absurd ⟨by omega, by omega⟩ h

theorem rxSlotOf_eq_none {fid base : BitVec 11} :
    (rxSlotOf fid base : Option (Fin N)) = none ↔ fid.toNat ≤ base.toNat ∨ base.toNat + N < fid.toNat := by
  unfold rxSlotOf
  simp only
  split
  · rename_i h
    constructor
    · intro e; cases e
    · intro e; omega
  · rename_i h
    constructor
    · intro _; omega
    · intro _; rfl

/-- Reading one slot after a write of one slot. -/
theorem get_set {α : Type} (v : Vector α N) (k j : Fin N) (x : α) :
    (v.set k x)[j] = if j = k then x else v[j] := by
  simp only [Fin.getElem_fin, Vector.getElem_set, Fin.ext_iff, eq_comm]

@[simp] theorem get_set_same {α : Type} (v : Vector α N) (k : Fin N) (x : α) : (v.set k x)[k] = x := by
  rw [get_set, if_pos rfl]

theorem get_set_ne {α : Type} (v : Vector α N) {k j : Fin N} (h : j ≠ k) (x : α) : (v.set k x)[j] = v[j] := by
  rw [get_set, if_neg h]

/-- All that taking the next event can do. -/
theorem nextEvent_cons {s : State N} {e : Event} {rest : List Event} (h : s.inbox = e :: rest) :
    nextEvent s = some (e, { s with inbox := rest }) := by simp [nextEvent, h]

theorem nextEvent_nil {s : State N} (h : s.inbox = []) : nextEvent s = none := by simp [nextEvent, h]

section serve
variable {run : Instr → State N → Result N} {s : State N} {rest : List Event}

theorem serve_idle (h : s.inbox = []) : serve run s = .next s := by simp [serve, nextEvent_nil h]

theorem serve_reset (h : s.inbox = .reset :: rest) : serve run s = .next { State.resetOf N with inbox := rest } := by
  simp [serve, nextEvent_cons h, resetBlock]

/-- All that serving a request can do: an instruction runs, or the command is turned away by name. -/
theorem serve_request {q : Port} {c : Command} (h : s.inbox = .request q c :: rest) :
    serve run s = match decode (Config.groups N) c with
      | .ok i => run i (latch q c { s with inbox := rest })
      | .error e => rejected e (latch q c { s with inbox := rest }) := by
  cases hd : decode (Config.groups N) c <;> simp only [serve, nextEvent_cons h, hd]

end serve

theorem step_idle {s : State} (h : s.inbox = []) : step s = .next s := serve_idle h

theorem step_reset {s : State} {rest : List Event} (h : s.inbox = .reset :: rest) :
    step s = .next { State.reset with inbox := rest } := serve_reset h

/-- All that a request can do: an instruction runs, or the command is turned away by name. -/
theorem step_request {s : State} {q : Port} {c : Command} {rest : List Event}
    (h : s.inbox = .request q c :: rest) :
    step s = match decode Config.G c with
      | .ok i => exec i (latch q c { s with inbox := rest })
      | .error e => rejected e (latch q c { s with inbox := rest }) := serve_request h

end Sys2Proof.Machine
end

