-- ==== Sys2Proof/Laws/PerInstr.lean ====
section
/-! SUPPORT. The families of lemmas with one lemma per operation: the word of an operation names its row, and its
operand block has its row's shape. -/

/-! ### The word of an operation names its row -/

/-- The encoder's word matches its own row of the table (30_encoding.md R81 step 0). -/
def Sys2Proof.Laws.RowWord.Statement (i : Sys2Proof.Instr) : Prop :=
  Sys2Proof.rowNamed (Sys2Proof.encodeWord i) i.row = true

namespace Sys2Proof.Laws.RowWord

/-- A word with the row's opcode, and with the bits that the row's mask takes in `id` and `aux` zero, names the row. -/
theorem named {r : Row} {opcode id mi : BitVec 8} {aux mx : BitVec 16} (hm : rowMask r = wordOf 0xFF#8 mi mx)
    (ht : rowMatch r = wordOf opcode 0#8 0#16) (hi : id &&& mi = 0#8) (hx : aux &&& mx = 0#16) :
    rowNamed (wordOf opcode id aux) r = true := by
  unfold rowNamed
  rw [beq_iff_eq, hm, ht, wordOf_and, hi, hx]
  congr 1
  exact BitVec.and_allOnes

theorem rxf (fid : BitVec 11) (p : Payload) : Statement (.rxf fid p) :=
  named (r := .rxf) (mi := 0xFF#8) (mx := 0xF800#16) (by decide) (by decide) (by decide)
    ((and_eq_zero_iff _ _ 11 5 (by decide) (by decide)).mpr (extract_zeroExtend_high _ _ _ (by decide)))

theorem dec (p : Payload) : Statement (.dec p) :=
  named (r := .dec) (mi := 0xFF#8) (mx := 0xFFFF#16) (by decide) (by decide) (by decide) (by decide)

theorem enc (id : BitVec 8) (demand : Num32) : Statement (.enc id demand) :=
  named (r := .enc) (mi := 0#8) (mx := 0xFFFF#16) (by decide) (by decide) BitVec.and_zero (by decide)

theorem pack (slot : BitVec 2) (f : Payload) (high low : Byte) : Statement (.pack slot f high low) :=
  named (r := .pack) (mi := 0xFF#8) (mx := 0xFFFC#16) (by decide) (by decide) (by decide)
    ((and_eq_zero_iff _ _ 2 14 (by decide) (by decide)).mpr (extract_zeroExtend_high _ _ _ (by decide)))

theorem pid (id : BitVec 8) (reference feedback dt : Num32) : Statement (.pid id reference feedback dt) :=
  named (r := .pid) (mi := 0#8) (mx := 0xFFFF#16) (by decide) (by decide) BitVec.and_zero (by decide)

theorem prst (id : BitVec 8) : Statement (.prst id) :=
  named (r := .prst) (mi := 0#8) (mx := 0xFFFF#16) (by decide) (by decide) BitVec.and_zero (by decide)

theorem rdt (id : BitVec 8) : Statement (.rdt id) :=
  named (r := .rdt) (mi := 0#8) (mx := 0xFFFF#16) (by decide) (by decide) BitVec.and_zero (by decide)

theorem wrc (id : BitVec 8) (demand : Num32) : Statement (.wrc id demand) :=
  named (r := .wrc) (mi := 0#8) (mx := 0xFFFF#16) (by decide) (by decide) BitVec.and_zero (by decide)

theorem rdc (id : BitVec 8) : Statement (.rdc id) :=
  named (r := .rdc) (mi := 0#8) (mx := 0xFFFF#16) (by decide) (by decide) BitVec.and_zero (by decide)

theorem wrp (id : BitVec 8) (sepEn dmeas : Bool) (kp ki kd integralLimit outputLimit sepThreshold : Num32) :
    Statement (.wrp id sepEn dmeas kp ki kd integralLimit outputLimit sepThreshold) :=
  named (r := .wrp) (mi := 0#8) (mx := 0xFFFC#16) (by decide) (by decide) BitVec.and_zero
    (by cases sepEn <;> cases dmeas <;> decide)

theorem wrk (rawFs : BitVec 15) (baseRxId : BitVec 11) (cmdFrameId : List (BitVec 11))
    (iFs angleNum angleDen : Num32) : Statement (.wrk rawFs baseRxId cmdFrameId iFs angleNum angleDen) :=
  named (r := .wrk) (mi := 0xFF#8) (mx := 0x8000#16) (by decide) (by decide) (by decide)
    ((and_eq_zero_iff _ _ 15 1 (by decide) (by decide)).mpr (extract_zeroExtend_high _ _ _ (by decide)))

theorem rdf : Statement .rdf :=
  named (r := .rdf) (mi := 0xFF#8) (mx := 0xFFFF#16) (by decide) (by decide) (by decide) (by decide)

end Sys2Proof.Laws.RowWord

/-! ### The operand block of an operation has its row's shape -/

/-- The encoder's operand block can be presented (30_encoding.md R72, R80), in every build the operation is one of. -/
def Sys2Proof.Laws.BlockShape.Statement (i : Sys2Proof.Instr) : Prop :=
  ∀ G : Nat, i.wellFormed G = true →
    Sys2Proof.blockFits (Sys2Proof.rowShape G i.row) (Sys2Proof.encodeOperands i) = true

namespace Sys2Proof.Laws.BlockShape

theorem rxf (fid : BitVec 11) (p : Payload) : Statement (.rxf fid p) := by
  simp [Statement, rowShape, Instr.row, encodeOperands, blockFits, Operand.fits]

theorem dec (p : Payload) : Statement (.dec p) := by
  simp [Statement, rowShape, Instr.row, encodeOperands, blockFits, Operand.fits]

theorem enc (id : BitVec 8) (demand : Num32) : Statement (.enc id demand) := fun _ _ => rfl

theorem pack (slot : BitVec 2) (f : Payload) (high low : Byte) : Statement (.pack slot f high low) := by
  simp [Statement, rowShape, Instr.row, encodeOperands, blockFits, Operand.fits]

theorem pid (id : BitVec 8) (reference feedback dt : Num32) : Statement (.pid id reference feedback dt) := fun _ _ => rfl

theorem prst (id : BitVec 8) : Statement (.prst id) := fun _ _ => rfl

theorem rdt (id : BitVec 8) : Statement (.rdt id) := fun _ _ => rfl

theorem wrc (id : BitVec 8) (demand : Num32) : Statement (.wrc id demand) := fun _ _ => rfl

theorem rdc (id : BitVec 8) : Statement (.rdc id) := fun _ _ => rfl

theorem wrp (id : BitVec 8) (sepEn dmeas : Bool) (kp ki kd integralLimit outputLimit sepThreshold : Num32) :
    Statement (.wrp id sepEn dmeas kp ki kd integralLimit outputLimit sepThreshold) := fun _ _ => rfl

theorem wrk (rawFs : BitVec 15) (baseRxId : BitVec 11) (cmdFrameId : List (BitVec 11))
    (iFs angleNum angleDen : Num32) : Statement (.wrk rawFs baseRxId cmdFrameId iFs angleNum angleDen) := by
  intro G hG
  have h := fits_u11_append (baseRxId :: cmdFrameId) [.num, .num, .num] [.num iFs, .num angleNum, .num angleDen] rfl
  rwa [List.length_cons, show cmdFrameId.length = G by simpa [Instr.wellFormed] using hG] at h

theorem rdf : Statement .rdf := fun _ _ => rfl

end Sys2Proof.Laws.BlockShape
end

