-- ==== Sys2Proof/Machine/Text.lean ====
section
/-! DEFINITION. The textual form of an operation (30_encoding.md R85, R86), from its tokens on: a port, a mnemonic, and
operands in the order of R85's table. Only spacing and punctuation are left out (log entry 14). -/

namespace Sys2Proof.Machine

/-- A `Num` literal (30_encoding.md R86): a decimal number `digits / 10^scale`, `2pi`, an infinity, or `NaN`. -/
inductive Literal where
  | decimal (neg : Bool) (digits scale : Nat)
  | twoPi
  | infinity (neg : Bool)
  | nan
deriving DecidableEq, Repr

/-- One operand token. -/
inductive Token where
  /-- A `Num` literal. -/
  | num (l : Literal)
  /-- A decimal or `0x` hexadecimal integer. -/
  | int (v : Nat)
  /-- Bytes in brackets. -/
  | bytes (l : List Byte)
  /-- Integers in brackets (the `cmd_frame_id` of `WRK`). -/
  | ints (l : List Nat)
deriving DecidableEq, Repr

/-- The mnemonic of a row (30_encoding.md R80). -/
def mnemonicOf : Row → String
  | .rxf => "RXF"
  | .dec => "DEC"
  | .enc => "ENC"
  | .pack => "PACK"
  | .pid => "PID"
  | .prst => "PRST"
  | .rdt => "RDT"
  | .wrc => "WRC"
  | .rdc => "RDC"
  | .wrp => "WRP"
  | .wrk => "WRK"
  | .rdf => "RDF"

/-- The name of a port in the textual form (30_encoding.md R73, R85). -/
def portName : Port → String
  | .rx => "RX"
  | .ctl => "CTL"
  | .cfg => "CFG"

/-- The `Num` a literal means: the one nearest to it (30_encoding.md R86). -/
def literalNum : Literal → Num32
  | .decimal neg digits scale => F32.ofDecimal neg digits scale
  | .twoPi => Config.twoPi
  | .infinity neg => F32.inf neg
  | .nan => Config.nan

/-- An integer that fits `n` bits. -/
def intField (n v : Nat) : Option (BitVec n) := if v < 2 ^ n then some (BitVec.ofNat n v) else none

/-- The command frame identifiers of `WRK`: `G` of them, each 11 bits. -/
def intFields (G : Nat) (l : List Nat) : Option (List (BitVec 11)) :=
  (takeU11 G (l.map Operand.u11)).bind fun r => if r.2.isEmpty then some r.1 else none

/-- The operation of a build with `G` groups that a mnemonic and its operands spell (30_encoding.md R85's table). -/
def assemble (G : Nat) : Row → List Token → Option Instr
  | .rxf, [.int fid, .bytes p] => do return .rxf (← intField 11 fid) (← payloadOf p)
  | .dec, [.bytes p] => do return .dec (← payloadOf p)
  | .enc, [.int id, .num demand] => do return .enc (← intField 8 id) (literalNum demand)
  | .pack, [.int slot, .bytes f, .int high, .int low] => do
    return .pack (← intField 2 slot) (← payloadOf f) (← intField 8 high) (← intField 8 low)
  | .pid, [.int id, .num reference, .num feedback, .num dt] => do
    return .pid (← intField 8 id) (literalNum reference) (literalNum feedback) (literalNum dt)
  | .prst, [.int id] => do return .prst (← intField 8 id)
  | .rdt, [.int id] => do return .rdt (← intField 8 id)
  | .wrc, [.int id, .num demand] => do return .wrc (← intField 8 id) (literalNum demand)
  | .rdc, [.int id] => do return .rdc (← intField 8 id)
  | .wrp, [.int id, .num kp, .num ki, .num kd, .num integralLimit, .num outputLimit, .num sepThreshold,
      .int sepEn, .int dmeas] => do
    let sepEn : BitVec 1 ← intField 1 sepEn
    let dmeas : BitVec 1 ← intField 1 dmeas
    return .wrp (← intField 8 id) (sepEn == 1) (dmeas == 1) (literalNum kp) (literalNum ki) (literalNum kd)
      (literalNum integralLimit) (literalNum outputLimit) (literalNum sepThreshold)
  | .wrk, [.int baseRxId, .ints ids, .num iFs, .int rawFs, .num angleNum, .num angleDen] => do
    return .wrk (← intField 15 rawFs) (← intField 11 baseRxId) (← intFields G ids) (literalNum iFs)
      (literalNum angleNum) (literalNum angleDen)
  | .rdf, [] => some .rdf
  | _, _ => none

end Sys2Proof.Machine
end

