-- ==== Sys2Proof/Tests/Slice0.lean ====
section
/-! SUPPORT. The model's own tests. Expected values are those of 95_test_vectors.md (its section is named) or are written
out from an encoding rule; then, for every statement with hypotheses, a concrete state that meets them together. -/

namespace Sys2Proof.Tests

open Sys2Proof Sys2Proof.Machine
open Sys2Proof.Config (N G)

/-! ### The states tests start from (95_test_vectors.md §1) -/

/-- Parameter set A. -/
def paramsA : Pcf := ⟨true, 0x40000000#32, 0x3F000000#32, 0x3E800000#32, 0x41200000#32, 0x42C80000#32, 0x420C0000#32, true, true⟩

/-- Configuration K0. -/
def codecK0 : Codec G := referenceCodec 0x200 #v[0x200, 0x1FF]

/-- K0, and A for every controller, on port `q`. -/
def ready (q : Port) : State :=
  { State.reset with codec := codecK0, pcf := Vector.replicate N paramsA, port := q, word := 0x20010000#32 }

/-- The same block after a fault. -/
def halted (q : Port) : State := { ready q with fault := ⟨true, 6, 0x20010000#32, 1⟩ }

/-- The block with these events to come. -/
def withInbox (l : List Event) (s : State) : State := { s with inbox := l }

/-- The response on the port of the operation just executed. -/
def said {n : Nat} (r : Result n) : Option Response :=
  match r with
  | .next s => responseAt s.port s.rsp
  | .fault _ => none
  | .refused _ => none

/-- A reading of the next state. -/
def after {n : Nat} {α : Type} (r : Result n) (f : State n → α) : Option α :=
  match r with
  | .next s => some (f s)
  | .fault _ => none
  | .refused _ => none

/-- The first payload of 95_test_vectors.md §3.3. -/
def frameS4 : Payload := #v[0x10, 0x00, 0x00, 0x0A, 0x00, 0x00, 0x19, 0x00]

/-! ### WellFormed: an ill-formed block for each check -/

theorem test_fits_refuses_wrong_kind : blockFits (rowShape G .enc) [.u8 1] = false := by decide
theorem test_fits_refuses_short_payload : blockFits (rowShape G .dec) [.payload (List.replicate 7 0)] = false := by decide
theorem test_fits_refuses_long_payload : blockFits (rowShape G .dec) [.payload (List.replicate 9 0)] = false := by decide
theorem test_fits_refuses_wide_identifier :
    blockFits (rowShape G .wrk) [.u11 2048, .u11 0, .u11 0, .num 0, .num 0, .num 0] = false := by decide
theorem test_fits_takes_largest_identifier :
    blockFits (rowShape G .wrk) [.u11 2047, .u11 0, .u11 0, .num 0, .num 0, .num 0] = true := by decide
theorem test_fits_refuses_missing_operand : blockFits (rowShape G .pid) [.num 0, .num 0] = false := by decide
theorem test_fits_refuses_extra_operand : blockFits (rowShape G .rdf) [.num 0] = false := by decide
theorem test_wellFormed_refuses_missing_identifier : Instr.wellFormed G (.wrk 1 0 [0] 0 0 0) = false := by decide
theorem test_wellFormed_refuses_extra_identifier : Instr.wellFormed G (.wrk 1 0 [0, 0, 0] 0 0 0) = false := by decide
theorem test_decode_refuses_block : decode G ⟨0x10000000#32, [.num 0]⟩ = .error .operandBlock := by decide

/-! ### Decode: words written out bit by bit from 30_encoding.md R71 and R80 -/

theorem test_decode_rxf : decode G ⟨0b00000001_00000000_00000_01000000001#32, [.payload frameS4.toList]⟩ =
    .ok (.rxf 0x201 frameS4) := by decide
theorem test_decode_dec : decode G ⟨0b00010000_00000000_0000000000000000#32, [.payload frameS4.toList]⟩ =
    .ok (.dec frameS4) := by decide
theorem test_decode_enc : decode G ⟨0b00010001_00000010_0000000000000000#32, [.num 0x3FC00000#32]⟩ =
    .ok (.enc 2 0x3FC00000#32) := by decide
theorem test_decode_pack : decode G ⟨0b00010010_00000000_00000000000000_11#32, [.payload frameS4.toList, .u8 0xEA, .u8 0xAB]⟩ =
    .ok (.pack 3 frameS4 0xEA 0xAB) := by decide
theorem test_decode_pid : decode G ⟨0b00100000_00000111_0000000000000000#32, [.num 1, .num 2, .num 3]⟩ =
    .ok (.pid 7 1 2 3) := by decide
theorem test_decode_prst : decode G ⟨0b00100001_00000001_0000000000000000#32, []⟩ = .ok (.prst 1) := by decide
theorem test_decode_rdt : decode G ⟨0b00110000_00000001_0000000000000000#32, []⟩ = .ok (.rdt 1) := by decide
theorem test_decode_wrc : decode G ⟨0b00110001_00000001_0000000000000000#32, [.num 5]⟩ = .ok (.wrc 1 5) := by decide
theorem test_decode_rdc : decode G ⟨0b00110010_11111111_0000000000000000#32, []⟩ = .ok (.rdc 255) := by decide
theorem test_decode_wrp_sepEn : decode G ⟨0b01000000_00000001_00000000000000_0_1#32,
    [.num 1, .num 2, .num 3, .num 4, .num 5, .num 6]⟩ = .ok (.wrp 1 true false 1 2 3 4 5 6) := by decide
theorem test_decode_wrp_dmeas : decode G ⟨0b01000000_00000001_00000000000000_1_0#32,
    [.num 1, .num 2, .num 3, .num 4, .num 5, .num 6]⟩ = .ok (.wrp 1 false true 1 2 3 4 5 6) := by decide
theorem test_decode_wrk : decode G ⟨0b01000001_00000000_0_100000000000000#32,
    [.u11 0x200, .u11 0x200, .u11 0x1FF, .num 1, .num 2, .num 3]⟩ =
    .ok (.wrk 16384 0x200 [0x200, 0x1FF] 1 2 3) := by decide
theorem test_decode_rdf : decode G ⟨0b01010000_00000000_0000000000000000#32, []⟩ = .ok .rdf := by decide

/-- The words of 95_test_vectors.md §3.1 that name nothing. -/
theorem test_decode_refuses_words :
    [0x01000800#32, 0x01010201#32, 0x10010000#32, 0x11020001#32, 0x12000004#32, 0x40010004#32, 0x41008000#32, 0x41010000#32, 0x50000001#32,
      0x00000000#32, 0xFFFFFFFF#32, 0x02000000#32, 0x13000000#32, 0x22000000#32, 0x33000000#32, 0x42000000#32, 0x51000000#32].all
      (fun w => rowOf w == none) = true := by decide

/-! ### The textual form (30_encoding.md R85's examples) -/

theorem test_text_enc : assemble G .enc [.int 2, .num (.decimal false 15 1)] = some (.enc 2 0x3FC00000#32) := by decide
theorem test_text_wrp : (assemble G .wrp [.int 1, .num (.decimal false 20 1), .num (.decimal false 5 1), .num (.decimal false 25 2),
    .num (.decimal false 100 1), .num (.decimal false 1000 1), .num (.decimal false 350 1), .int 1, .int 1]).map encodeWord =
    some 0x40010003#32 := by decide
theorem test_text_wrk : assemble G .wrk [.int 0x200, .ints [0x200, 0x1FF], .num (.decimal false 30 1), .int 16384, .num .twoPi,
    .num (.decimal false 81910 1)] = some (.wrk 16384 0x200 [0x200, 0x1FF] 0x40400000#32 0x40C90FDB#32 0x45FFF800#32) := by decide
/-- The reference `DT_NOM` is the binary32 nearest to 0.001 (95_test_vectors.md V18). -/
theorem test_dtNom : F32.ofDecimal false 1 3 = Config.dtNom := by decide

/-! ### Num (00_scope.md R17's examples; patterns of 95_test_vectors.md §1) -/

theorem test_toS16_ties : [0x3F000000#32, 0xBF000000#32, 0x40200000#32, 0xC0200000#32].map F32.toS16 = [1, -1, 3, -3] := by decide
theorem test_toS16_saturates : [0x7F800000#32, 0xFF800000#32].map F32.toS16 = [32767, -32768] := by decide
theorem test_mul_overflows : F32.mul 0x7F000000#32 0x40800000#32 = 0x7F800000#32 := by decide
theorem test_add_rounds_to_even : F32.add 0x3F800001#32 0x33800000#32 = 0x3F800002#32 := by decide
theorem test_sub_of_equals_is_plus_zero : F32.sub 0xBF800000#32 0xBF800000#32 = 0x00000000#32 := by decide

/-! ### The operations, one step each -/

/-- 95_test_vectors.md §3.5: the last identifier of the window. -/
theorem test_rxf : after (exec (.rxf 0x207 #v[0x08, 0x00, 0xFF, 0xF6, 0x20, 0x00, 0x23, 0x00]) (ready .rx)) (·.tel[6]) =
    some ⟨0x3FC91624#32, BitVec.ofInt 16 (-10), 0x3FC00000#32, 35⟩ := by decide +kernel
/-- 95_test_vectors.md §3.5: `k = 8 > N`. -/
theorem test_rxf_ignored : said (exec (.rxf 0x208 frameS4) (ready .rx)) = some .ignored := by decide
/-- 95_test_vectors.md S4. -/
theorem test_dec : said (exec (.dec frameS4) (ready .ctl)) = some (.ok (.telemetry ⟨0x40491624#32, 10, 0, 25⟩)) := by decide +kernel
/-- 95_test_vectors.md §3.3, last row. -/
theorem test_dec_extremes : said (exec (.dec #v[0xFF, 0xFF, 0x80, 0x00, 0x80, 0x00, 0xFF, 0xAA]) (ready .ctl)) =
    some (.ok (.telemetry ⟨0x4249155B#32, 0x8000, 0xC0C00000#32, 255⟩)) := by decide +kernel
/-- 95_test_vectors.md §3.2 (-1.8125) and S3 (id 6). -/
theorem test_enc : said (exec (.enc 6 0xBFE80000#32) (ready .ctl)) = some (.ok (.encoded 0x1FF 2 0xD9 0x55)) := by decide
/-- 95_test_vectors.md §3.2: -2.5 steps, a tie that goes away from zero. -/
theorem test_enc_tie : said (exec (.enc 1 0xB9F00000#32) (ready .ctl)) = some (.ok (.encoded 0x200 0 0xFF 0xFD)) := by decide
/-- 95_test_vectors.md §3.4. -/
theorem test_pack : said (exec (.pack 2 #v[0x11, 0x22, 0x33, 0x44, 0x55, 0x66, 0x77, 0x88] 0xEA 0xAB) { State.reset with port := .ctl }) =
    some (.ok (.frame #v[0x11, 0x22, 0x33, 0x44, 0xEA, 0xAB, 0x77, 0x88])) := by decide
/-- 95_test_vectors.md S6, tick 3: separation on, derivative on the measurement. -/
theorem test_pid : after (exec (.pid 1 0x41300000#32 0x40400000#32 0x3F000000#32)
      (writePst 0 ⟨0x40200000#32, 0x41200000#32, 0x3F800000#32, .running⟩ (ready .ctl))) (fun s => (s.pst[0], s.rsp.ctl)) =
    some (⟨0x40E00000#32, 0x41000000#32, 0x40400000#32, .running⟩, some (.ok (.output 0x41940000#32))) := by decide
/-- 95_test_vectors.md V16: `0 * inf`. -/
theorem test_pid_nan_result : after (exec (.pid 1 0x7F800000#32 0 0x3F800000#32) (writePcf 0 { paramsA with kp := 0 } (ready .ctl)))
      (fun s => (s.fault, s.pst[0])) = some (⟨true, 8, 0x20010000#32, 1⟩, ⟨0, 0, 0, .idle⟩) := by decide
/-- 95_test_vectors.md §3.7. -/
theorem test_prst : after (exec (.prst 1) (writePst 0 ⟨0x41200000#32, 0x40A00000#32, 0, .running⟩ (ready .cfg))) (fun s => (s.pst[0], s.pcf[0])) =
    some (⟨0, 0, 0, .idle⟩, paramsA) := by decide
/-- 95_test_vectors.md §3.8. -/
theorem test_rdt : said (exec (.rdt 1) { State.reset with port := .ctl }) = some (.ok (.telemetry ⟨0, 0, 0, 0⟩)) := by decide
/-- 95_test_vectors.md §3.8: -7.0 is stored as -3.0, and no other command is touched. -/
theorem test_wrc : after (exec (.wrc 2 0xC0E00000#32) (ready .ctl)) (fun s => (s.cmd[0], s.cmd[1], s.rsp.ctl)) =
    some (⟨0⟩, ⟨0xC0400000#32⟩, some (.ok (.stored 0xC0400000#32))) := by decide
/-- 95_test_vectors.md §3.8: a demand outside the range in force is read as stored. -/
theorem test_rdc : said (exec (.rdc 7) (writeCmd 6 ⟨0x41200000#32⟩ (ready .ctl))) = some (.ok (.demand 0x41200000#32)) := by decide
/-- 95_test_vectors.md §3.8: limits -4.0 and `-inf` are stored as zero. -/
theorem test_wrp : after (exec (.wrp 1 true true 0x40000000#32 0x3F000000#32 0x3E800000#32 0xC0800000#32 0xFF800000#32 0x420C0000#32)
      { State.reset with port := .cfg }) (·.pcf[0]) = some { paramsA with integralLimit := 0, outputLimit := 0 } := by decide
/-- 95_test_vectors.md §3.8: `raw_fs = 0`. -/
theorem test_wrk_bad_config : after (exec (.wrk 0 0x200 [0x200, 0x1FF] 0x40400000#32 0x40C90FDB#32 0x45FFF800#32)
      { ready .cfg with word := 0x41000000#32 }) (fun s => (s.fault, s.codec)) = some (⟨true, 7, 0x41000000#32, 2⟩, codecK0) := by decide
/-- 95_test_vectors.md §1: K0. -/
theorem test_wrk : after (exec (.wrk 16384 0x200 [0x200, 0x1FF] 0x40400000#32 0x40C90FDB#32 0x45FFF800#32)
      { State.reset with port := .cfg }) (·.codec) = some codecK0 := by decide
/-- 60_exceptions.md R169: the fault record is read on a halted block, on any port. -/
theorem test_rdf : said (exec .rdf (halted .rx)) = some (.ok (.faultRecord ⟨true, 6, 0x20010000#32, 1⟩)) := by decide

/-! ### The step -/

/-- 95_test_vectors.md §3.6: `PID 9, NaN, 0.0, 0.0`, the lowest code wins. -/
theorem test_step_lowest_code : after (step (withInbox [.request .ctl (encode (.pid 9 0x7FC00000#32 0 0))] (ready .rx))) (·.fault) =
    some ⟨true, 2, 0x20090000#32, 1⟩ := by decide
theorem test_step_reset : after (step (withInbox [.reset] (halted .ctl))) (fun s => (s.fault, s.codec.valid)) =
    some (⟨false, 0, 0, 0⟩, false) := by decide
/-- The first request of 95_test_vectors.md §3.8 as a fetched word. -/
theorem test_withFetchWord : after (step (State.reset.withFetchWord 32 0x30010000)) (·.rsp.ctl) =
    some (some (.ok (.telemetry ⟨0, 0, 0, 0⟩))) := by decide
/-- 30_encoding.md R92 and 95_test_vectors.md V18: the output of `PIDF` with `kd = 0` and the reference `DT_NOM`. -/
theorem test_pidf : said (exec (pidf Config.dtNom 1 0x3F800000#32 0x3F000000#32) (writePcf 0 { paramsA with kd := 0 } (ready .ctl))) =
    some (.ok (.output 0x3F800419#32)) := by decide

/-! ### Witnesses: for each statement with hypotheses, states and operands that meet them, clause by clause -/

/-- A request of an operation. -/
def ask (q : Port) (i : Instr) : Event := .request q (encode i)

/-- A word that names no row, with an empty block. -/
def nothing : Command := ⟨0x51000000#32, []⟩

theorem witness_DecodeOfEncode : ∃ (g g' : Nat) (i i' : Instr), g ≠ g' ∧ i.wellFormed g = true ∧ i'.wellFormed g' = true :=
  ⟨2, 64, .wrk 0x7FFF 2047 [2047, 0] 1 2 3, .wrk 1 0 (List.replicate 64 2047) 1 2 3, by decide +kernel⟩

theorem witness_EncodeOfDecode : ∃ (c : Command) (i : Instr), decode G c = .ok i :=
  ⟨⟨0x41007FFF#32, [.u11 2047, .u11 2047, .u11 0, .num 1, .num 2, .num 3]⟩, _, rfl⟩

theorem witness_RowsAreDisjoint : ∃ (w : Word) (a b : Row), rowNamed w a = true ∧ rowNamed w b = true :=
  ⟨0x010007FF#32, .rxf, .rxf, by decide +kernel⟩

theorem witness_IllegalEncodings_word : ∃ (s : State) (q : Port) (c : Command) (rest : List Event),
    s.inbox = .request q c :: rest ∧ s.fault.halt = false ∧ rowOf c.word = none :=
  ⟨withInbox [.request .rx nothing] (ready .rx), .rx, nothing, [], by decide +kernel⟩

theorem witness_IllegalEncodings_port : ∃ (s : State) (i : Instr), s.fault.halt = false ∧ s.port ∉ legalPorts i.row :=
  ⟨ready .ctl, .prst 1, by decide +kernel⟩

theorem witness_IllegalEncodings_id :
    ∃ (s : State) (i i' : Instr) (id id' : BitVec 8), s.fault.halt = false ∧ s.port ∈ legalPorts i.row ∧
      s.port ∈ legalPorts i'.row ∧ idOf i = some id ∧ id.toNat = 0 ∧ idOf i' = some id' ∧ id'.toNat = N + 1 :=
  ⟨ready .ctl, .pid 0 0 0 0, .rdt 8, 0, 8, by decide +kernel⟩

theorem witness_IllegalEncodings_outcome : ∃ (s : State) (q : Port) (c : Command) (rest : List Event),
    s.inbox = .request q c :: rest ∧ presentable G c = true :=
  ⟨withInbox [ask .cfg (.prst 7)] (ready .rx), .cfg, encode (.prst 7), [], by decide +kernel⟩

theorem witness_StepRunsTheDecodedOperation :
    ∃ (s : State) (q : Port) (c : Command) (rest : List Event) (i : Instr),
      s.inbox = .request q c :: rest ∧ decode G c = .ok i :=
  ⟨withInbox [ask .ctl (.pid 7 1 2 3), .reset] (ready .rx), .ctl, encode (.pid 7 1 2 3), [.reset], .pid 7 1 2 3,
    by decide +kernel⟩

theorem witness_ResetZeroesEveryRecord : ∃ (s : State) (rest : List Event), s.inbox = .reset :: rest :=
  ⟨withInbox [.reset] (halted .ctl), [], by decide +kernel⟩

theorem witness_IdleBlockWaits : ∃ s : State, s.inbox = [] := ⟨ready .ctl, by decide +kernel⟩

theorem witness_EveryRequestIsAnswered : ∃ (s : State) (q : Port) (c : Command) (rest : List Event),
    s.inbox = .request q c :: rest ∧ presentable G c = true :=
  ⟨withInbox [.request .cfg nothing] (halted .rx), .cfg, nothing, [], by decide +kernel⟩

theorem witness_WaitingOperationsAreAllServed :
    ∃ s : State, s.inbox.length = 3 ∧ ∀ q c, Event.request q c ∈ s.inbox → presentable G c = true :=
  ⟨withInbox [ask .ctl (.rdt 1), .reset, ask .rx .rdf] (ready .rx), by decide +kernel, by
    intro q c h
    simp only [withInbox, ask, List.mem_cons, List.not_mem_nil, or_false, reduceCtorEq, false_or,
      Event.request.injEq] at h
    rcases h with ⟨-, rfl⟩ | ⟨-, rfl⟩ <;> decide +kernel⟩

theorem witness_FaultEntryIsPrecise_entered :
    ∃ (s t : State) (q : Port) (c : Command) (rest : List Event), s.inbox = .request q c :: rest ∧
      step s = .next t ∧ responseAt q t.rsp = some .fault ∧ t.fault ≠ s.fault :=
  ⟨withInbox [ask .ctl (.rdt 8)] (ready .rx), _, .ctl, encode (.rdt 8), [], rfl, rfl, by decide +kernel, by decide +kernel⟩

theorem witness_FaultEntryIsPrecise_kept :
    ∃ (s t : State) (q : Port) (c : Command) (rest : List Event), s.inbox = .request q c :: rest ∧
      step s = .next t ∧ s.fault.halt = true :=
  ⟨withInbox [ask .ctl (.rdt 8)] (halted .rx), _, .ctl, encode (.rdt 8), [], rfl, rfl, by decide +kernel⟩

theorem witness_HaltedBlockAnswersHalted :
    ∃ (s : State) (q : Port) (c : Command) (rest : List Event), s.inbox = .request q c :: rest ∧
      s.fault.halt = true ∧ presentable G c = true ∧ rowOf c.word ≠ some .rdf :=
  ⟨withInbox [.request .rx nothing] (halted .rx), .rx, nothing, [], by decide +kernel⟩

theorem witness_HaltedBlockAnswersHalted_step :
    ∃ s t : State, s.fault.halt = true ∧ (∀ rest, s.inbox ≠ .reset :: rest) ∧ step s = .next t :=
  ⟨withInbox [ask .cfg .rdf] (halted .rx), _, by decide +kernel, (by intro rest h; cases h), rfl⟩

theorem witness_HaltedRunKeepsEveryRecord :
    ∃ (n : Nat) (s t : State), n = 2 ∧ s.fault.halt = true ∧ Event.reset ∉ s.inbox ∧
      Host.Core.run Sys2Proof.core n s = .next t :=
  ⟨2, withInbox [ask .ctl (.wrc 1 0), ask .rx .rdf] (halted .rx), _, rfl, by decide +kernel, by decide +kernel, rfl⟩

theorem witness_LowestCauseIsRaised : ∃ (s : State) (i i' : Instr), s.fault.halt = false ∧
    causes.find? (violates s i) = some .badId ∧ violates s i .nanOperand = true ∧
    causes.find? (violates s i') = none :=
  ⟨ready .ctl, .wrc 0 0x7FC00000#32, .wrc 7 0, by decide +kernel⟩

theorem witness_CausesEachOperationCanRaise :
    ∃ (s t : State) (i : Instr), s.fault.halt = false ∧ exec i s = .next t ∧ t.fault.halt = true ∧
      s.port ∈ legalPorts i.row ∧ ∀ cause ∈ [Cause.badId, .codecUninit, .paramsUninit, .nanOperand, .dtNonpositive],
        violates s i cause = false :=
  ⟨ready .cfg, _, .wrk 0 0 [0, 0] 0 0 0, by decide +kernel, rfl, by decide +kernel, by decide +kernel, by decide +kernel⟩

theorem witness_CausesEachOperationCanRaise_port :
    ∃ (s t : State) (i : Instr), s.fault.halt = false ∧ exec i s = .next t ∧ t.fault.halt = true ∧ t.fault.cause = 1 :=
  ⟨ready .cfg, _, .rdt 1, by decide +kernel, rfl, by decide +kernel, by decide +kernel⟩

theorem witness_PortsKeepToTheirRecords :
    ∃ (s t : State) (i : Instr) (k : Fin N), exec i s = .next t ∧ s.port = .ctl ∧ k.val = 6 ∧ t.pst[k] ≠ s.pst[k] :=
  ⟨ready .ctl, _, .pid 7 0x40A00000#32 0 0x3F800000#32, 6, rfl, by decide +kernel, by decide +kernel, by decide +kernel⟩

theorem witness_PortsKeepToTheirRecords_rx :
    ∃ (s t : State) (i : Instr) (k j : Fin N), exec i s = .next t ∧ s.port = .rx ∧ namedSlot s i = some k ∧
      t.tel[k] ≠ s.tel[k] ∧ namedSlot s i ≠ some j :=
  ⟨ready .rx, _, .rxf 0x207 frameS4, 6, 0, rfl, by decide +kernel, by decide +kernel, by decide +kernel, by decide +kernel⟩

/-- An operation that names no slot. -/
theorem witness_PortsKeepToTheirRecords_none :
    ∃ (s t : State) (i : Instr) (j : Fin N), exec i s = .next t ∧ namedSlot s i = none ∧ namedSlot s i ≠ some j :=
  ⟨ready .rx, _, .rxf 0x200 frameS4, 6, rfl, by decide +kernel, by decide +kernel⟩

theorem witness_PortsKeepToTheirRecords_dependency :
    ∃ (s s' t : State) (i : Instr) (k : Fin N), exec i s = .next t ∧ namedSlot s i = some k ∧ SameSlot k s s' ∧
      s'.codec = s.codec ∧ s'.fault = s.fault ∧ s'.port = s.port ∧ s'.word = s.word ∧ s'.cmd ≠ s.cmd :=
  ⟨ready .ctl, writeCmd 6 ⟨0x41200000#32⟩ (ready .ctl), _, .wrc 1 0x3F800000#32, 0, rfl, by decide +kernel,
    by unfold SameSlot; decide +kernel, rfl, rfl, rfl, rfl, by decide +kernel⟩

theorem witness_PortsKeepToTheirRecords_cfg :
    ∃ (s t : State) (i : Instr), exec i s = .next t ∧ s.port = .cfg ∧ t.pcf ≠ s.pcf :=
  ⟨ready .cfg, _, .wrp 7 true true 0 0 0 0 0 0, rfl, by decide +kernel, by decide +kernel⟩

theorem witness_IdempotentOperations_read :
    ∃ (s t : State) (i : Instr), i.row ∈ [Row.rdt, .rdc, .rdf, .dec, .enc, .pack] ∧ exec i s = .next t ∧
      t.fault = s.fault :=
  ⟨ready .ctl, _, .enc 7 0, by decide +kernel, rfl, by decide +kernel⟩

theorem witness_IdempotentOperations_write :
    ∃ (s t : State) (i : Instr), i.row ∈ [Row.wrc, .wrp, .wrk, .prst, .rxf] ∧ exec i s = .next t ∧
      t.fault = s.fault ∧ t.cmd ≠ s.cmd :=
  ⟨ready .ctl, _, .wrc 7 0x3F800000#32, by decide +kernel, rfl, by decide +kernel, by decide +kernel⟩

theorem witness_DifferentActuatorsCommute :
    ∃ (s t u t' u' : State) (q q' : Port) (i i' : Instr) (k k' : Fin N),
      namedSlot s i = some k ∧ namedSlot s i' = some k' ∧ k ≠ k' ∧
      exec i (latch q (encode i) s) = .next t ∧ exec i' (latch q' (encode i') t) = .next u ∧
      exec i' (latch q' (encode i') s) = .next t' ∧ exec i (latch q (encode i) t') = .next u' ∧
      u.fault.halt = false ∧ u'.fault.halt = false :=
  ⟨ready .cfg, _, _, _, _, .rx, .ctl, .rxf 0x201 frameS4, .wrc 7 0x3F800000#32, 0, 6, by decide +kernel, by decide +kernel, by decide +kernel, rfl,
    rfl, rfl, rfl, by decide +kernel, by decide +kernel⟩

theorem witness_TelemetryComesFromOneFrame :
    ∃ (s t : State) (k : Fin N), step s = .next t ∧ t.tel[k] ≠ s.tel[k] :=
  ⟨withInbox [ask .rx (.rxf 0x207 frameS4)] (ready .cfg), _, 6, rfl, by decide +kernel⟩

/-- The block configured by K0 and A is legal. -/
theorem legal_ready (q : Port) : Legal (ready q) where
  tel := by unfold LegalTel; cases q <;> decide +kernel
  cmd := by cases q <;> decide +kernel
  pst := by unfold LegalPst; cases q <;> decide +kernel
  pcf := by unfold LegalPcf; cases q <;> decide +kernel
  codec := by unfold LegalCodec; cases q <;> decide +kernel
  fault := by cases q <;> rfl
  constructed := by cases q <;> decide +kernel

theorem witness_EveryStepKeepsLegality : ∃ s t : State, Legal s ∧ step s = .next t ∧ t.pst ≠ s.pst :=
  ⟨withInbox [ask .ctl (.pid 7 0x40A00000#32 0 0x3F800000#32)] (ready .rx), _,
    ⟨(legal_ready .rx).tel, (legal_ready .rx).cmd, (legal_ready .rx).pst, (legal_ready .rx).pcf, (legal_ready .rx).codec,
      (legal_ready .rx).fault, (legal_ready .rx).constructed⟩, rfl, by decide +kernel⟩

theorem witness_RxfStoresTheFrame : ∃ (s : State) (fid fid' : BitVec 11) (k k' : Fin N),
    s.fault.halt = false ∧ s.port = .rx ∧ s.codec.valid = true ∧ k.val = 0 ∧ k'.val = 6 ∧
    fid.toNat = s.codec.baseRxId.toNat + (k.val + 1) ∧ fid'.toNat = s.codec.baseRxId.toNat + (k'.val + 1) :=
  ⟨ready .rx, 0x201, 0x207, 0, 6, by decide +kernel⟩

theorem witness_RxfIgnoresUnknownIdentifiers_uninit : ∃ s : State,
    s.fault.halt = false ∧ s.port = .rx ∧ s.codec.valid = false :=
  ⟨State.reset, by decide +kernel⟩

theorem witness_RxfIgnoresUnknownIdentifiers_window : ∃ (s : State) (low high : BitVec 11),
    s.fault.halt = false ∧ s.port = .rx ∧ (low.toNat : Int) = s.codec.baseRxId.toNat ∧
    (high.toNat : Int) = s.codec.baseRxId.toNat + N + 1 :=
  ⟨ready .rx, 0x200, 0x208, by decide +kernel⟩

theorem witness_AddressMappingsAreInjective : ∃ (base f : BitVec 11) (j k : Fin N),
    rxSlotOf f base = some k ∧ base.toNat + k.val + 1 = 2047 ∧ groupOf j = groupOf k ∧ frameSlot j = frameSlot k :=
  ⟨2040, 2047, 6, 6, by decide +kernel⟩

theorem witness_DecAnswersTheFields : ∃ s : State,
    s.fault.halt = false ∧ s.port = .ctl ∧ s.codec.valid = true := ⟨ready .ctl, by decide +kernel⟩

theorem witness_DecodeIsTotal : ∃ c : Codec G, c.valid = true ∧ LegalCodec c :=
  ⟨codecK0, rfl, by unfold LegalCodec; decide +kernel⟩

theorem witness_DecodeIsTotal_ports : ∃ s s' : State, s.fault.halt = false ∧ s.codec.valid = true ∧ s.port = .ctl ∧
    s'.fault.halt = false ∧ s'.codec.valid = true ∧ s'.port = .rx := ⟨ready .ctl, ready .rx, by decide +kernel⟩

theorem witness_EncAnswersTheSlot : ∃ (s : State) (id : BitVec 8) (demand : Num32) (k : Fin N),
    s.fault.halt = false ∧ s.port = .ctl ∧ id.toNat = k.val + 1 ∧ s.codec.valid = true ∧ F32.isNaN demand = false :=
  ⟨ready .ctl, 7, 0xFF800000#32, 6, by decide +kernel⟩

theorem witness_EncodeSaturatesAndPlaces : ∃ c c' : Codec G, c.iFs = 0x40400000#32 ∧ c.rawFs.toNat = 1 ∧
    c'.iFs = 0x40400000#32 ∧ c'.rawFs.toNat = 32767 :=
  ⟨{ codecK0 with rawFs := 1 }, { codecK0 with rawFs := 32767 }, by decide +kernel⟩

theorem witness_RoundTripWithinOneStep :
    ∃ (s t : State) (id : BitVec 8) (d : Num32) (base : BitVec 11) (ids : Vector (BitVec 11) G) (frameId : BitVec 32)
      (offset : BitVec 3) (high low : Byte) (p : Payload), s.codec = referenceCodec base ids ∧ F32.isNaN d = false ∧
      F32.le 0xC0400000#32 d = true ∧ F32.le d 0x40400000#32 = true ∧ s.port = .ctl ∧ exec (.enc id d) s = .next t ∧
      responseAt .ctl t.rsp = some (.ok (.encoded frameId offset high low)) ∧ p[4] = high ∧ p[5] = low :=
  ⟨ready .ctl, _, 1, 0xC0400000#32, 0x200, #v[0x200, 0x1FF], 0x200, 0, 0xC0, 0x00, #v[0, 0, 0, 0, 0xC0, 0, 0, 0], rfl,
    by decide +kernel, by decide +kernel, by decide +kernel, by decide +kernel, rfl, by decide +kernel, by decide +kernel, by decide +kernel⟩

theorem witness_PackWritesOneSlot : ∃ (s : State) (a b : BitVec 2),
    s.fault.halt = false ∧ s.port = .ctl ∧ a ≠ b := ⟨{ State.reset with port := .ctl }, 0, 3, by decide +kernel⟩

theorem witness_AddIsCorrectlyRounded : ∃ a b c d : Num32, F32.isFinite a = true ∧ F32.isFinite b = true ∧
    |F32.value a + F32.value b| < (2 ^ 25 - 1) * 2 ^ 252 ∧ F32.isFinite c = true ∧ F32.isFinite d = true ∧
    (2 ^ 25 - 1) * 2 ^ 252 = |F32.value c + F32.value d| ∧ F32.value a + F32.value (F32.neg a) = 0 :=
  ⟨0x3F800000#32, 0xBF800001#32, 0x7F7FFFFF#32, 0x73000000#32, by decide +kernel⟩

theorem witness_MulIsCorrectlyRounded : ∃ a b c : Num32, F32.isFinite a = true ∧ F32.isFinite b = true ∧
    F32.isFinite c = true ∧ |F32.value a * F32.value b| < (2 ^ 25 - 1) * 2 ^ 252 * 2 ^ 149 ∧
    (2 ^ 25 - 1) * 2 ^ 252 * 2 ^ 149 ≤ |F32.value c * F32.value c| :=
  ⟨0x3F800000#32, 0xBF800001#32, 0x7F7FFFFF#32, by decide +kernel⟩

theorem witness_DivIsCorrectlyRounded : ∃ a b c d : Num32, F32.isFinite a = true ∧ F32.isFinite b = true ∧
    F32.isZero b = false ∧ |F32.value a * 2 ^ 149| < (2 ^ 25 - 1) * 2 ^ 252 * |F32.value b| ∧ F32.isFinite c = true ∧
    F32.isFinite d = true ∧ F32.isZero d = false ∧
    (2 ^ 25 - 1) * 2 ^ 252 * |F32.value d| ≤ |F32.value c * 2 ^ 149| :=
  ⟨0x3F800000#32, 0xC0400000#32, 0x7F7FFFFF#32, 0x00000001#32, by decide +kernel⟩

theorem witness_OfIntIsExact : ∃ i j : Int, |i| ≤ 65535 ∧ |j| ≤ 65535 ∧ i = 65535 ∧ j = -65535 :=
  ⟨65535, -65535, by decide +kernel⟩

theorem witness_NanArisesOnlyFromInfinities : ∃ a b : Num32, F32.isNaN a = false ∧ F32.isNaN b = false ∧
    F32.isZero b = false := ⟨0x7F800000#32, 0xFF800000#32, by decide +kernel⟩

theorem witness_ComparisonsOrderTheValues : ∃ a b c : Num32, F32.isFinite a = true ∧ F32.isFinite b = true ∧
    F32.isNaN c = true := ⟨0x00000000#32, 0x80000000#32, 0x7F800001#32, by decide +kernel⟩

theorem witness_ClampKeepsTheRange : ∃ x y z w limit : Num32, F32.isNaN x = true ∧ F32.isNaN y = false ∧
    F32.le F32.zero limit = true ∧ F32.gt y limit = true ∧ F32.isNaN z = false ∧ F32.lt z (F32.neg limit) = true ∧
    F32.isNaN w = false ∧ F32.le (F32.neg limit) w = true ∧ F32.le w limit = true :=
  ⟨0x7FC00000#32, 0x00000001#32, 0x80000001#32, 0x80000000#32, 0x00000000#32, by decide +kernel⟩

theorem witness_ToS16RoundsToNearest : ∃ x y z : Num32, F32.isNaN x = false ∧ F32.isNaN y = false ∧
    F32.isNaN z = false ∧ F32.le (F32.ofInt 32767) x = true ∧ F32.le y (F32.ofInt (-32768)) = true ∧
    F32.le (F32.ofInt 32767) z = false ∧ F32.le z (F32.ofInt (-32768)) = false :=
  ⟨0x46FFFE00#32, 0xC7000000#32, 0x46FFFDFF#32, by decide +kernel⟩

theorem witness_PidComputesTheTick : ∃ (s : State) (id : BitVec 8) (k : Fin N) (reference feedback dt : Num32),
    s.fault.halt = false ∧ s.port = .ctl ∧ id.toNat = k.val + 1 ∧ s.pcf[k].valid = true ∧
    F32.isNaN reference = false ∧ F32.isNaN feedback = false ∧ F32.isNaN dt = false ∧ F32.le dt F32.zero = false ∧
    s.pcf[k] = paramsA ∧ s.pst[k] = ⟨0, 0, 0, .idle⟩ ∧
    pidNumeric (pidTick s.pcf[k] s.pst[k] reference feedback dt) = true :=
  ⟨ready .ctl, 7, 6, 0x40A00000#32, 0, 0x00000001#32, by decide +kernel⟩

theorem witness_PidComputesTheTick_nan : ∃ (s : State) (id : BitVec 8) (k : Fin N) (reference feedback dt : Num32),
    s.fault.halt = false ∧ s.port = .ctl ∧ id.toNat = k.val + 1 ∧ s.pcf[k].valid = true ∧
    F32.isNaN reference = false ∧ F32.isNaN feedback = false ∧ F32.isNaN dt = false ∧ F32.le dt F32.zero = false ∧
    F32.isNaN (F32.sub reference feedback) = true :=
  ⟨ready .ctl, 1, 0, 0x7F800000#32, 0x7F800000#32, 0x3F800000#32, by decide +kernel⟩

theorem witness_PidOfFiniteValuesCompletes :
    ∃ (s : State) (id : BitVec 8) (k : Fin N) (reference feedback dt : Num32),
      s.fault.halt = false ∧ s.port = .ctl ∧ id.toNat = k.val + 1 ∧ s.pcf[k].valid = true ∧ LegalPcf s.pcf[k] ∧
      F32.isFinite reference = true ∧ F32.isFinite feedback = true ∧ F32.isFinite dt = true ∧
      F32.gt dt F32.zero = true ∧
      let c := s.pcf[k]
      let p := s.pst[k]
      let error := F32.sub reference feedback
      let integral := pidIntegral c p error dt
      ∀ x ∈ [error, p.integral, F32.mul (F32.div (F32.add error p.lastError) F32.two) dt,
        F32.mul c.kp error, F32.mul c.ki integral, F32.add (F32.mul c.kp error) (F32.mul c.ki integral),
        F32.mul c.kd (pidDerivative c p error feedback dt)], F32.isFinite x = true :=
  ⟨ready .ctl, 7, 6, 0x40A00000#32, 0, 0x3F800000#32, by decide +kernel, by decide +kernel, by decide +kernel, by decide +kernel, (legal_ready .ctl).pcf 6,
    by decide +kernel, by decide +kernel, by decide +kernel, by decide +kernel,
    (by rw [← List.all_eq_true]; decide +kernel)⟩

/-- The state and the operands of the statements about a tick that succeeds. -/
theorem witness_PidStaysInItsLimits :
    ∃ (s t : State) (id : BitVec 8) (k : Fin N) (reference feedback dt v : Num32),
      LegalPcf s.pcf[k] ∧ id.toNat = k.val + 1 ∧ s.port = .ctl ∧
      exec (.pid id reference feedback dt) s = .next t ∧ responseAt .ctl t.rsp = some (.ok (.output v)) :=
  ⟨ready .ctl, _, 7, 6, 0x7F800000#32, 0, 0x3F800000#32, 0x42C80000#32, (legal_ready .ctl).pcf 6, by decide +kernel, by decide +kernel, rfl,
    by decide +kernel⟩

theorem witness_SeparationFreezesTheIntegral :
    ∃ (n : Nat) (s : State) (id : BitVec 8) (k : Fin N) (reference feedback dt : Num32), n = 3 ∧
      id.toNat = k.val + 1 ∧ s.pcf[k].sepEn = true ∧
      F32.lt (F32.abs (F32.sub reference feedback)) s.pcf[k].sepThreshold = false ∧
      F32.le (F32.neg s.pcf[k].integralLimit) s.pst[k].integral = true ∧
      F32.le s.pst[k].integral s.pcf[k].integralLimit = true ∧
      s.inbox = List.replicate n (.request .ctl (encode (.pid id reference feedback dt))) :=
  ⟨3, withInbox (List.replicate 3 (ask .ctl (.pid 1 0x420C0000#32 0 0x3F800000#32))) (ready .rx), 1, 0, 0x420C0000#32, 0,
    0x3F800000#32, by decide +kernel⟩

theorem witness_HeldErrorRunsToTheClamp :
    ∃ (n : Nat) (s : State) (k : Fin N) (id : BitVec 8), n = 3 ∧ s.fault.halt = false ∧ id.toNat = k.val + 1 ∧
      s.pcf[k] = paramsA ∧ s.pst[k] = ⟨0, 0, 0, .idle⟩ ∧
      s.inbox = List.replicate n (.request .ctl (encode (.pid id 0x40A00000#32 0 0x3F800000#32))) :=
  ⟨3, withInbox (List.replicate 3 (ask .ctl (.pid 7 0x40A00000#32 0 0x3F800000#32))) (ready .rx), 6, 7, by decide +kernel⟩

theorem witness_NoDerivativeKick :
    ∃ (s t : State) (id : BitVec 8) (k : Fin N) (reference feedback dt v : Num32),
      s.pcf[k].dmeas = true ∧ s.pst[k].lastFeedback = feedback ∧ F32.isFinite feedback = true ∧
      F32.isNaN dt = false ∧ F32.gt dt F32.zero = true ∧ id.toNat = k.val + 1 ∧ s.port = .ctl ∧
      exec (.pid id reference feedback dt) s = .next t ∧ responseAt .ctl t.rsp = some (.ok (.output v)) :=
  ⟨writePst 0 ⟨0, 0, 0x3F800000#32, .running⟩ (ready .ctl), _, 1, 0, 0x41300000#32, 0x3F800000#32, 0x3F000000#32, 0x41AA0000#32,
    by decide +kernel, by decide +kernel, by decide +kernel, by decide +kernel, by decide +kernel, by decide +kernel, by decide +kernel, rfl, by decide +kernel⟩

theorem witness_EqualControllersAnswerEqually :
    ∃ (inputs : List (Num32 × Num32 × Num32)) (s s' : State) (id id' : BitVec 8) (k k' : Fin N),
      inputs.length = 2 ∧ id.toNat = k.val + 1 ∧ id'.toNat = k'.val + 1 ∧ s.pcf[k] = s'.pcf[k'] ∧
      s.pst[k] = s'.pst[k'] ∧ s.fault.halt = s'.fault.halt ∧ s.rsp.ctl = s'.rsp.ctl ∧
      s.inbox = inputs.map (fun x => .request .ctl (encode (.pid id x.1 x.2.1 x.2.2))) ∧
      s'.inbox = inputs.map (fun x => .request .ctl (encode (.pid id' x.1 x.2.1 x.2.2))) :=
  ⟨[(0x40A00000#32, 0, 0x3F800000#32), (0, 0, 0x3F800000#32)],
    withInbox [ask .ctl (.pid 1 0x40A00000#32 0 0x3F800000#32), ask .ctl (.pid 1 0 0 0x3F800000#32)] (ready .rx),
    withInbox [ask .ctl (.pid 7 0x40A00000#32 0 0x3F800000#32), ask .ctl (.pid 7 0 0 0x3F800000#32)] (ready .cfg),
    1, 7, 0, 6, by decide +kernel⟩

theorem witness_PrstMakesTheControllerIdle : ∃ (s : State) (id : BitVec 8) (k : Fin N),
    s.fault.halt = false ∧ s.port = .cfg ∧ id.toNat = k.val + 1 := ⟨ready .cfg, 7, 6, by decide +kernel⟩

theorem witness_ControllerStateMachine : ∃ (s t t' : State) (rest : List Event) (i : Instr),
    s.inbox = .reset :: rest ∧ step s = .next t ∧ exec i s = .next t' :=
  ⟨withInbox [.reset] (ready .cfg), _, _, [], .prst 7, rfl, rfl, rfl⟩

theorem witness_ControllerStateMachine_fault : ∃ (s t : State) (id : BitVec 8) (reference feedback dt : Num32),
    exec (.pid id reference feedback dt) s = .next t ∧ responseAt s.port t.rsp = some .fault :=
  ⟨ready .ctl, _, 1, 0, 0, 0x80000000#32, rfl, by decide +kernel⟩

theorem witness_RdtReadsTheRecord : ∃ (s : State) (id : BitVec 8) (k : Fin N),
    s.fault.halt = false ∧ s.port = .ctl ∧ id.toNat = k.val + 1 := ⟨ready .ctl, 7, 6, by decide +kernel⟩

theorem witness_WrcStoresTheClampedDemand : ∃ (s : State) (id : BitVec 8) (demand : Num32) (k : Fin N),
    s.fault.halt = false ∧ s.port = .ctl ∧ id.toNat = k.val + 1 ∧ s.codec.valid = true ∧ F32.isNaN demand = false :=
  ⟨ready .ctl, 7, 0x7F800000#32, 6, by decide +kernel⟩

theorem witness_CommandIsWithinItsBounds : ∃ (s t : State) (id : BitVec 8) (demand v : Num32) (k : Fin N),
    LegalCodec s.codec ∧ id.toNat = k.val + 1 ∧ s.port = .ctl ∧ exec (.wrc id demand) s = .next t ∧
    responseAt .ctl t.rsp = some (.ok (.stored v)) :=
  ⟨ready .ctl, _, 7, 0xFF800000#32, 0xC0400000#32, 6, (legal_ready .ctl).codec, by decide +kernel, by decide +kernel, rfl, by decide +kernel⟩

theorem witness_RdcReadsTheCommand : ∃ (s : State) (id : BitVec 8) (k : Fin N),
    s.fault.halt = false ∧ s.port = .ctl ∧ id.toNat = k.val + 1 := ⟨ready .ctl, 1, 0, by decide +kernel⟩

theorem witness_WrpReplacesTheParameters :
    ∃ (s : State) (id : BitVec 8) (kp ki kd integralLimit outputLimit sepThreshold : Num32) (k : Fin N),
      s.fault.halt = false ∧ s.port = .cfg ∧ id.toNat = k.val + 1 ∧
      ∀ x ∈ [kp, ki, kd, integralLimit, outputLimit, sepThreshold], F32.isNaN x = false :=
  ⟨{ State.reset with port := .cfg }, 7, 0x40000000#32, 0, 0x80000000#32, 0xFF800000#32,
    0xC0800000#32, 0x420C0000#32, 6, by
    simp only [List.forall_mem_cons, List.not_mem_nil, false_imp_iff, implies_true, and_true]
    decide +kernel⟩

theorem witness_NextTickSeesTheNewParameters :
    ∃ (s t u : State) (id : BitVec 8) (sepEn dmeas : Bool)
      (kp ki kd integralLimit outputLimit sepThreshold reference feedback dt v : Num32) (k : Fin N),
      id.toNat = k.val + 1 ∧ s.fault.halt = false ∧
      exec (.wrp id sepEn dmeas kp ki kd integralLimit outputLimit sepThreshold) { s with port := .cfg } = .next t ∧
      exec (.pid id reference feedback dt) { t with port := .ctl } = .next u ∧
      responseAt .ctl u.rsp = some (.ok (.output v)) :=
  ⟨State.reset, _, _, 1, true, true, 0x40000000#32, 0x3F000000#32, 0x3E800000#32, 0x41200000#32, 0x42C80000#32, 0x420C0000#32, 0x40A00000#32, 0,
    0x3F800000#32, 0x41340000#32, 0, by decide +kernel, by decide +kernel, rfl, rfl, by decide +kernel⟩

theorem witness_WrkReplacesTheCodec : ∃ (s : State) (iFs angleNum angleDen : Num32),
    s.fault.halt = false ∧ s.port = .cfg ∧ F32.isNaN iFs = false ∧ F32.isNaN angleNum = false ∧
    F32.isNaN angleDen = false := ⟨{ State.reset with port := .cfg }, 0x40400000#32, Config.twoPi, 0x45FFF800#32, by decide +kernel⟩

theorem witness_RdfReadsTheFaultRecord_word :
    ∃ (s s' : State) (q : Port) (c : Command) (rest : List Event), s.inbox = .request q c :: rest ∧
      s'.inbox = .request q c :: rest ∧ c.word.extractLsb' 24 8 = 0x50#8 ∧ c.word.extractLsb' 0 24 ≠ 0 ∧
      s.fault.halt = false ∧ s'.fault.halt = true :=
  ⟨withInbox [.request .rx ⟨0x50000001#32, []⟩] (ready .rx), withInbox [.request .rx ⟨0x50000001#32, []⟩] (halted .rx), .rx,
    ⟨0x50000001#32, []⟩, [], by decide +kernel⟩

theorem witness_RdfReadsTheFaultRecord_run :
    ∃ s : State, s.fault.halt = false ∧ s.pcf[(0 : Fin N)].valid = true ∧
      s.inbox = [.request .ctl (encode (.pid 1 0x40A00000#32 0 0)), .request .ctl (encode .rdf)] :=
  ⟨withInbox [ask .ctl (.pid 1 0x40A00000#32 0 0), ask .ctl .rdf] (ready .rx), by decide +kernel⟩

theorem witness_TickEncodesWhatItStores : ∃ (s t : State) (id : BitVec 8) (k : Fin N) (reference dt other : Num32)
    (sel : Selector) (rs : List Response), s.fault.halt = false ∧ id.toNat = k.val + 1 ∧ s.codec.valid = true ∧
    s.pcf[k].valid = true ∧
    runScript .ctl (tickNext id reference sel dt other) [[], [], [], []] [] s = some (t, rs) ∧ t.fault.halt = false :=
  ⟨ready .cfg, _, 7, 6, 0x40A00000#32, 0x3F800000#32, 0, .velocity, _, by decide +kernel, by decide +kernel, by decide +kernel, by decide +kernel, rfl,
    by decide +kernel⟩

theorem witness_EncpPlacesTheEncodedBytes : ∃ (s : State) (id : BitVec 8) (k : Fin N) (demand : Num32),
    s.fault.halt = false ∧ id.toNat = k.val + 1 ∧ s.codec.valid = true ∧ F32.isNaN demand = false :=
  ⟨ready .cfg, 7, 6, 0x3FC00000#32, by decide +kernel⟩

/-- A build with another number of actuators (00_scope.md R8): `RDT` of its last id, and of the id after it. -/
theorem test_build_of_nine : (after (stepOf { State.resetOf 9 with inbox := [ask .ctl (.rdt 9)] }) (·.fault.cause),
    after (stepOf { State.resetOf 9 with inbox := [ask .ctl (.rdt 10)] }) (·.fault.cause)) = (some 0, some 2) := by
  decide +kernel

theorem witness_EveryBuildHasItsActuators : ∃ (m n : Nat) (j k : Fin n), Config.Buildable m ∧ m = 1 ∧
    Config.Buildable n ∧ n = 255 ∧ groupOf j = groupOf k ∧ frameSlot j = frameSlot k :=
  ⟨1, 255, 254, 254, by decide +kernel⟩

theorem witness_EveryBuildServesAndStaysLegal :
    ∃ (n : Nat) (s t : State n) (q : Port) (c : Command) (rest : List Event), n = 9 ∧ Legal s ∧
      stepOf s = .next t ∧ s.inbox = .request q c :: rest ∧ presentable (Config.groups n) c = true ∧ t.codec ≠ s.codec :=
  ⟨9, { State.resetOf 9 with
      inbox := [ask .cfg (.wrk 16384 0x200 [0x200, 0x1FF, 0x1FE] 0x40400000#32 Config.twoPi 0x45FFF800#32)] }, _, .cfg,
    encode (.wrk 16384 0x200 [0x200, 0x1FF, 0x1FE] 0x40400000#32 Config.twoPi 0x45FFF800#32), [], rfl,
    ⟨by unfold LegalTel; decide +kernel, by decide +kernel, by unfold LegalPst; decide +kernel,
      by unfold LegalPcf; decide +kernel, by unfold LegalCodec; decide +kernel, rfl, by decide +kernel⟩,
    rfl, rfl, by decide +kernel, by decide +kernel⟩

end Sys2Proof.Tests
end

