-- ==== Sys2Proof/Proofs/Rounding.lean ====
section
/-! SUPPORT. Correct rounding (00_scope.md R9): `roundUnits` is nearest with ties to even below the overflow
threshold and the infinity from it on. `add`, `mul`, `div` and `ofInt` inherit it, each being one `roundUnits` of an
exact value. -/

namespace Sys2Proof.F32

/-! ### Signed values -/

/-- The integer with this sign and this absolute value, as `value` puts the two together. -/
def signed (neg : Bool) (n : Nat) : Int := if neg then -(n : Int) else n

theorem value_eq_signed (x : Num32) : value x = signed (sign x) (units x) := rfl

@[simp] theorem abs_signed (b : Bool) (n : Nat) : |signed b n| = n := by cases b <;> simp [signed]

@[simp] theorem abs_value (x : Num32) : |value x| = units x := by rw [value_eq_signed, abs_signed]

@[simp] theorem signed_zero (b : Bool) : signed b 0 = 0 := by cases b <;> simp [signed]

theorem signed_mul_signed (a b : Bool) (m n : Nat) : signed a m * signed b n = signed (a != b) (m * n) := by
  cases a <;> cases b <;> simp [signed]

theorem signed_mul_natCast (b : Bool) (m n : Nat) : signed b m * (n : Int) = signed b (m * n) := by
  cases b <;> simp [signed]

/-- The distance of two values of one sign is that of their absolute values. -/
theorem abs_signed_sub_signed_same (b : Bool) (m n : Nat) : |signed b m - signed b n| = |(m : Int) - n| := by
  cases b with
  | false => rfl
  | true => rw [abs_sub_comm (m : Int)]; simp only [signed, if_true]; congr 1; ring

/-- The distance of two values of opposite signs is the sum of their absolute values. -/
theorem abs_signed_sub_signed_not (b : Bool) (m n : Nat) : |signed (!b) m - signed b n| = (m : Int) + n := by
  cases b with
  | false =>
    have h : signed (!false) m - signed false n = -((m : Int) + n) := by simp [signed]; ring
    rw [h, abs_neg, abs_of_nonneg (by omega)]
  | true =>
    have h : signed (!true) m - signed true n = (m : Int) + n := by simp [signed]
    rw [h, abs_of_nonneg (by omega)]

theorem signed_natAbs (z : Int) : signed (decide (z < 0)) z.natAbs = z := by
  by_cases h : z < 0
  · simp only [signed, h, decide_true, if_true]; omega
  · simp only [signed, h, decide_false, Bool.false_eq_true, if_false]; omega

/-! ### The overflow threshold -/

/-- The least absolute value, in units of 2^-149, that rounds to an infinity: half a step above the greatest finite
value. -/
def overflowUnits : Nat := (2 ^ 25 - 1) * 2 ^ 252

theorem overflowUnits_cast : (overflowUnits : Int) = (2 ^ 25 - 1) * 2 ^ 252 := by decide

/-- Rounding gives a finite pattern exactly below the overflow threshold: the scale alone decides, except in the last
binade, where the significand must not round up to 2^24. -/
theorem roundMag_lt_infMag_iff {n d : Nat} (hd : 0 < d) : roundMag n d < infMag ↔ n < overflowUnits * d := by
  obtain ⟨hm, hm', hn⟩ := roundDiv_scale (n := n) hd
  obtain ⟨hlow, hhigh⟩ := roundDiv_near (n := n) (Nat.mul_pos hd (Nat.two_pow_pos (scaleOf n d)))
  have heven := roundDiv_even (n := n) (Nat.mul_pos hd (Nat.two_pow_pos (scaleOf n d)))
  have hmag : roundMag n d = min (scaleOf n d * 2 ^ 23 + roundDiv n (d * 2 ^ scaleOf n d)) infMag := rfl
  have hinf : infMag = 255 * 2 ^ 23 := rfl
  obtain ⟨e, he⟩ : ∃ e, e = d * 2 ^ 252 := ⟨_, rfl⟩
  have hepos : 0 < e := he ▸ Nat.mul_pos hd (Nat.two_pow_pos _)
  have hT : overflowUnits * d = (2 ^ 25 - 1) * e := by rw [overflowUnits, he]; ring
  have h253 : d * 2 ^ 253 = 2 * e := by rw [he]; ring
  have hbelow : scaleOf n d ≤ 252 → d * 2 ^ scaleOf n d ≤ e := fun h =>
    he ▸ Nat.mul_le_mul_left d (Nat.pow_le_pow_right (by decide) h)
  have habove : 254 ≤ scaleOf n d → 4 * e ≤ d * 2 ^ scaleOf n d := fun h => by
    rw [show 4 * e = d * 2 ^ 254 by rw [he]; ring]
    exact Nat.mul_le_mul_left d (Nat.pow_le_pow_right (by decide) h)
  rw [pow_add, Nat.mul_left_comm] at hn
  rw [hmag, hinf, hT]
  generalize scaleOf n d = s at *
  clear he hmag
  rcases Nat.lt_trichotomy s 253 with hlt | rfl | hgt
  · have hmD := Nat.mul_le_mul_right (d * 2 ^ s) hm
    omega
  · rw [h253] at *
    generalize roundDiv n (2 * e) = m at *
    rcases Nat.lt_trichotomy m (2 ^ 24 - 1) with hlt | rfl | hgt
    · have hmD := Nat.mul_le_mul_right (2 * e) (Nat.le_sub_one_of_lt hlt)
      omega
    · omega
    · obtain rfl : m = 2 ^ 24 := by omega
      omega
  · omega

@[simp] theorem roundMag_zero (d : Nat) : roundMag 0 d = 0 := by
  have hlog : Nat.log2 0 = 0 := by decide
  simp [roundMag, scaleOf, roundDiv, hlog]

theorem isFinite_roundUnits_iff {b : Bool} {n d : Nat} (hd : 0 < d) :
    isFinite (roundUnits b n d) = true ↔ n < overflowUnits * d := by
  rw [isFinite_iff, mag_roundUnits, roundMag_lt_infMag_iff hd]

theorem roundUnits_overflow {b : Bool} {n d : Nat} (hd : 0 < d) (h : overflowUnits * d ≤ n) :
    roundUnits b n d = inf b := by
  have hmag : roundMag n d = infMag := by
    have := roundMag_le n d
    have := (roundMag_lt_infMag_iff (n := n) hd).not
    omega
  rw [roundUnits, hmag, inf]

theorem isInf_inf (b : Bool) : isInf (inf b) = true := by cases b <;> decide

/-! ### Nearest, ties to even -/

theorem value_roundUnits (b : Bool) (n d : Nat) : value (roundUnits b n d) = signed b (unitsOfMag (roundMag n d)) := by
  rw [value_eq_signed, sign_roundUnits, units, mag_roundUnits]

/-- Below the overflow threshold no value is nearer to the exact one than the rounded value, and on a tie with another
value the rounded one is even. A value of the other sign is no nearer than the zero. -/
theorem roundUnits_nearest {b : Bool} {n d : Nat} (hd : 0 < d) (h : n < overflowUnits * d) (c : Num32) :
    |value (roundUnits b n d) * d - signed b n| ≤ |value c * d - signed b n| ∧
      (|value (roundUnits b n d) * d - signed b n| = |value c * d - signed b n| →
        value c ≠ value (roundUnits b n d) → mag (roundUnits b n d) % 2 = 0) := by
  have hfin := (roundMag_lt_infMag_iff hd).mpr h
  obtain ⟨hle, htie⟩ := roundMag_nearest hd hfin (mag c)
  rw [value_roundUnits, mag_roundUnits, value_eq_signed c, signed_mul_natCast, signed_mul_natCast,
    abs_signed_sub_signed_same]
  push_cast
  by_cases hs : sign c = b
  · rw [hs, abs_signed_sub_signed_same]
    push_cast
    exact ⟨hle, fun he hne => htie he fun hm => hne (by rw [units, hm])⟩
  · have hsc : sign c = !b := by cases b <;> simpa using hs
    obtain ⟨hzero, _⟩ := roundMag_nearest hd hfin 0
    have hbound : |(unitsOfMag (mag c) * d : Int) - n| ≤ unitsOfMag (mag c) * d + n := by
      rw [abs_le]
      have : (0 : Int) ≤ unitsOfMag (mag c) * d := by positivity
      omega
    rw [hsc, abs_signed_sub_signed_not]
    push_cast
    refine ⟨hle.trans hbound, fun he hne => htie (le_antisymm hle (hbound.trans he.ge)) fun hm => hne ?_⟩
    have hu : units c = 0 := by
      rw [he, unitsOfMag_zero, Nat.cast_zero, zero_mul, zero_sub, abs_neg, Nat.abs_cast] at hzero
      have hmul : (units c * d : Nat) ≤ 0 := by exact_mod_cast (by linarith : (units c * d : Int) ≤ 0)
      exact (Nat.mul_eq_zero.mp (Nat.le_zero.mp hmul)).resolve_right hd.ne'
    rw [← hm, show unitsOfMag (mag c) = 0 from hu, hu, signed_zero, signed_zero]

/-! ### The operations as one rounding of an exact value -/

theorem isFinite_elim {x : Num32} (h : isFinite x = true) : isNaN x = false ∧ isInf x = false :=
  ⟨not_nan_of_finite h, not_inf_of_finite h⟩

theorem add_of_finite {a b : Num32} (ha : isFinite a = true) (hb : isFinite b = true) : add a b = addFinite a b := by
  simp [add, isFinite_elim ha, isFinite_elim hb]

theorem mul_of_finite {a b : Num32} (ha : isFinite a = true) (hb : isFinite b = true) :
    mul a b = roundUnits (signProduct a b) (units a * units b) (2 ^ 149) := by
  simp only [mul, isFinite_elim ha, isFinite_elim hb, Bool.or_self, Bool.false_eq_true, if_false]

theorem div_of_finite {a b : Num32} (ha : isFinite a = true) (hb : isFinite b = true) (hz : isZero b = false) :
    div a b = roundUnits (signProduct a b) (units a * 2 ^ 149) (units b) := by
  simp only [div, isFinite_elim ha, isFinite_elim hb, hz, Bool.or_self, Bool.false_eq_true, if_false]

/-- The sign that `addFinite` gives a sum: of an exact zero it is negative only for two negative operands. -/
def sumSign (a b : Num32) : Bool :=
  if value a + value b = 0 then sign a && sign b else decide (value a + value b < 0)

theorem addFinite_eq_roundUnits (a b : Num32) :
    addFinite a b = roundUnits (sumSign a b) (value a + value b).natAbs 1 := by
  unfold addFinite sumSign
  split
  · rename_i h
    rw [h, Int.natAbs_zero, roundUnits, roundMag_zero, signedZero]
  · rfl

theorem signed_sumSign (a b : Num32) : signed (sumSign a b) (value a + value b).natAbs = value a + value b := by
  unfold sumSign
  split
  · rename_i h
    rw [h, Int.natAbs_zero, signed_zero]
  · exact signed_natAbs _

theorem value_mul_value (a b : Num32) : value a * value b = signed (signProduct a b) (units a * units b) :=
  signed_mul_signed _ _ _ _

theorem units_pos {x : Num32} (h : isZero x = false) : 0 < units x := by
  have hmag : 0 < mag x := Nat.pos_of_ne_zero (by simpa [isZero] using h)
  rw [units, ← unitsOfMag_zero]
  exact unitsOfMag_strictMono hmag

/-- A distance multiplied out by a divisor is the distance multiplied out by its absolute value, the dividend taking the
divisor's sign. -/
theorem abs_mul_value_sub (y : Int) (a b : Num32) :
    |y * value b - value a * 2 ^ 149| = |y * units b - signed (signProduct a b) (units a * 2 ^ 149)| := by
  rw [value_eq_signed a, value_eq_signed b, signProduct]
  cases hb : sign b with
  | false => cases sign a <;> simp [signed]
  | true =>
    rw [← abs_neg]
    congr 1
    cases sign a <;> simp [signed] <;> ring

/-! ### The obligations on sums, products and quotients -/

/-- Settles O31: a sum is one rounding, of the exact sum over 1. -/
theorem addIsCorrectlyRounded : Obligations.AddIsCorrectlyRounded := by
  intro a b ha hb
  have hadd : add a b = roundUnits (sumSign a b) (value a + value b).natAbs 1 := by
    rw [add_of_finite ha hb, addFinite_eq_roundUnits]
  have hlim : |value a + value b| < (2 ^ 25 - 1) * 2 ^ 252 ↔ (value a + value b).natAbs < overflowUnits * 1 := by
    rw [Int.abs_eq_natAbs, ← overflowUnits_cast, mul_one, Nat.cast_lt]
  refine ⟨fun h => ⟨hadd ▸ (isFinite_roundUnits_iff one_pos).mpr (hlim.mp h), fun c _ => ?_⟩, fun h => ?_,
    fun h => ?_⟩
  · have hnear := roundUnits_nearest (b := sumSign a b) one_pos (hlim.mp h) c
    rwa [← hadd, signed_sumSign, Nat.cast_one, mul_one, mul_one] at hnear
  · have hle := not_lt.mp (hlim.not.mp h.not_gt)
    have hne : value a + value b ≠ 0 := fun h0 => by
      rw [h0, Int.natAbs_zero] at hle
      exact absurd hle (by decide)
    rw [hadd, roundUnits_overflow one_pos hle, sumSign, if_neg hne]
  · rw [add_of_finite ha hb, addFinite, if_pos h]

/-- Settles O32: a product is one rounding, of the product of the units over 2^149. -/
theorem mulIsCorrectlyRounded : Obligations.MulIsCorrectlyRounded := by
  intro a b ha hb
  have hmul := mul_of_finite ha hb
  have hd : 0 < 2 ^ 149 := Nat.two_pow_pos _
  have hlim : |value a * value b| < (2 ^ 25 - 1) * 2 ^ 252 * 2 ^ 149 ↔
      units a * units b < overflowUnits * 2 ^ 149 := by
    rw [value_mul_value, abs_signed, ← overflowUnits_cast]
    norm_cast
  refine ⟨fun h => ⟨hmul ▸ (isFinite_roundUnits_iff hd).mpr (hlim.mp h), fun c _ => ?_⟩, fun h => ?_, ?_⟩
  · have hnear := roundUnits_nearest (b := signProduct a b) hd (hlim.mp h) c
    rw [← hmul, ← value_mul_value] at hnear
    exact_mod_cast hnear
  · rw [hmul, roundUnits_overflow hd (not_lt.mp (hlim.not.mp h.not_gt)), isInf_inf]
  · rw [hmul, sign_roundUnits, signProduct]

/-- Settles O33: a quotient is one rounding, of the dividend's units times 2^149 over the divisor's units. -/
theorem divIsCorrectlyRounded : Obligations.DivIsCorrectlyRounded := by
  intro a b ha hb hb0
  have hdiv := div_of_finite ha hb hb0
  have hd := units_pos hb0
  have hlim : |value a * 2 ^ 149| < (2 ^ 25 - 1) * 2 ^ 252 * |value b| ↔
      units a * 2 ^ 149 < overflowUnits * units b := by
    rw [abs_mul, abs_value, abs_value, abs_of_pos (by positivity), ← overflowUnits_cast]
    norm_cast
  refine ⟨fun h => ⟨hdiv ▸ (isFinite_roundUnits_iff hd).mpr (hlim.mp h), fun c _ => ?_⟩, fun h => ?_, ?_⟩
  · rw [abs_mul_value_sub, abs_mul_value_sub, hdiv]
    exact roundUnits_nearest hd (hlim.mp h) c
  · rw [hdiv, roundUnits_overflow hd (not_lt.mp (hlim.not.mp h.not_gt)), isInf_inf]
  · rw [hdiv, sign_roundUnits, signProduct]

end Sys2Proof.F32
end

