-- ==== Sys2Proof/Proofs/NumLaws.lean ====
section
/-! SUPPORT. The laws of the other operations on `Num` (00_scope.md R15 to R17): which results are NaN, the order of the
values, clamping, and the conversions from and to integers. -/

namespace Sys2Proof.F32

/-! ### Integers as values -/

/-- A whole number of at most 24 bits is the worth of a pattern. -/
theorem exists_unitsOfMag_eq {k : Nat} (hk : k < 2 ^ 24) : ∃ p, unitsOfMag p = k * 2 ^ 149 := by
  rcases Nat.eq_zero_or_pos k with rfl | hpos
  · exact ⟨0, by rw [unitsOfMag_zero, Nat.zero_mul]⟩
  · obtain ⟨l, hl⟩ : ∃ l, Nat.log2 k = l := ⟨_, rfl⟩
    have hlow : 2 ^ l ≤ k := hl ▸ Nat.log2_self_le hpos.ne'
    have hhigh : k < 2 ^ (l + 1) := hl ▸ Nat.lt_log2_self
    have hl23 : l ≤ 23 := by
      have := (Nat.pow_lt_pow_iff_right (a := 2) (by decide)).mp (lt_of_le_of_lt hlow hk)
      omega
    have hm23 : 2 ^ 23 ≤ k * 2 ^ (23 - l) := calc
      2 ^ 23 = 2 ^ l * 2 ^ (23 - l) := by rw [← pow_add, Nat.add_sub_cancel' hl23]
      _ ≤ k * 2 ^ (23 - l) := Nat.mul_le_mul_right _ hlow
    have hm24 : k * 2 ^ (23 - l) ≤ 2 ^ 24 := calc
      k * 2 ^ (23 - l) ≤ 2 ^ (l + 1) * 2 ^ (23 - l) := Nat.mul_le_mul_right _ hhigh.le
      _ = 2 ^ 24 := by rw [← pow_add]; congr 1; omega
    refine ⟨(126 + l) * 2 ^ 23 + k * 2 ^ (23 - l), ?_⟩
    rw [unitsOfMag_of_scale hm24 (.inr hm23), Nat.mul_assoc, ← pow_add]
    congr 2
    omega

theorem isFinite_ofInt {i : Int} (h : i.natAbs < 2 ^ 24) : isFinite (ofInt i) = true := by
  refine (isFinite_roundUnits_iff one_pos).mpr (lt_of_lt_of_le (Nat.mul_lt_mul_of_pos_right h (Nat.two_pow_pos _)) ?_)
  decide

/-- `ofInt` is exact on integers of at most 24 bits: a pattern of the exact value is there, and none is nearer. -/
theorem value_ofInt {i : Int} (h : i.natAbs < 2 ^ 24) : value (ofInt i) = i * 2 ^ 149 := by
  obtain ⟨p, hp⟩ := exists_unitsOfMag_eq h
  have hfin : roundMag (i.natAbs * 2 ^ 149) 1 < infMag := by
    simpa only [isFinite_iff, ofInt, mag_roundUnits] using isFinite_ofInt h
  have hunits : unitsOfMag (roundMag (i.natAbs * 2 ^ 149) 1) = i.natAbs * 2 ^ 149 := by
    have hnear := (roundMag_nearest one_pos hfin p).1
    rw [hp, Nat.cast_one, mul_one, mul_one, sub_self, abs_zero] at hnear
    exact_mod_cast sub_eq_zero.mp (abs_nonpos_iff.mp hnear)
  rw [ofInt, value_roundUnits, hunits]
  calc signed (decide (i < 0)) (i.natAbs * 2 ^ 149)
      = signed (decide (i < 0)) i.natAbs * (2 ^ 149 : Nat) := (signed_mul_natCast _ _ _).symm
    _ = i * 2 ^ 149 := by rw [signed_natAbs, Nat.cast_pow, Nat.cast_ofNat]

theorem isZero_ofInt {i : Int} (h : i.natAbs < 2 ^ 24) (h0 : i ≠ 0) : isZero (ofInt i) = false := by
  rw [isZero, beq_eq_false_iff_ne]
  intro hmag
  have hv := value_ofInt h
  rw [value_eq_signed, units, hmag, unitsOfMag_zero, signed_zero] at hv
  have : (2 : Int) ^ 149 ≠ 0 := by positivity
  exact (mul_ne_zero h0 this) hv.symm

/-- Settles O34: 65535 needs 16 of the 24 bits. -/
theorem ofIntIsExact : Obligations.OfIntIsExact := fun i hi =>
  have h : i.natAbs < 2 ^ 24 := by rw [Int.abs_eq_natAbs] at hi; omega
  ⟨isFinite_ofInt h, value_ofInt h⟩

/-! ### Which results are NaN -/

theorem isZero_of_isInf {x : Num32} (h : isInf x = true) : isZero x = false := by
  simp only [isInf, isZero, beq_iff_eq, beq_eq_false_iff_ne] at *
  rw [h]
  decide

section nan
variable {a b : Num32} (ha : isNaN a = false) (hb : isNaN b = false)
include ha hb

theorem isNaN_add_iff : isNaN (add a b) = true ↔ isInf a = true ∧ isInf b = true ∧ sign a ≠ sign b := by
  cases hia : isInf a with
  | false =>
    cases hib : isInf b with
    | false =>
      simp [isNaN_add_finite (finite_of_not_nan_not_inf ha hia) (finite_of_not_nan_not_inf hb hib)]
    | true => simp [add, ha, hb, hia, hib]
  | true =>
    cases hib : isInf b with
    | false => simp [add, ha, hb, hia, hib]
    | true => by_cases hs : sign a = sign b <;> simp [add, ha, hb, hia, hib, hs]

theorem isNaN_mul_iff : isNaN (mul a b) = true ↔
    (isInf a = true ∧ isZero b = true) ∨ (isZero a = true ∧ isInf b = true) := by
  cases hia : isInf a with
  | false =>
    cases hib : isInf b with
    | false =>
      simp [isNaN_mul_finite (finite_of_not_nan_not_inf ha hia) (finite_of_not_nan_not_inf hb hib)]
    | true => cases hz : isZero a <;> simp [mul, ha, hb, hia, hib, hz, isZero_of_isInf hib]
  | true => cases hz : isZero b <;> simp [mul, ha, hb, hia, hz, isZero_of_isInf hia]

theorem isNaN_div_iff (hz : isZero b = false) : isNaN (div a b) = true ↔ isInf a = true ∧ isInf b = true := by
  cases hib : isInf b with
  | false => simp [isNaN_div ha (finite_of_not_nan_not_inf hb hib) hz]
  | true => cases hia : isInf a <;> simp [div, ha, hb, hia, hib]

end nan

/-- Settles O35: rounding makes no NaN, so only the branches for infinities are left. -/
theorem nanArisesOnlyFromInfinities : Obligations.NanArisesOnlyFromInfinities := fun _ _ ha hb =>
  ⟨isNaN_add_iff ha hb, isNaN_mul_iff ha hb, isNaN_div_iff ha hb⟩

/-! ### The order of the values -/

/-- A value is finite where it lies strictly between the infinities. -/
theorem isFinite_iff_key {x : Num32} : isFinite x = true ↔ -(infMag : Int) < key x ∧ key x < infMag := by
  rw [isFinite_iff]
  cases hs : sign x <;> simp only [key, hs, if_true, Bool.false_eq_true, if_false] <;> omega

theorem key_inf (b : Bool) : key (inf b) = signed b infMag := by cases b <;> decide

section finite
variable {a b : Num32} (ha : isFinite a = true) (hb : isFinite b = true)
include ha hb

theorem lt_iff_value : lt a b = true ↔ value a < value b := by
  simp [lt_iff, not_nan_of_finite ha, not_nan_of_finite hb, value_lt_value_iff]

theorem le_iff_value : le a b = true ↔ value a ≤ value b := by
  simp [le_iff, not_nan_of_finite ha, not_nan_of_finite hb, value_le_value_iff]

end finite

/-- Where no operand is NaN, the one comparison is the other one's negation. -/
theorem le_eq_false_iff {a b : Num32} (ha : isNaN a = false) (hb : isNaN b = false) :
    le a b = false ↔ lt b a = true := by
  simp [le, lt, ha, hb]

theorem lt_eq_false_iff {a b : Num32} (ha : isNaN a = false) (hb : isNaN b = false) :
    lt a b = false ↔ le b a = true := by
  simp [le, lt, ha, hb]

theorem comparisons_of_nan {a b : Num32} (h : isNaN a = true ∨ isNaN b = true) :
    lt a b = false ∧ le a b = false ∧ gt a b = false := by
  rcases h with h | h <;> simp [gt, lt, le, h]

theorem lt_inf {a : Num32} (ha : isFinite a = true) : lt a (inf false) = true :=
  lt_iff.mpr ⟨not_nan_of_finite ha, isNaN_inf _, (key_inf false).symm ▸ (isFinite_iff_key.mp ha).2⟩

theorem neg_inf_lt {a : Num32} (ha : isFinite a = true) : lt (inf true) a = true :=
  lt_iff.mpr ⟨isNaN_inf _, not_nan_of_finite ha, (key_inf true).symm ▸ (isFinite_iff_key.mp ha).1⟩

/-- Settles O36: the comparisons compare keys, and keys are ordered as the values are. -/
theorem comparisonsOrderTheValues : Obligations.ComparisonsOrderTheValues := fun _ _ =>
  ⟨comparisons_of_nan, fun ha hb => ⟨lt_iff_value ha hb, le_iff_value ha hb, lt_iff_value hb ha⟩, fun ha =>
    ⟨lt_inf ha, neg_inf_lt ha, (le_eq_false_iff (isNaN_inf _) (not_nan_of_finite ha)).mpr (lt_inf ha),
      (le_eq_false_iff (not_nan_of_finite ha) (isNaN_inf _)).mpr (neg_inf_lt ha)⟩⟩

/-! ### Clamping -/

theorem clamp_of_nan {x : Num32} (lo hi : Num32) (h : isNaN x = true) : clamp x lo hi = x := by
  simp [clamp, gt, lt, h]

section clamp
variable {x limit : Num32}

theorem clamp_above (lo : Num32) (h : gt x limit = true) : clamp x lo limit = limit := by rw [clamp, if_pos h]

/-- A value in range is kept. -/
theorem clamp_inside {lo hi : Num32} (hlo : le lo x = true) (hhi : le x hi = true) : clamp x lo hi = x := by
  obtain ⟨_, _, h1⟩ := le_iff.mp hlo
  obtain ⟨_, _, h2⟩ := le_iff.mp hhi
  rcases clamp_cases x lo hi with ⟨h, _⟩ | ⟨_, h, _⟩ | ⟨_, _, e⟩
  · exact absurd (gt_iff.mp h).2.2 (not_lt.mpr h2)
  · exact absurd (lt_iff.mp h).2.2 (not_lt.mpr h1)
  · exact e

/-- A value below both limits goes to the lower one. -/
theorem clamp_below {lo hi : Num32} (hle : le lo hi = true) (h : lt x lo = true) : clamp x lo hi = lo := by
  obtain ⟨_, _, h1⟩ := le_iff.mp hle
  obtain ⟨_, _, h2⟩ := lt_iff.mp h
  rcases clamp_cases x lo hi with ⟨h', _⟩ | ⟨_, _, e⟩ | ⟨_, h', _⟩
  · exact absurd (gt_iff.mp h').2.2 (by omega)
  · exact e
  · rw [h] at h'; cases h'

/-- Between limits in order the result lies between them. -/
theorem clamp_mem {lo hi : Num32} (hle : le lo hi = true) (hx : isNaN x = false) :
    le lo (clamp x lo hi) = true ∧ le (clamp x lo hi) hi = true := by
  obtain ⟨hlo, hhi, hkey⟩ := le_iff.mp hle
  rcases clamp_cases x lo hi with ⟨_, e⟩ | ⟨_, _, e⟩ | ⟨hgt, hlt, e⟩
  · rw [e]
    exact ⟨hle, le_iff.mpr ⟨hhi, hhi, le_refl _⟩⟩
  · rw [e]
    exact ⟨le_iff.mpr ⟨hlo, hlo, le_refl _⟩, hle⟩
  · rw [e]
    exact ⟨(lt_eq_false_iff hx hlo).mp hlt, (lt_eq_false_iff hhi hx).mp hgt⟩

/-- A clamp between finite limits is finite. -/
theorem isFinite_clamp {lo hi : Num32} (hlo : isFinite lo = true) (hhi : isFinite hi = true) (hx : isNaN x = false) :
    isFinite (clamp x lo hi) = true := by
  rcases clamp_cases x lo hi with ⟨_, e⟩ | ⟨_, _, e⟩ | ⟨hgt, hlt, e⟩
  · rw [e, hhi]
  · rw [e, hlo]
  · have hxhi := (lt_eq_false_iff (not_nan_of_finite hhi) hx).mp hgt
    have hlox := (lt_eq_false_iff hx (not_nan_of_finite hlo)).mp hlt
    rw [e, isFinite_iff_key]
    exact ⟨lt_of_lt_of_le (isFinite_iff_key.mp hlo).1 (le_iff.mp hlox).2.2,
      lt_of_le_of_lt (le_iff.mp hxhi).2.2 (isFinite_iff_key.mp hhi).2⟩

end clamp

theorem neg_le_self {limit : Num32} (h : le zero limit = true) : le (neg limit) limit = true := by
  obtain ⟨_, hn, hk⟩ := le_iff.mp h
  rw [key_zero] at hk
  exact le_iff.mpr ⟨by rw [isNaN_neg, hn], hn, by rw [key_neg]; omega⟩

/-- Settles O37: `-limit <= limit` where `0 <= limit`, so the limits are in order. -/
theorem clampKeepsTheRange : Obligations.ClampKeepsTheRange :=
  ⟨fun _ lo hi => clamp_of_nan lo hi, fun _ limit hx hlimit =>
    have hle := neg_le_self hlimit
    ⟨(clamp_mem hle hx).1, (clamp_mem hle hx).2, clamp_inside, clamp_above (neg limit), clamp_below hle⟩⟩

/-! ### Rounding to a 16-bit integer -/

/-- The absolute value that `roundHAZ` gives to `u` units: the whole number of ones nearest to it, a tie going up. -/
def roundUp (u : Nat) : Nat := (2 * u + 2 ^ 149) / 2 ^ 150

theorem roundHAZ_eq_signed (x : Num32) : roundHAZ x = signed (sign x) (roundUp (units x)) := rfl

/-- A value is at most half a one away from its rounding, and at exactly half a one it is the smaller in absolute
value. -/
theorem roundHAZ_near (x : Num32) : 2 * |roundHAZ x * 2 ^ 149 - value x| ≤ 2 ^ 149 ∧
    (2 * |roundHAZ x * 2 ^ 149 - value x| = 2 ^ 149 → |value x| < |roundHAZ x * 2 ^ 149|) := by
  have hscale : roundHAZ x * 2 ^ 149 = signed (sign x) (roundUp (units x) * 2 ^ 149) := by
    rw [roundHAZ_eq_signed, ← signed_mul_natCast, Nat.cast_pow, Nat.cast_ofNat]
  have hlow : roundUp (units x) * 2 ^ 150 ≤ 2 * units x + 2 ^ 149 := Nat.div_mul_le_self _ _
  have hhigh : 2 * units x + 2 ^ 149 < (roundUp (units x) + 1) * 2 ^ 150 := by
    rw [Nat.mul_comm _ (2 ^ 150)]
    exact Nat.lt_mul_div_succ _ (Nat.two_pow_pos _)
  rw [hscale, value_eq_signed, abs_signed_sub_signed_same, abs_signed, abs_signed]
  rcases abs_cases (((roundUp (units x) * 2 ^ 149 : Nat) : Int) - units x) with ⟨e, _⟩ | ⟨e, _⟩ <;> rw [e] <;> omega

theorem natAbs_32767 : (32767 : Int).natAbs < 2 ^ 24 := by decide

theorem natAbs_neg_32768 : (-32768 : Int).natAbs < 2 ^ 24 := by decide

/-- The saturation limits are in order. -/
theorem limits_key_lt : key (ofInt (-32768)) < key (ofInt 32767) := by
  rw [← value_lt_value_iff, value_ofInt natAbs_32767, value_ofInt natAbs_neg_32768]
  decide

section toS16
variable {x : Num32} (hx : isNaN x = false)
include hx

theorem toS16_high (h : le (ofInt 32767) x = true) : toS16 x = 32767 := by
  rw [toS16, if_neg (by simp [hx]), if_pos h]

theorem toS16_low (h : le x (ofInt (-32768)) = true) : toS16 x = -32768 := by
  have hle : le (ofInt 32767) x = false := (le_eq_false_iff (isNaN_ofInt _) hx).mpr
    (lt_iff.mpr ⟨hx, isNaN_ofInt _, lt_of_le_of_lt (le_iff.mp h).2.2 limits_key_lt⟩)
  rw [toS16, if_neg (by simp [hx]), if_neg (by simp [hle]), if_pos h]

theorem toS16_between (h : le (ofInt 32767) x = false) (h' : le x (ofInt (-32768)) = false) :
    toS16 x = roundHAZ x := by
  rw [toS16, if_neg (by simp [hx]), if_neg (by simp [h]), if_neg (by simp [h'])]

/-- Strictly between the saturation limits the rounding stays between them. -/
theorem roundHAZ_mem (h : le (ofInt 32767) x = false) (h' : le x (ofInt (-32768)) = false) :
    -32768 ≤ roundHAZ x ∧ roundHAZ x ≤ 32767 := by
  have hhigh := value_lt_value_iff.mpr (lt_iff.mp ((le_eq_false_iff (isNaN_ofInt _) hx).mp h)).2.2
  have hlow := value_lt_value_iff.mpr (lt_iff.mp ((le_eq_false_iff hx (isNaN_ofInt _)).mp h')).2.2
  rw [value_ofInt natAbs_32767, value_eq_signed] at hhigh
  rw [value_ofInt natAbs_neg_32768, value_eq_signed] at hlow
  rw [roundHAZ_eq_signed]
  cases hs : sign x <;> simp only [hs, signed, roundUp, if_true, Bool.false_eq_true, if_false] at * <;> omega

theorem toS16_mem : -32768 ≤ toS16 x ∧ toS16 x ≤ 32767 := by
  cases h : le (ofInt 32767) x with
  | true => rw [toS16_high hx h]; decide
  | false =>
    cases h' : le x (ofInt (-32768)) with
    | true => rw [toS16_low hx h']; decide
    | false => rw [toS16_between hx h h']; exact roundHAZ_mem hx h h'

end toS16

end Sys2Proof.F32

namespace Sys2Proof.Machine
open Sys2Proof.F32

/-! ### The constants of a configured codec -/

/-- What the legality check of `WRK` asks (42_registry.md R147). -/
theorem configLegal_iff {iFs : Num32} {rawFs : BitVec 15} {angleNum angleDen : Num32} :
    configLegal iFs rawFs angleNum angleDen = true ↔ isFinite iFs = true ∧ gt iFs zero = true ∧ 1 ≤ rawFs.toNat ∧
      isFinite angleNum = true ∧ isFinite angleDen = true ∧ isZero angleDen = false := by
  simp [configLegal, and_assoc]

theorem isZero_of_pos {x : Num32} (h : gt x zero = true) : isZero x = false := by
  have hk := (gt_iff.mp h).2.2
  rw [key_zero] at hk
  rw [isZero, beq_eq_false_iff_ne]
  intro hm
  simp [key, hm] at hk

variable {G : Nat} {c : Codec G}

theorem legalCodec_valid (hv : c.valid = true) (hc : LegalCodec c) :
    configLegal c.iFs c.rawFs c.angleNum c.angleDen = true := by
  rwa [LegalCodec, if_pos hv] at hc

theorem isFinite_ofInt_rawFs (r : BitVec 15) : isFinite (ofInt (r.toNat : Int)) = true :=
  isFinite_ofInt (lt_trans r.isLt (by decide))

/-- The demand within the full scale, times the full-scale count, over the full scale: never a NaN. -/
theorem isNaN_encode_argument {demand : Num32} (hv : c.valid = true) (hc : LegalCodec c) (hd : isNaN demand = false) :
    isNaN (div (mul (clamp demand (neg c.iFs) c.iFs) (ofInt (c.rawFs.toNat : Int))) c.iFs) = false := by
  obtain ⟨hfin, hpos, _⟩ := configLegal_iff.mp (legalCodec_valid hv hc)
  have hclamp : isFinite (clamp demand (neg c.iFs) c.iFs) = true :=
    isFinite_clamp (by rw [isFinite_neg, hfin]) hfin hd
  exact isNaN_div (isNaN_mul_finite hclamp (isFinite_ofInt_rawFs _)) hfin (isZero_of_pos hpos)

/-- Settles O38: saturation by the first two branches, `roundHAZ` between the limits. -/
theorem toS16RoundsToNearest : Obligations.ToS16RoundsToNearest := by
  refine ⟨fun x hx => ⟨toS16_high hx, toS16_low hx, fun h h' => ?_, toS16_mem hx⟩, by decide,
    fun _ _ => isNaN_encode_argument⟩
  rw [toS16_between hx h h']
  exact roundHAZ_near x

end Sys2Proof.Machine
end

