-- ==== Sys2Proof/Proofs/Legality.lean ====
section
/-! SUPPORT. Every operation of every build ends in a next state, and keeps the legal states (10_state.md R31, R33, R34;
40_codec.md R111; 41_pid.md R121, R128). One predicate says both of an outcome, and each shared operation of a meaning
has one lemma that passes it on. -/

namespace Sys2Proof.Machine
open Sys2Proof.F32

/-! ### Records without NaN -/

/-- Operands that pass the NaN check (30_encoding.md R81 step 7). -/
theorem not_anyNaN_iff {l : List Num32} : (!anyNaN l) = true ↔ ∀ x ∈ l, isNaN x = false := by simp [anyNaN]

theorem isNaN_decode {i : Int} {x y : Num32} (hi : i.natAbs < 2 ^ 24) (hx : isFinite x = true) (hy : isFinite y = true)
    (hy0 : isZero y = false) : isNaN (div (mul (ofInt i) x) y) = false :=
  isNaN_div (isNaN_mul_finite (isFinite_ofInt hi) hx) hy hy0

theorem be16_natAbs_lt (high low : Byte) : (be16 high low : Int).natAbs < 2 ^ 24 := by
  rw [Int.natAbs_natCast, be16_eq]
  exact lt_trans (BitVec.isLt _) (by decide)

theorem s16_be16_natAbs_lt (high low : Byte) : (s16 (be16 high low)).natAbs < 2 ^ 24 := by
  have hlt : be16 high low < 2 ^ 16 := be16_eq high low ▸ BitVec.isLt _
  unfold s16
  split <;> omega

/-- What a configured codec decodes is no NaN (40_codec.md R111). -/
theorem legalTel_decodeTel {G : Nat} {c : Codec G} (hv : c.valid = true) (hc : LegalCodec c) (p : Payload) :
    LegalTel (decodeTel p c) := by
  obtain ⟨hfin, _, hraw, hnum, hden, hden0⟩ := configLegal_iff.mp (legalCodec_valid hv hc)
  have hraw0 : isZero (ofInt (c.rawFs.toNat : Int)) = false :=
    isZero_ofInt (lt_trans c.rawFs.isLt (by decide)) (by omega)
  exact ⟨isNaN_decode (be16_natAbs_lt _ _) hnum hden hden0,
    isNaN_decode (s16_be16_natAbs_lt _ _) hfin (isFinite_ofInt_rawFs _) hraw0⟩

theorem isNaN_clampDemand {G : Nat} {c : Codec G} {demand : Num32} (hv : c.valid = true) (hc : LegalCodec c)
    (hd : isNaN demand = false) : isNaN (clampDemand demand c) = false := by
  obtain ⟨hfin, _⟩ := configLegal_iff.mp (legalCodec_valid hv hc)
  exact not_nan_of_finite (isFinite_clamp (by rw [isFinite_neg, hfin]) hfin hd)

/-- A limit is stored as no less than zero (42_registry.md R145). -/
theorem zero_le_sat0 {limit : Num32} (h : isNaN limit = false) : le zero (sat0 limit) = true := by
  unfold sat0
  split
  · decide
  · rename_i hlt
    exact (lt_eq_false_iff h isNaN_zero).mp (by simpa using hlt)

theorem legalPst_reset : LegalPst Pst.reset := ⟨by decide, by decide, by decide, fun _ => rfl⟩

/-- A tick that passes the numeric check leaves a legal controller (41_pid.md R128). -/
theorem legalPst_pidTick {c : Pcf} {p : Pst} {reference feedback dt : Num32} (hf : isNaN feedback = false)
    (h : pidNumeric (pidTick c p reference feedback dt) = true) : LegalPst (pidTick c p reference feedback dt).1 := by
  have hn := not_anyNaN_iff.mp h
  exact ⟨hn _ (by simp), hn _ (by simp), hf, fun hrun => by cases hrun⟩

theorem legalFault_raised (c : Cause) (w : Word) (q : Port) : LegalFault ⟨true, causeCode c, w, portCode q⟩ :=
  ⟨⟨c, rfl⟩, ⟨q, rfl⟩⟩

/-! ### Legal states -/

variable {N : Nat} {s t : State N}

/-- Legality is about the records of the block alone. -/
theorem Legal.of_sameRecords (h : Legal s) (hst : SameRecords s t) : Legal t := by
  obtain ⟨htel, hcmd, hpst, hpcf, hcodec, hfault⟩ := hst
  constructor
  · rw [htel]; exact h.tel
  · rw [hcmd]; exact h.cmd
  · rw [hpst]; exact h.pst
  · rw [hpcf]; exact h.pcf
  · rw [hcodec]; exact h.codec
  · rw [hfault]; exact h.fault
  · rw [hpcf, hpst]; exact h.constructed

theorem Legal.respond (h : Legal s) (r : Response) : Legal (respond r s) :=
  h.of_sameRecords ⟨rfl, rfl, rfl, rfl, rfl, rfl⟩

theorem Legal.latch (h : Legal s) (q : Port) (c : Command) : Legal (latch q c s) :=
  h.of_sameRecords ⟨rfl, rfl, rfl, rfl, rfl, rfl⟩

theorem Legal.raiseFault (h : Legal s) (c : Cause) : Legal (raiseFault c s) :=
  { h with fault := legalFault_raised c s.word s.port }

/-- A property of every slot is kept by a write of one that has it. -/
theorem forall_get_set {α : Type} {P : α → Prop} {v : Vector α N} (h : ∀ k : Fin N, P v[k]) (k : Fin N) {x : α}
    (hx : P x) (j : Fin N) : P (v.set k x)[j] := by
  rw [get_set]
  split
  · exact hx
  · exact h j

theorem Legal.writeTel (h : Legal s) (k : Fin N) {r : Tel} (hr : LegalTel r) : Legal (writeTel k r s) :=
  { h with tel := forall_get_set h.tel k hr }

theorem Legal.writeCmd (h : Legal s) (k : Fin N) {r : Cmd} (hr : isNaN r.demand = false) : Legal (writeCmd k r s) :=
  { h with cmd := forall_get_set (P := fun r : Cmd => isNaN r.demand = false) h.cmd k hr }

/-- A controller is written legally where its parameters were, or to its constructed state. -/
theorem Legal.writePst (h : Legal s) (k : Fin N) {r : Pst} (hr : LegalPst r)
    (hc : s.pcf[k].valid = false → r = Pst.reset) : Legal (writePst k r s) :=
  { h with
    pst := forall_get_set h.pst k hr
    constructed := fun j hj => by
      rw [writePst_pst, get_set]
      split
      · rename_i hjk
        exact hc (hjk ▸ hj)
      · exact h.constructed j hj }

theorem Legal.writePcf (h : Legal s) (k : Fin N) {r : Pcf} (hr : LegalPcf r) (hv : r.valid = true) :
    Legal (writePcf k r s) :=
  { h with
    pcf := forall_get_set h.pcf k hr
    constructed := fun j hj => by
      rw [writePcf_pcf, get_set] at hj
      split at hj
      · rw [hv] at hj
        cases hj
      · exact h.constructed j hj }

theorem Legal.writeCodec (h : Legal s) {c : Codec (Config.groups N)} (hc : LegalCodec c) : Legal (writeCodec c s) :=
  { h with codec := hc }

theorem legal_resetOf (N : Nat) : Legal (State.resetOf N) where
  tel k := by
    simp only [State.resetOf, Fin.getElem_fin, Vector.getElem_replicate]
    exact ⟨by decide, by decide⟩
  cmd k := by
    simp only [State.resetOf, Fin.getElem_fin, Vector.getElem_replicate]
    decide
  pst k := by
    simp only [State.resetOf, Fin.getElem_fin, Vector.getElem_replicate]
    exact legalPst_reset
  pcf k := by
    simp only [State.resetOf, Fin.getElem_fin, Vector.getElem_replicate]
    exact ⟨by decide, by decide, by decide, by decide, by decide, by decide, fun _ => rfl⟩
  codec := rfl
  fault := rfl
  constructed k _ := by simp only [State.resetOf, Fin.getElem_fin, Vector.getElem_replicate]

/-! ### Outcomes -/

/-- The outcome is a next state, and a legal one. -/
def EndsLegal (r : Result N) : Prop := ∃ t, r = .next t ∧ Legal t

section outcomes
variable {go : Result N}

theorem endsLegal_next (h : Legal s) : EndsLegal (.next s) := ⟨s, rfl, h⟩

theorem endsLegal_answer (h : Legal s) (r : Results) : EndsLegal (answer r s) := endsLegal_next (h.respond _)

theorem endsLegal_accept (h : Legal s) (legal : List Port) (hgo : EndsLegal go) : EndsLegal (accept legal s go) := by
  cases hh : s.fault.halt with
  | true => exact accept_halted hh ▸ endsLegal_next (h.respond _)
  | false =>
    cases hp : legal.contains s.port with
    | true => rwa [accept_legal hh hp]
    | false => exact accept_wrongPort hh hp ▸ endsLegal_next (h.raiseFault _)

theorem endsLegal_require (h : Legal s) {ok : Bool} (c : Cause) (hgo : ok = true → EndsLegal go) :
    EndsLegal (require ok c s go) := by
  cases ok with
  | true => exact hgo rfl
  | false => exact endsLegal_next (h.raiseFault c)

theorem endsLegal_withSlot (h : Legal s) (id : BitVec 8) {go : Fin N → Result N} (hgo : ∀ k, EndsLegal (go k)) :
    EndsLegal (withSlot id s go) := by
  cases hk : (slotOf id : Option (Fin N)) with
  | some k => exact withSlot_some hk ▸ hgo k
  | none => exact withSlot_none hk ▸ endsLegal_next (h.raiseFault _)

end outcomes

/-! ### The twelve operations -/

section operations
variable (h : Legal s)
include h

theorem execRxf_endsLegal (fid : BitVec 11) (p : Payload) : EndsLegal (execRxf fid p s) := by
  refine endsLegal_accept h _ ?_
  split
  · rename_i hv
    split
    · exact endsLegal_answer (h.writeTel _ (legalTel_decodeTel hv h.codec p)) _
    · exact endsLegal_next (h.respond _)
  · exact endsLegal_next (h.respond _)

theorem execDec_endsLegal (p : Payload) : EndsLegal (execDec p s) :=
  endsLegal_accept h _ <| endsLegal_require h _ fun _ => endsLegal_answer h _

theorem execEnc_endsLegal (id : BitVec 8) (demand : Num32) : EndsLegal (execEnc id demand s) :=
  endsLegal_accept h _ <| endsLegal_withSlot h _ fun _ => endsLegal_require h _ fun _ => endsLegal_require h _ fun _ =>
    endsLegal_answer h _

theorem execPack_endsLegal (slot : BitVec 2) (f : Payload) (high low : Byte) : EndsLegal (execPack slot f high low s) :=
  endsLegal_accept h _ <| endsLegal_answer h _

theorem execPid_endsLegal (id : BitVec 8) (reference feedback dt : Num32) :
    EndsLegal (execPid id reference feedback dt s) :=
  endsLegal_accept h _ <| endsLegal_withSlot h _ fun k => endsLegal_require h _ fun hvalid =>
    endsLegal_require h _ fun hnan => endsLegal_require h _ fun _ => endsLegal_require h _ fun hnum => by
      have hf : isNaN feedback = false := not_anyNaN_iff.mp hnan feedback (by simp)
      exact endsLegal_answer (h.writePst k (legalPst_pidTick hf hnum) fun hv => by rw [hvalid] at hv; cases hv) _

theorem execPrst_endsLegal (id : BitVec 8) : EndsLegal (execPrst id s) :=
  endsLegal_accept h _ <| endsLegal_withSlot h _ fun k =>
    endsLegal_answer (h.writePst k legalPst_reset fun _ => rfl) _

theorem execRdt_endsLegal (id : BitVec 8) : EndsLegal (execRdt id s) :=
  endsLegal_accept h _ <| endsLegal_withSlot h _ fun _ => endsLegal_answer h _

theorem execWrc_endsLegal (id : BitVec 8) (demand : Num32) : EndsLegal (execWrc id demand s) :=
  endsLegal_accept h _ <| endsLegal_withSlot h _ fun k => endsLegal_require h _ fun hv =>
    endsLegal_require h _ fun hnan =>
      endsLegal_answer (h.writeCmd k (isNaN_clampDemand hv h.codec (not_anyNaN_iff.mp hnan demand (by simp)))) _

theorem execRdc_endsLegal (id : BitVec 8) : EndsLegal (execRdc id s) :=
  endsLegal_accept h _ <| endsLegal_withSlot h _ fun _ => endsLegal_answer h _

theorem execWrp_endsLegal (id : BitVec 8) (sepEn dmeas : Bool)
    (kp ki kd integralLimit outputLimit sepThreshold : Num32) :
    EndsLegal (execWrp id sepEn dmeas kp ki kd integralLimit outputLimit sepThreshold s) :=
  endsLegal_accept h _ <| endsLegal_withSlot h _ fun k => endsLegal_require h _ fun hnan => by
    have hn := not_anyNaN_iff.mp hnan
    have hlegal : LegalPcf ⟨true, kp, ki, kd, sat0 integralLimit, sat0 outputLimit, sepThreshold, sepEn, dmeas⟩ :=
      ⟨hn _ (by simp), hn _ (by simp), hn _ (by simp), hn _ (by simp), zero_le_sat0 (hn _ (by simp)),
        zero_le_sat0 (hn _ (by simp)), fun hv => by cases hv⟩
    exact endsLegal_answer (h.writePcf k hlegal rfl) _

theorem execWrk_endsLegal (rawFs : BitVec 15) (baseRxId : BitVec 11) (cmdFrameId : List (BitVec 11))
    (iFs angleNum angleDen : Num32) : EndsLegal (execWrk rawFs baseRxId cmdFrameId iFs angleNum angleDen s) :=
  endsLegal_accept h _ <| endsLegal_require h _ fun _ => endsLegal_require h _ fun hlegal =>
    endsLegal_answer (h.writeCodec (by rwa [LegalCodec, if_pos rfl])) _

theorem execRdf_endsLegal : EndsLegal (execRdf s) := endsLegal_answer h _

/-- Every operation of every build ends in a legal state. -/
theorem execOf_endsLegal (i : Instr) : EndsLegal (execOf i s) := by
  cases i with
  | rxf fid p => exact execRxf_endsLegal h fid p
  | dec p => exact execDec_endsLegal h p
  | enc id demand => exact execEnc_endsLegal h id demand
  | pack slot f high low => exact execPack_endsLegal h slot f high low
  | pid id reference feedback dt => exact execPid_endsLegal h id reference feedback dt
  | prst id => exact execPrst_endsLegal h id
  | rdt id => exact execRdt_endsLegal h id
  | wrc id demand => exact execWrc_endsLegal h id demand
  | rdc id => exact execRdc_endsLegal h id
  | wrp id sepEn dmeas kp ki kd integralLimit outputLimit sepThreshold =>
    exact execWrp_endsLegal h id sepEn dmeas kp ki kd integralLimit outputLimit sepThreshold
  | wrk rawFs baseRxId cmdFrameId iFs angleNum angleDen =>
    exact execWrk_endsLegal h rawFs baseRxId cmdFrameId iFs angleNum angleDen
  | rdf => exact execRdf_endsLegal h

/-- A word of no row ends in HALTED or in ILLEGAL_OP. -/
theorem rejected_noRow_endsLegal : EndsLegal (rejected .noRow s) := by
  simp only [rejected]
  split
  · exact endsLegal_next (h.respond _)
  · exact endsLegal_next (h.raiseFault _)

end operations

/-! ### Requests that can be presented -/

theorem fits_three_nums {block : List Operand} (h : blockFits [.num, .num, .num] block = true) :
    ∃ x y z, block = [.num x, .num y, .num z] := by
  obtain ⟨x, _, rfl, h1⟩ := fits_num_cons h
  obtain ⟨y, _, rfl, h2⟩ := fits_num_cons h1
  obtain ⟨z, _, rfl, h3⟩ := fits_num_cons h2
  obtain rfl := fits_nil h3
  exact ⟨x, y, z, rfl⟩

/-- A block of its row's shape builds an operation (30_encoding.md R72, R80). -/
theorem build_of_blockFits {G : Nat} {r : Row} {block : List Operand} (w : Word)
    (h : blockFits (rowShape G r) block = true) : ∃ i, build G r w block = some i := by
  cases r with
  | rxf | dec =>
    obtain ⟨_, _, _, rfl, hp, h1⟩ := fits_payload_cons h
    obtain rfl := fits_nil h1
    exact ⟨_, congrArg (Option.map _) hp⟩
  | enc | wrc =>
    obtain ⟨_, _, rfl, h1⟩ := fits_num_cons h
    obtain rfl := fits_nil h1
    exact ⟨_, rfl⟩
  | pack =>
    obtain ⟨_, _, _, rfl, hp, h1⟩ := fits_payload_cons h
    obtain ⟨_, _, rfl, h2⟩ := fits_u8_cons h1
    obtain ⟨_, _, rfl, h3⟩ := fits_u8_cons h2
    obtain rfl := fits_nil h3
    exact ⟨_, congrArg (Option.map _) hp⟩
  | pid =>
    obtain ⟨_, _, _, rfl⟩ := fits_three_nums h
    exact ⟨_, rfl⟩
  | prst | rdt | rdc | rdf =>
    obtain rfl := fits_nil h
    exact ⟨_, rfl⟩
  | wrp =>
    obtain ⟨_, _, rfl, h1⟩ := fits_num_cons h
    obtain ⟨_, _, rfl, h2⟩ := fits_num_cons h1
    obtain ⟨_, _, rfl, h3⟩ := fits_num_cons h2
    obtain ⟨_, _, _, rfl⟩ := fits_three_nums h3
    exact ⟨_, rfl⟩
  | wrk =>
    obtain ⟨_, _, _, rfl, hbase, h1⟩ := fits_u11_cons h
    obtain ⟨_, _, htake, h2⟩ := fits_takeU11 G _ _ h1
    obtain ⟨_, _, _, rfl⟩ := fits_three_nums h2
    exact ⟨_, by simp only [build, buildWrk, hbase, htake]; rfl⟩

/-- A command that can be presented is not turned away for its operand block. -/
theorem decode_ne_operandBlock {G : Nat} {c : Command} (h : presentable G c = true) :
    decode G c ≠ .error .operandBlock := by
  unfold presentable at h
  unfold decode
  cases hr : rowOf c.word with
  | none => simp
  | some r =>
    rw [hr] at h
    obtain ⟨i, hi⟩ := build_of_blockFits c.word h
    simp [hi]

/-! ### The step of every build -/

theorem EndsLegal.legal {r : Result N} (h : EndsLegal r) (ht : r = .next t) : Legal t := by
  obtain ⟨t', ht', hlegal⟩ := h
  rw [ht'] at ht
  exact Host.Outcome.next.inj ht ▸ hlegal

theorem Legal.withInbox (h : Legal s) (rest : List Event) : Legal { s with inbox := rest } :=
  h.of_sameRecords ⟨rfl, rfl, rfl, rfl, rfl, rfl⟩

theorem stepOf_idle (hs : s.inbox = []) : stepOf s = .next s := serve_idle hs

theorem stepOf_reset {rest : List Event} (hs : s.inbox = .reset :: rest) :
    stepOf s = .next { State.resetOf N with inbox := rest } := serve_reset hs

section step
variable {rest : List Event} (h : Legal s)
include h

/-- All that a request can do in a legal state: it ends in a legal state, or its operand block is refused. -/
theorem stepOf_request_cases {q : Port} {c : Command} (hs : s.inbox = .request q c :: rest) :
    EndsLegal (stepOf s) ∨
      (decode (Config.groups N) c = .error .operandBlock ∧ stepOf s = .refused .operandBlock) := by
  rw [stepOf, serve_request hs]
  have hlatch := (h.withInbox rest).latch q c
  cases hd : decode (Config.groups N) c with
  | ok i => exact .inl (execOf_endsLegal hlatch i)
  | error e =>
    cases e with
    | noRow => exact .inl (rejected_noRow_endsLegal hlatch)
    | operandBlock => exact .inr ⟨rfl, rfl⟩

/-- A next state of a legal state is legal, whatever the event. -/
theorem stepOf_legal (ht : stepOf s = .next t) : Legal t := by
  cases hs : s.inbox with
  | nil => exact (endsLegal_next h).legal (stepOf_idle hs ▸ ht)
  | cons e rest =>
    cases e with
    | reset => exact (endsLegal_next ((legal_resetOf N).withInbox rest)).legal (stepOf_reset hs ▸ ht)
    | request q c =>
      rcases stepOf_request_cases h hs with hend | ⟨_, hrefused⟩
      · exact hend.legal ht
      · rw [hrefused] at ht
        cases ht

/-- A request that can be presented ends in a legal state. -/
theorem stepOf_presentable_endsLegal {q : Port} {c : Command} (hs : s.inbox = .request q c :: rest)
    (hc : presentable (Config.groups N) c = true) : EndsLegal (stepOf s) :=
  (stepOf_request_cases h hs).resolve_right fun hrefused => decode_ne_operandBlock hc hrefused.1

end step

/-- Settles O60: one predicate on outcomes, passed on by every shared operation of a meaning, gives both halves. -/
theorem everyBuildServesAndStaysLegal : Obligations.EveryBuildServesAndStaysLegal := fun _ _ h =>
  ⟨fun _ => stepOf_legal h, fun _ _ _ hs hc =>
    have ⟨t, ht, _⟩ := stepOf_presentable_endsLegal h hs hc
    ⟨t, ht⟩⟩

end Sys2Proof.Machine
end

