-- ==== Sys2Proof/Proofs/Builds.lean ====
section
/-! SUPPORT. The number of actuators as an argument (00_scope.md R8): the slots, the groups and the places in a frame of
every build, and the build of seven. -/

namespace Sys2Proof.Machine

section slots
variable {n : Nat}

theorem slotOf_isSome_iff {id : BitVec 8} :
    (slotOf id : Option (Fin n)).isSome = true ↔ 1 ≤ id.toNat ∧ id.toNat ≤ n := by
  rw [Option.isSome_iff_ne_none, ne_eq, slotOf_eq_none]
  omega

/-- Every slot of a build that an id field can count has exactly one id. -/
theorem exists_unique_id (hn : n ≤ 255) (k : Fin n) :
    ∃ id : BitVec 8, slotOf id = some k ∧ ∀ id' : BitVec 8, slotOf id' = some k → id' = id := by
  have hk : (BitVec.ofNat 8 (k.val + 1)).toNat = k.val + 1 :=
    Nat.mod_eq_of_lt (lt_of_le_of_lt (lt_of_lt_of_le k.isLt hn) (by decide))
  refine ⟨BitVec.ofNat 8 (k.val + 1), slotOf_eq_some.mpr hk, fun id' h => BitVec.eq_of_toNat_eq ?_⟩
  rw [hk, slotOf_eq_some.mp h]

/-- No group is empty: it has a first actuator. -/
theorem exists_first_of_group (g : Fin (Config.groups n)) : ∃ k : Fin n, groupOf k = g ∧ frameSlot k = 0 := by
  have hg : g.val < (n + 3) / 4 := g.isLt
  exact ⟨⟨4 * g.val, by omega⟩, Fin.ext (Nat.mul_div_cancel_left g.val (by decide)), Nat.mul_mod_right 4 g.val⟩

/-- Group and slot in the frame determine the actuator, as quotient and remainder do. -/
theorem eq_of_group_of_frameSlot {j k : Fin n} (hg : groupOf j = groupOf k) (hs : frameSlot j = frameSlot k) :
    j = k := by
  have hdiv : j.val / 4 = k.val / 4 := congrArg Fin.val hg
  have hmod : j.val % 4 = k.val % 4 := hs
  exact Fin.ext (by omega)

end slots

/-- Settles O59: ids are slot numbers plus one; group and slot are quotient and remainder by 4. -/
theorem everyBuildHasItsActuators : Obligations.EveryBuildHasItsActuators := fun n hn =>
  ⟨fun _ => slotOf_isSome_iff, exists_unique_id hn.2, by unfold Config.groups; omega, exists_first_of_group,
    fun _ _ => eq_of_group_of_frameSlot⟩

/-- The two dispatches agree, operation by operation. -/
theorem exec_eq_execOf (i : Instr) (s : State 7) : exec i s = execOf i s := by cases i <;> rfl

theorem step_eq_stepOf (s : State 7) : step s = stepOf s :=
  congrArg (fun run => serve run s) (funext fun i => funext (exec_eq_execOf i))

/-- Settles O58: the two dispatches have the same arms, and the two steps serve by them. -/
theorem hardwareIsTheBuildOfSeven : Obligations.HardwareIsTheBuildOfSeven :=
  ⟨rfl, rfl, by decide, rfl, exec_eq_execOf, step_eq_stepOf⟩

end Sys2Proof.Machine
end
section
/-! SUPPORT. The invariant of the block's records, for this hardware: the reset state has it and every step keeps it; and
what the records are after reset (10_state.md R31, R33, R34, R39; 70_reset_and_hazards.md R191, R194). -/

namespace Sys2Proof.Machine

/-- Settles O21: the step of this hardware is the step of the build of seven, which keeps legality as every build does. -/
theorem everyStepKeepsLegality : Obligations.EveryStepKeepsLegality := fun s _ h hst =>
  stepOf_legal h (step_eq_stepOf s ▸ hst)

/-- Settles O20: the base case of the invariant, in every build. -/
theorem resetStateIsLegal : Obligations.ResetStateIsLegal := ⟨legal_resetOf _, legal_resetOf⟩

/-- Every slot of the reset state of a build holds the four reset records (10_state.md R39). -/
theorem resetOf_slot {N : Nat} (k : Fin N) :
    (State.resetOf N).tel[k] = Tel.reset ∧ (State.resetOf N).cmd[k] = Cmd.reset ∧
      (State.resetOf N).pst[k] = Pst.reset ∧ (State.resetOf N).pcf[k] = Pcf.reset := by
  simp only [State.resetOf, Fin.getElem_fin, Vector.getElem_replicate, and_self]

/-- Settles O7: a reset event leaves the records of the reset state, which are all zero, and takes itself alone from the
order. -/
theorem resetZeroesEveryRecord : Obligations.ResetZeroesEveryRecord :=
  ⟨resetOf_slot, rfl, rfl, rfl, fun _ _ hs => ⟨_, step_reset hs, ⟨rfl, rfl, rfl, rfl, rfl, rfl⟩, rfl⟩⟩

end Sys2Proof.Machine
end
section
/-! SUPPORT. All that an operation can do, said once for every build: `Effect`, with one constructor for each of the six
writes, one for the reads, and one for each way of doing nothing to the records of the actuators. What the operations
leave alone (10_state.md R41), the transitions of a controller (41_pid.md R121) and the bounds of a stored command
(10_state.md R26) are read off it. -/

namespace Sys2Proof.Machine
open Sys2Proof.F32

variable {N : Nat}

/-! ### All that an operation can do -/

/-- The operations that write no record (20_memory.md R56). -/
def readRows : List Row := [.dec, .enc, .pack, .rdt, .rdc, .rdf]

/-- `Effect s i t`: one of the things that the operation `i` can do in `s`, with the checks that led there, ends in `t`
(`execOf_effect`: there are no others). -/
inductive Effect (s : State N) : Instr → State N → Prop where
  | halted {i : Instr} (hh : s.fault.halt = true) : Effect s i (respond .halted s)
  | raised {i : Instr} (hh : s.fault.halt = false) (c : Cause) : Effect s i (raiseFault c s)
  | ignored {fid : BitVec 11} {p : Payload} (hh : s.fault.halt = false) (hp : s.port = .rx)
      (hk : s.codec.valid = false ∨ (rxSlotOf fid s.codec.baseRxId : Option (Fin N)) = none) :
      Effect s (.rxf fid p) (respond .ignored s)
  | read {i : Instr} (hi : i.row ∈ readRows) (r : Results) : Effect s i (respond (.ok r) s)
  | rxf {fid : BitVec 11} {p : Payload} {k : Fin N} (hh : s.fault.halt = false) (hp : s.port = .rx)
      (hv : s.codec.valid = true) (hk : rxSlotOf fid s.codec.baseRxId = some k) :
      Effect s (.rxf fid p) (respond (.ok .none) (writeTel k (decodeTel p s.codec) s))
  | wrc {id : BitVec 8} {demand : Num32} {k : Fin N} (hh : s.fault.halt = false) (hp : s.port = .ctl)
      (hk : slotOf id = some k) (hv : s.codec.valid = true) (hn : isNaN demand = false) :
      Effect s (.wrc id demand)
        (respond (.ok (.stored (clampDemand demand s.codec))) (writeCmd k ⟨clampDemand demand s.codec⟩ s))
  | pid {id : BitVec 8} {reference feedback dt : Num32} {k : Fin N} (hh : s.fault.halt = false) (hp : s.port = .ctl)
      (hk : slotOf id = some k) (hv : s.pcf[k].valid = true)
      (hn : ∀ x ∈ [reference, feedback, dt], isNaN x = false) (hdt : le dt zero = false)
      (hnum : pidNumeric (pidTick s.pcf[k] s.pst[k] reference feedback dt) = true) :
      Effect s (.pid id reference feedback dt)
        (respond (.ok (.output (pidTick s.pcf[k] s.pst[k] reference feedback dt).2))
          (writePst k (pidTick s.pcf[k] s.pst[k] reference feedback dt).1 s))
  | prst {id : BitVec 8} {k : Fin N} (hh : s.fault.halt = false) (hp : s.port = .cfg) (hk : slotOf id = some k) :
      Effect s (.prst id) (respond (.ok .none) (writePst k Pst.reset s))
  | wrp {id : BitVec 8} {sepEn dmeas : Bool} {kp ki kd integralLimit outputLimit sepThreshold : Num32} {k : Fin N}
      (hh : s.fault.halt = false) (hp : s.port = .cfg) (hk : slotOf id = some k)
      (hn : ∀ x ∈ [kp, ki, kd, integralLimit, outputLimit, sepThreshold], isNaN x = false) :
      Effect s (.wrp id sepEn dmeas kp ki kd integralLimit outputLimit sepThreshold)
        (respond (.ok .none) (writePcf k
          ⟨true, kp, ki, kd, sat0 integralLimit, sat0 outputLimit, sepThreshold, sepEn, dmeas⟩ s))
  | wrk {rawFs : BitVec 15} {base : BitVec 11} {ids : List (BitVec 11)} {iFs angleNum angleDen : Num32}
      (hh : s.fault.halt = false) (hp : s.port = .cfg)
      (hn : ∀ x ∈ [iFs, angleNum, angleDen], isNaN x = false)
      (hl : configLegal iFs rawFs angleNum angleDen = true) :
      Effect s (.wrk rawFs base ids iFs angleNum angleDen)
        (respond (.ok .none) (writeCodec ⟨true, base, frameIds ids, iFs, rawFs, angleNum, angleDen⟩ s))

section shared
variable {s t : State N} {i : Instr} {go : Result N}

/-- Past the halt and the port check an operation is on its one port, not halted. -/
theorem effect_accept {q : Port} (h : accept [q] s go = .next t)
    (hgo : s.fault.halt = false → s.port = q → go = .next t → Effect s i t) : Effect s i t := by
  rcases accept_next h with ⟨hh, rfl⟩ | ⟨hh, _, rfl⟩ | ⟨hh, hp, h⟩
  · exact .halted hh
  · exact .raised hh .illegalOp
  · exact hgo hh (by simpa using hp) h

theorem effect_require (hh : s.fault.halt = false) {ok : Bool} {c : Cause} (h : require ok c s go = .next t)
    (hgo : ok = true → go = .next t → Effect s i t) : Effect s i t := by
  rcases require_next h with ⟨_, rfl⟩ | ⟨hok, h⟩
  · exact .raised hh c
  · exact hgo hok h

theorem effect_withSlot (hh : s.fault.halt = false) {id : BitVec 8} {go : Fin N → Result N}
    (h : withSlot id s go = .next t) (hgo : ∀ k, slotOf id = some k → go k = .next t → Effect s i t) :
    Effect s i t := by
  rcases withSlot_next h with ⟨_, rfl⟩ | ⟨k, hk, h⟩
  · exact .raised hh .badId
  · exact hgo k hk h

/-- An operation that reads answers, and does no more. -/
theorem effect_answer {r : Results} (hi : i.row ∈ readRows) (h : answer r s = .next t) : Effect s i t :=
  answer_next h ▸ .read hi r

end shared

section operations
variable {s t : State N}

theorem execRxf_effect {fid : BitVec 11} {p : Payload} (h : execRxf fid p s = .next t) :
    Effect s (.rxf fid p) t := by
  refine effect_accept h fun hh hp h => ?_
  split at h
  · rename_i hv
    split at h
    · rename_i k hk
      exact answer_next h ▸ .rxf hh hp hv hk
    · rename_i hk
      exact Host.Outcome.next.inj h ▸ .ignored hh hp (.inr hk)
  · rename_i hv
    exact Host.Outcome.next.inj h ▸ .ignored hh hp (.inl (by simpa using hv))

theorem execDec_effect {p : Payload} (h : execDec p s = .next t) : Effect s (.dec p) t :=
  effect_accept h fun hh _ h => effect_require hh h fun _ => effect_answer (by decide : Row.dec ∈ readRows)

theorem execEnc_effect {id : BitVec 8} {demand : Num32} (h : execEnc id demand s = .next t) :
    Effect s (.enc id demand) t :=
  effect_accept h fun hh _ h => effect_withSlot hh h fun _ _ h => effect_require hh h fun _ h =>
    effect_require hh h fun _ => effect_answer (by decide : Row.enc ∈ readRows)

theorem execPack_effect {slot : BitVec 2} {f : Payload} {high low : Byte} (h : execPack slot f high low s = .next t) :
    Effect s (.pack slot f high low) t :=
  effect_accept h fun _ _ => effect_answer (by decide : Row.pack ∈ readRows)

theorem execPid_effect {id : BitVec 8} {reference feedback dt : Num32}
    (h : execPid id reference feedback dt s = .next t) : Effect s (.pid id reference feedback dt) t :=
  effect_accept h fun hh hp h => effect_withSlot hh h fun _ hk h => effect_require hh h fun hv h =>
    effect_require hh h fun hn h => effect_require hh h fun hdt h => effect_require hh h fun hnum h =>
      answer_next h ▸ .pid hh hp hk hv (not_anyNaN_iff.mp hn) (by simpa using hdt) hnum

theorem execPrst_effect {id : BitVec 8} (h : execPrst id s = .next t) : Effect s (.prst id) t :=
  effect_accept h fun hh hp h => effect_withSlot hh h fun _ hk h => answer_next h ▸ .prst hh hp hk

theorem execRdt_effect {id : BitVec 8} (h : execRdt id s = .next t) : Effect s (.rdt id) t :=
  effect_accept h fun hh _ h => effect_withSlot hh h fun _ _ => effect_answer (by decide : Row.rdt ∈ readRows)

theorem execWrc_effect {id : BitVec 8} {demand : Num32} (h : execWrc id demand s = .next t) :
    Effect s (.wrc id demand) t :=
  effect_accept h fun hh hp h => effect_withSlot hh h fun _ hk h => effect_require hh h fun hv h =>
    effect_require hh h fun hn h =>
      answer_next h ▸ .wrc hh hp hk hv (not_anyNaN_iff.mp hn demand List.mem_cons_self)

theorem execRdc_effect {id : BitVec 8} (h : execRdc id s = .next t) : Effect s (.rdc id) t :=
  effect_accept h fun hh _ h => effect_withSlot hh h fun _ _ => effect_answer (by decide : Row.rdc ∈ readRows)

theorem execWrp_effect {id : BitVec 8} {sepEn dmeas : Bool}
    {kp ki kd integralLimit outputLimit sepThreshold : Num32}
    (h : execWrp id sepEn dmeas kp ki kd integralLimit outputLimit sepThreshold s = .next t) :
    Effect s (.wrp id sepEn dmeas kp ki kd integralLimit outputLimit sepThreshold) t :=
  effect_accept h fun hh hp h => effect_withSlot hh h fun _ hk h => effect_require hh h fun hn h =>
    answer_next h ▸ .wrp hh hp hk (not_anyNaN_iff.mp hn)

theorem execWrk_effect {rawFs : BitVec 15} {base : BitVec 11} {ids : List (BitVec 11)}
    {iFs angleNum angleDen : Num32} (h : execWrk rawFs base ids iFs angleNum angleDen s = .next t) :
    Effect s (.wrk rawFs base ids iFs angleNum angleDen) t :=
  effect_accept h fun hh hp h => effect_require hh h fun hn h => effect_require hh h fun hl h =>
    answer_next h ▸ .wrk hh hp (not_anyNaN_iff.mp hn) hl

/-- All that an operation can do. -/
theorem execOf_effect {i : Instr} (h : execOf i s = .next t) : Effect s i t := by
  cases i with
  | rxf => exact execRxf_effect h
  | dec => exact execDec_effect h
  | enc => exact execEnc_effect h
  | pack => exact execPack_effect h
  | pid => exact execPid_effect h
  | prst => exact execPrst_effect h
  | rdt => exact execRdt_effect h
  | wrc => exact execWrc_effect h
  | rdc => exact execRdc_effect h
  | wrp => exact execWrp_effect h
  | wrk => exact execWrk_effect h
  | rdf => exact effect_answer (by decide : Row.rdf ∈ readRows) h

end operations

/-- All that an operation of this hardware can do. -/
theorem exec_effect {s t : State} {i : Instr} (h : exec i s = .next t) : Effect s i t :=
  execOf_effect (exec_eq_execOf i s ▸ h)

/-! ### What an operation leaves alone -/

section frame
variable {s t : State N} {i : Instr}

theorem Effect.port_eq (h : Effect s i t) : t.port = s.port := by cases h <;> rfl

theorem Effect.tel_eq (h : Effect s i t) (hq : s.port ≠ .rx) : t.tel = s.tel := by
  cases h with
  | rxf _ hp => exact absurd hp hq
  | _ => rfl

theorem Effect.cmd_eq (h : Effect s i t) (hq : s.port ≠ .ctl) : t.cmd = s.cmd := by
  cases h with
  | wrc _ hp => exact absurd hp hq
  | _ => rfl

theorem Effect.pcf_eq (h : Effect s i t) (hq : s.port ≠ .cfg) : t.pcf = s.pcf := by
  cases h with
  | wrp _ hp => exact absurd hp hq
  | _ => rfl

theorem Effect.codec_eq (h : Effect s i t) (hq : s.port ≠ .cfg) : t.codec = s.codec := by
  cases h with
  | wrk _ hp => exact absurd hp hq
  | _ => rfl

/-- A controller record is written by `PID` and `PRST` of its own id alone. -/
theorem Effect.pst_writer (h : Effect s i t) {k : Fin N} (hne : t.pst[k] ≠ s.pst[k]) :
    ∃ id : BitVec 8, id.toNat = k.val + 1 ∧ (i = .prst id ∨ ∃ r f dt, i = .pid id r f dt) := by
  have hkj {j : Fin N} {p : Pst} (hw : (s.pst.set j p)[k] ≠ s.pst[k]) : j = k :=
    (not_imp_comm.mp (fun h => get_set_ne s.pst h p) hw).symm
  cases h with
  | @pid id r f dt j _ _ hj => exact ⟨id, hkj hne ▸ slotOf_eq_some.mp hj, .inr ⟨r, f, dt, rfl⟩⟩
  | @prst id j _ _ hj => exact ⟨id, hkj hne ▸ slotOf_eq_some.mp hj, .inl rfl⟩
  | _ => exact absurd rfl hne

theorem Effect.pst_eq (h : Effect s i t) (hq : s.port = .rx) : t.pst = s.pst := by
  cases h with
  | pid _ hp | prst _ hp => rw [hq] at hp; cases hp
  | _ => rfl

/-- The records of a slot that the operation does not name stay. -/
theorem Effect.sameSlot (h : Effect s i t) {j : Fin N} (hj : namedSlot s i ≠ some j) : SameSlot j s t := by
  have hne {k : Fin N} (hk : namedSlot s i = some k) : j ≠ k := fun e => hj (e ▸ hk)
  cases h with
  | rxf _ _ _ hk => exact ⟨get_set_ne _ (hne hk) _, rfl, rfl, rfl⟩
  | wrc _ _ hk => exact ⟨rfl, get_set_ne _ (hne hk) _, rfl, rfl⟩
  | pid _ _ hk | prst _ _ hk => exact ⟨rfl, rfl, get_set_ne _ (hne hk) _, rfl⟩
  | wrp _ _ hk => exact ⟨rfl, rfl, rfl, get_set_ne _ (hne hk) _⟩
  | _ => exact ⟨rfl, rfl, rfl, rfl⟩

end frame

end Sys2Proof.Machine
end
section
/-! SUPPORT. What an operation reads: two states that agree in the records of the slot it names, in CODEC, FAULT and the
latches lead to outcomes that agree in the same way (10_state.md R41). One relation on outcomes, passed on by every
shared operation of a meaning. -/

namespace Sys2Proof.Machine

variable {N : Nat}

/-- The two states agree in all that an operation of the slot `o`, if any, can see. -/
structure SameView (o : Option (Fin N)) (s s' : State N) : Prop where
  slot : ∀ k, o = some k → SameSlot k s s'
  codec : s'.codec = s.codec
  fault : s'.fault = s.fault
  port : s'.port = s.port
  word : s'.word = s.word

/-- Both outcomes are next states, which agree in what an operation of the slot `o` can see, and in the response. -/
def Alike (o : Option (Fin N)) (r r' : Result N) : Prop :=
  ∃ t t', r = .next t ∧ r' = .next t' ∧ SameView o t t' ∧ responseAt t.port t'.rsp = responseAt t.port t.rsp

section views
variable {o : Option (Fin N)} {s s' : State N} (hv : SameView o s s')
include hv

theorem SameView.respond (r : Response) : SameView o (respond r s) (respond r s') :=
  ⟨hv.slot, hv.codec, hv.fault, hv.port, hv.word⟩

theorem SameView.writeTel (k : Fin N) (x : Tel) : SameView o (writeTel k x s) (writeTel k x s') :=
  { hv with
    slot := fun j hj => by
      obtain ⟨htel, hrest⟩ := hv.slot j hj
      exact ⟨by simp only [writeTel_tel, get_set, htel], hrest⟩ }

theorem SameView.writeCmd (k : Fin N) (x : Cmd) : SameView o (writeCmd k x s) (writeCmd k x s') :=
  { hv with
    slot := fun j hj => by
      obtain ⟨htel, hcmd, hrest⟩ := hv.slot j hj
      exact ⟨htel, by simp only [writeCmd_cmd, get_set, hcmd], hrest⟩ }

theorem SameView.writePst (k : Fin N) (x : Pst) : SameView o (writePst k x s) (writePst k x s') :=
  { hv with
    slot := fun j hj => by
      obtain ⟨htel, hcmd, hpst, hpcf⟩ := hv.slot j hj
      exact ⟨htel, hcmd, by simp only [writePst_pst, get_set, hpst], hpcf⟩ }

theorem SameView.writePcf (k : Fin N) (x : Pcf) : SameView o (writePcf k x s) (writePcf k x s') :=
  { hv with
    slot := fun j hj => by
      obtain ⟨htel, hcmd, hpst, hpcf⟩ := hv.slot j hj
      exact ⟨htel, hcmd, hpst, by simp only [writePcf_pcf, get_set, hpcf]⟩ }

theorem SameView.writeCodec (c : Codec (Config.groups N)) : SameView o (writeCodec c s) (writeCodec c s') :=
  { hv with codec := rfl }

/-! ### Outcomes -/

theorem alike_respond (r : Response) : Alike o (.next (respond r s)) (.next (respond r s')) :=
  ⟨_, _, rfl, rfl, hv.respond r, by simp [hv.port]⟩

theorem alike_raiseFault (c : Cause) : Alike o (.next (raiseFault c s)) (.next (raiseFault c s')) :=
  ⟨_, _, rfl, rfl, { hv with fault := by simp only [raiseFault_fault, hv.word, hv.port] }, by simp [hv.port]⟩

theorem alike_answer (r : Results) : Alike o (answer r s) (answer r s') := alike_respond hv (.ok r)

theorem alike_accept (legal : List Port) {go go' : Result N} (hgo : Alike o go go') :
    Alike o (accept legal s go) (accept legal s' go') := by
  unfold accept
  rw [hv.fault, hv.port]
  split
  · exact alike_respond hv .halted
  · split
    · exact hgo
    · exact alike_raiseFault hv .illegalOp

theorem alike_require (ok : Bool) (c : Cause) {go go' : Result N} (hgo : Alike o go go') :
    Alike o (require ok c s go) (require ok c s' go') := by
  cases ok with
  | true => exact hgo
  | false => exact alike_raiseFault hv c

theorem alike_withSlot (id : BitVec 8) {go go' : Fin N → Result N}
    (hgo : ∀ k, slotOf id = some k → Alike o (go k) (go' k)) :
    Alike o (withSlot id s go) (withSlot id s' go') := by
  cases hk : (slotOf id : Option (Fin N)) with
  | some k =>
    rw [withSlot_some hk, withSlot_some hk]
    exact hgo k hk
  | none =>
    rw [withSlot_none hk, withSlot_none hk]
    exact alike_raiseFault hv .badId

end views

/-! ### The twelve operations -/

section operations
variable {o : Option (Fin N)} {s s' : State N}

theorem execRxf_alike (fid : BitVec 11) (p : Payload) (hv : SameView o s s') :
    Alike o (execRxf fid p s) (execRxf fid p s') := by
  refine alike_accept hv _ ?_
  rw [hv.codec]
  split
  · split
    · exact alike_answer (hv.writeTel _ _) _
    · exact alike_respond hv .ignored
  · exact alike_respond hv .ignored

theorem execDec_alike (p : Payload) (hv : SameView o s s') :
    Alike o (execDec p s) (execDec p s') := by
  refine alike_accept hv _ ?_
  rw [hv.codec]
  exact alike_require hv _ _ (alike_answer hv _)

theorem execEnc_alike (id : BitVec 8) (demand : Num32) (hv : SameView (slotOf id) s s') :
    Alike (slotOf id) (execEnc id demand s) (execEnc id demand s') := by
  refine alike_accept hv _ (alike_withSlot hv id fun k _ => ?_)
  rw [hv.codec]
  exact alike_require hv _ _ (alike_require hv _ _ (alike_answer hv _))

theorem execPack_alike (slot : BitVec 2) (f : Payload) (high low : Byte) (hv : SameView o s s') :
    Alike o (execPack slot f high low s) (execPack slot f high low s') :=
  alike_accept hv _ (alike_answer hv _)

theorem execPid_alike (id : BitVec 8) (reference feedback dt : Num32) (hv : SameView (slotOf id) s s') :
    Alike (slotOf id) (execPid id reference feedback dt s) (execPid id reference feedback dt s') := by
  refine alike_accept hv _ (alike_withSlot hv id fun k hk => ?_)
  obtain ⟨_, _, hpst, hpcf⟩ := hv.slot k hk
  rw [hpst, hpcf]
  exact alike_require hv _ _ <| alike_require hv _ _ <| alike_require hv _ _ <| alike_require hv _ _ <|
    alike_answer (hv.writePst k _) _

theorem execPrst_alike (id : BitVec 8) (hv : SameView (slotOf id) s s') :
    Alike (slotOf id) (execPrst id s) (execPrst id s') :=
  alike_accept hv _ <| alike_withSlot hv id fun k _ => alike_answer (hv.writePst k _) _

theorem execRdt_alike (id : BitVec 8) (hv : SameView (slotOf id) s s') :
    Alike (slotOf id) (execRdt id s) (execRdt id s') := by
  refine alike_accept hv _ (alike_withSlot hv id fun k hk => ?_)
  obtain ⟨htel, _⟩ := hv.slot k hk
  rw [htel]
  exact alike_answer hv _

theorem execWrc_alike (id : BitVec 8) (demand : Num32) (hv : SameView (slotOf id) s s') :
    Alike (slotOf id) (execWrc id demand s) (execWrc id demand s') := by
  refine alike_accept hv _ (alike_withSlot hv id fun k _ => ?_)
  rw [hv.codec]
  exact alike_require hv _ _ (alike_require hv _ _ (alike_answer (hv.writeCmd k _) _))

theorem execRdc_alike (id : BitVec 8) (hv : SameView (slotOf id) s s') :
    Alike (slotOf id) (execRdc id s) (execRdc id s') := by
  refine alike_accept hv _ (alike_withSlot hv id fun k hk => ?_)
  obtain ⟨_, hcmd, _⟩ := hv.slot k hk
  rw [hcmd]
  exact alike_answer hv _

theorem execWrp_alike (id : BitVec 8) (sepEn dmeas : Bool)
    (kp ki kd integralLimit outputLimit sepThreshold : Num32) (hv : SameView (slotOf id) s s') :
    Alike (slotOf id) (execWrp id sepEn dmeas kp ki kd integralLimit outputLimit sepThreshold s)
      (execWrp id sepEn dmeas kp ki kd integralLimit outputLimit sepThreshold s') :=
  alike_accept hv _ <| alike_withSlot hv id fun k _ => alike_require hv _ _ <| alike_answer (hv.writePcf k _) _

theorem execWrk_alike (rawFs : BitVec 15) (base : BitVec 11) (ids : List (BitVec 11))
    (iFs angleNum angleDen : Num32) (hv : SameView o s s') :
    Alike o (execWrk rawFs base ids iFs angleNum angleDen s) (execWrk rawFs base ids iFs angleNum angleDen s') :=
  alike_accept hv _ <| alike_require hv _ _ <| alike_require hv _ _ <| alike_answer (hv.writeCodec _) _

theorem execRdf_alike (hv : SameView o s s') : Alike o (execRdf s) (execRdf s') := by
  rw [execRdf, execRdf, hv.fault]
  exact alike_answer hv _

/-- The outcome of an operation depends on no more than what it can see of the slot it names. -/
theorem execOf_alike (i : Instr) (hv : SameView (namedSlot s i) s s') :
    Alike (namedSlot s i) (execOf i s) (execOf i s') := by
  cases i with
  | rxf fid p => exact execRxf_alike fid p hv
  | dec p => exact execDec_alike p hv
  | enc id demand => exact execEnc_alike id demand hv
  | pack slot f high low => exact execPack_alike slot f high low hv
  | pid id reference feedback dt => exact execPid_alike id reference feedback dt hv
  | prst id => exact execPrst_alike id hv
  | rdt id => exact execRdt_alike id hv
  | wrc id demand => exact execWrc_alike id demand hv
  | rdc id => exact execRdc_alike id hv
  | wrp id sepEn dmeas kp ki kd integralLimit outputLimit sepThreshold =>
    exact execWrp_alike id sepEn dmeas kp ki kd integralLimit outputLimit sepThreshold hv
  | wrk rawFs base ids iFs angleNum angleDen => exact execWrk_alike rawFs base ids iFs angleNum angleDen hv
  | rdf => exact execRdf_alike hv

end operations

/-- An operation of this hardware at a state that looks the same to it. -/
theorem exec_of_sameView {s s' t : State} {i : Instr} (hv : SameView (namedSlot s i) s s') (h : exec i s = .next t) :
    ∃ t', exec i s' = .next t' ∧ SameView (namedSlot s i) t t' ∧
      responseAt s.port t'.rsp = responseAt s.port t.rsp := by
  rw [exec_eq_execOf] at h ⊢
  obtain ⟨u, t', hu, ht', hview, hrsp⟩ := execOf_alike i hv
  obtain rfl : u = t := Host.Outcome.next.inj (hu ▸ h)
  exact ⟨t', ht', hview, (execOf_effect h).port_eq ▸ hrsp⟩

/-- Settles O16: the frame by the effect of the operation, the reads by what it can see. -/
theorem portsKeepToTheirRecords : Obligations.PortsKeepToTheirRecords := by
  intro s t i h
  have he := exec_effect h
  refine ⟨fun hq => ?_, fun hq => ?_, fun hq => ?_, fun k => he.pst_writer, fun j => he.sameSlot,
    fun s' hslot hcodec hfault hport hword => ?_⟩
  · refine ⟨he.cmd_eq ?_, he.pst_eq hq, he.pcf_eq ?_, he.codec_eq ?_, fun j hj => (he.sameSlot hj).1⟩ <;>
      simp [hq]
  · exact ⟨he.tel_eq (by simp [hq]), he.pcf_eq (by simp [hq]), he.codec_eq (by simp [hq])⟩
  · exact ⟨he.tel_eq (by simp [hq]), he.cmd_eq (by simp [hq])⟩
  · obtain ⟨t', ht', hview, hrsp⟩ := exec_of_sameView ⟨hslot, hcodec, hfault, hport, hword⟩ h
    exact ⟨t', ht', hview.slot, hview.codec, hview.fault, hrsp⟩

end Sys2Proof.Machine
end
section
/-! SUPPORT. The transitions of a controller by event (41_pid.md R121), and the bounds of a stored command (10_state.md
R26), as cases of `Effect`. -/

namespace Sys2Proof.Machine
open Sys2Proof.F32

variable {N : Nat}

@[simp] theorem responseAt_respond (r : Response) (s : State N) : responseAt s.port (respond r s).rsp = some r :=
  responseAt_putResponse s.port r s.rsp

section controller
variable {s t : State N} {id : BitVec 8} {reference feedback dt : Num32}

/-- All that `PID` can do to a controller: a tick of its own id, or nothing. -/
theorem Effect.pid_controller (h : Effect s (.pid id reference feedback dt) t) (k : Fin N) :
    (id.toNat = k.val + 1 ∧ (∃ v, responseAt s.port t.rsp = some (.ok (.output v))) ∧ t.pst[k].run = .running ∧
      t.pst[k].lastError = sub reference feedback ∧ t.pst[k].lastFeedback = feedback) ∨
    ((id.toNat ≠ k.val + 1 ∨ ∀ v, responseAt s.port t.rsp ≠ some (.ok (.output v))) ∧ t.pst[k] = s.pst[k]) := by
  cases h with
  | halted | raised => exact .inr ⟨.inr (by simp), rfl⟩
  | read hi => exact absurd hi (by decide : Row.pid ∉ readRows)
  | @pid _ _ _ _ j _ _ hj =>
    by_cases hk : k = j
    · subst hk
      exact .inl ⟨slotOf_eq_some.mp hj, ⟨_, responseAt_putResponse ..⟩, by simp [pidTick, pidError]⟩
    · exact .inr ⟨.inl fun hid => hk (Option.some.inj ((slotOf_eq_some.mpr hid).symm.trans hj)), get_set_ne _ hk _⟩

/-- All that `PRST` can do to a controller: the Idle record for its own id, or nothing. -/
theorem Effect.prst_controller (h : Effect s (.prst id) t) (k : Fin N) :
    (id.toNat = k.val + 1 ∧ responseAt s.port t.rsp = some (.ok .none) ∧ t.pst[k] = Pst.reset) ∨
    ((id.toNat ≠ k.val + 1 ∨ responseAt s.port t.rsp ≠ some (.ok .none)) ∧ t.pst[k] = s.pst[k]) := by
  cases h with
  | halted | raised => exact .inr ⟨.inr (by simp), rfl⟩
  | read hi => exact absurd hi (by decide : Row.prst ∉ readRows)
  | @prst _ j _ _ hj =>
    by_cases hk : k = j
    · subst hk
      exact .inl ⟨slotOf_eq_some.mp hj, responseAt_putResponse .., get_set_same ..⟩
    · exact .inr ⟨.inl fun hid => hk (Option.some.inj ((slotOf_eq_some.mpr hid).symm.trans hj)), get_set_ne _ hk _⟩

/-- No other operation touches a controller, `WRP` included (10_state.md R41). -/
theorem Effect.pst_eq_of_other {i : Instr} (h : Effect s i t) (hpid : i.row ≠ .pid) (hprst : i.row ≠ .prst) :
    t.pst = s.pst := by
  cases h with
  | pid => exact absurd rfl hpid
  | prst => exact absurd rfl hprst
  | _ => rfl

/-- A faulting `PID` writes no controller and halts the block (60_exceptions.md R168). -/
theorem Effect.pid_fault (h : Effect s (.pid id reference feedback dt) t)
    (hf : responseAt s.port t.rsp = some .fault) : t.pst = s.pst ∧ t.fault.halt = true := by
  cases h with
  | raised => exact ⟨rfl, rfl⟩
  | halted | read | pid => simp at hf

end controller

/-- Settles O47: reset zeroes every record; the other transitions are the cases of the operation's effect. -/
theorem controllerStateMachine : Obligations.ControllerStateMachine := by
  refine ⟨fun s t rest k hs hst => ?_, fun s t i k h => ?_, fun s t id reference feedback dt h =>
    (exec_effect h).pid_fault⟩
  · rw [step_reset hs] at hst
    obtain rfl := Host.Outcome.next.inj hst
    obtain ⟨_, _, hpst, _⟩ := resetOf_slot k
    exact hpst
  · have he := exec_effect h
    cases i with
    | pid => exact he.pid_controller k
    | prst => exact he.prst_controller k
    | _ => exact congrArg (·[k]) (he.pst_eq_of_other nofun nofun)

/-! ### The bounds of a stored command -/

theorem le_of_gt {a b : Num32} (h : gt a b = true) : le b a = true := by
  obtain ⟨ha, hb, hk⟩ := gt_iff.mp h
  exact le_iff.mpr ⟨hb, ha, hk.le⟩

/-- A demand clamped to the full scale of a configured codec lies within it. -/
theorem clampDemand_mem {G : Nat} {c : Codec G} {demand : Num32} (hv : c.valid = true) (hc : LegalCodec c)
    (hd : isNaN demand = false) :
    le (neg c.iFs) (clampDemand demand c) = true ∧ le (clampDemand demand c) c.iFs = true := by
  obtain ⟨_, hpos, _⟩ := configLegal_iff.mp (legalCodec_valid hv hc)
  exact clamp_mem (neg_le_self (le_of_gt hpos)) hd

/-- A `WRC` that answers OK has stored the clamped demand that it answers, under a configured codec. -/
theorem Effect.wrc_stored {s t : State N} {id : BitVec 8} {demand v : Num32}
    (h : Effect s (.wrc id demand) t) (hr : responseAt s.port t.rsp = some (.ok (.stored v))) :
    ∃ k : Fin N, slotOf id = some k ∧ s.codec.valid = true ∧ isNaN demand = false ∧ v = clampDemand demand s.codec ∧
      t.cmd = s.cmd.set k ⟨v⟩ := by
  cases h with
  | halted | raised => simp at hr
  | read hi => exact absurd hi (by decide : Row.wrc ∉ readRows)
  | @wrc _ _ k _ _ hk hv hn =>
    obtain rfl : clampDemand demand s.codec = v := by simpa using hr
    exact ⟨k, hk, hv, hn, rfl, rfl⟩

/-- Settles O50: the stored demand is a clamp between limits in order, since a legal full scale is positive. -/
theorem commandIsWithinItsBounds : Obligations.CommandIsWithinItsBounds := by
  intro s t id demand v k hc hid hq h hr
  obtain ⟨j, hj, hv, hn, rfl, hcmd⟩ := (exec_effect h).wrc_stored (hq ▸ hr)
  obtain rfl : j = k := Option.some.inj (hj.symm.trans (slotOf_eq_some.mpr hid))
  exact ⟨by rw [hcmd, get_set_same], clampDemand_mem hv hc hn⟩

end Sys2Proof.Machine
end
section
/-! SUPPORT. Serving the total order (20_memory.md R58, R59, R61): one step answers one request, on its port, and takes it
from the order; and what a step can do to the telemetry (R55). -/

namespace Sys2Proof.Machine

variable {N : Nat}

/-- Settles O6: the step is `exec` at the latched state, by the law of serving a request. -/
theorem stepRunsTheDecodedOperation : Obligations.StepRunsTheDecodedOperation := by
  intro s q c rest i hs hd
  rw [step_request hs, hd]
  rfl

/-! ### Every operation answers -/

/-- The outcome is a next state with one response, on the port of the operation at hand, and the same events to come. -/
def Answers (s : State N) (out : Result N) : Prop :=
  ∃ t r, out = .next t ∧ t.inbox = s.inbox ∧ t.rsp = putResponse s.port r s.rsp

/-- A state looks to an operation as itself. -/
theorem SameView.refl (o : Option (Fin N)) (s : State N) : SameView o s s :=
  ⟨fun _ _ => ⟨rfl, rfl, rfl, rfl⟩, rfl, rfl, rfl, rfl⟩

/-- Every operation has a next state, in every state. -/
theorem exists_execOf_next (i : Instr) (s : State N) : ∃ t, execOf i s = .next t :=
  have ⟨t, _, ht, _⟩ := execOf_alike i (SameView.refl (namedSlot s i) s)
  ⟨t, ht⟩

section effect
variable {s t : State N} {i : Instr}

theorem Effect.inbox_eq (h : Effect s i t) : t.inbox = s.inbox := by cases h <;> rfl

theorem Effect.rsp_eq (h : Effect s i t) : ∃ r, t.rsp = putResponse s.port r s.rsp := by
  cases h <;> exact ⟨_, rfl⟩

/-- The telemetry changes by an `RXF` on port RX alone, which stores the decoding of its payload (20_memory.md R55). -/
theorem Effect.tel_cases (h : Effect s i t) :
    t.tel = s.tel ∨ ∃ fid p k, i = .rxf fid p ∧ s.port = .rx ∧ s.codec.valid = true ∧
      rxSlotOf fid s.codec.baseRxId = some k ∧ t.tel = s.tel.set k (decodeTel p s.codec) := by
  cases h with
  | rxf _ hp hv hk => exact .inr ⟨_, _, _, rfl, hp, hv, hk, rfl⟩
  | _ => exact .inl rfl

end effect

theorem exec_answers (i : Instr) (s : State) : Answers s (exec i s) := by
  obtain ⟨t, ht⟩ := exists_execOf_next i s
  have he := execOf_effect ht
  obtain ⟨r, hr⟩ := he.rsp_eq
  exact ⟨t, r, (exec_eq_execOf i s).trans ht, he.inbox_eq, hr⟩

/-- All that turning a command away can do: a response, or a fault. -/
theorem rejected_next {e : DecodeError} {s t : State N} (h : rejected e s = .next t) :
    t = respond .halted s ∨ t = raiseFault .illegalOp s := by
  cases e with
  | noRow =>
    simp only [rejected] at h
    split at h
    · exact .inl (Host.Outcome.next.inj h).symm
    · exact .inr (Host.Outcome.next.inj h).symm
  | operandBlock => cases h

theorem rejected_noRow_answers (s : State N) : Answers s (rejected .noRow s) := by
  simp only [rejected]
  split
  · exact ⟨_, _, rfl, rfl, rfl⟩
  · exact ⟨_, _, rfl, rfl, rfl⟩

/-- A request that can be presented is answered by the step that takes it. -/
theorem step_presentable {s : State} {q : Port} {c : Command} {rest : List Event}
    (hs : s.inbox = .request q c :: rest) (hc : presentable Config.G c = true) :
    ∃ t r, step s = .next t ∧ t.inbox = rest ∧ t.rsp = putResponse q r s.rsp := by
  rw [step_request hs]
  cases hd : decode Config.G c with
  | ok i => exact exec_answers i _
  | error e =>
    cases e with
    | noRow => exact rejected_noRow_answers _
    | operandBlock => exact absurd hd (decode_ne_operandBlock hc)

/-- Settles O9: the one response of the step is put on the port of the request. -/
theorem everyRequestIsAnswered : Obligations.EveryRequestIsAnswered := by
  intro s q c rest hs hc
  obtain ⟨t, r, ht, hinbox, hrsp⟩ := step_presentable hs hc
  refine ⟨t, r, ht, hinbox, ?_, fun q' hq' => ?_⟩
  · rw [hrsp, responseAt_putResponse]
  · rw [hrsp, responseAt_putResponse_ne hq']

/-! ### The whole order is served -/

theorem core_run_succ {s t : State} (n : Nat) (h : step s = .next t) :
    Host.Core.run Sys2Proof.core (n + 1) s = Host.Core.run Sys2Proof.core n t := by
  have hcore : Sys2Proof.core.step s = .next t := h
  simp only [Host.Core.run, hcore]

/-- The step takes the first event of the order, a reset or a request that can be presented. -/
theorem step_takes_event {s : State} {e : Event} {rest : List Event} (hs : s.inbox = e :: rest)
    (hc : ∀ q c, e = .request q c → presentable Config.G c = true) : ∃ t, step s = .next t ∧ t.inbox = rest := by
  cases e with
  | reset => exact ⟨_, step_reset hs, rfl⟩
  | request q c =>
    obtain ⟨t, _, ht, hinbox, _⟩ := step_presentable hs (hc q c rfl)
    exact ⟨t, ht, hinbox⟩

/-- As many steps as there are events serve them all. -/
theorem run_serves_all (l : List Event) {s : State} (hs : s.inbox = l)
    (hc : ∀ q c, Event.request q c ∈ l → presentable Config.G c = true) :
    ∃ t, Host.Core.run Sys2Proof.core l.length s = .next t ∧ State.inbox t = [] := by
  induction l generalizing s with
  | nil => exact ⟨s, rfl, hs⟩
  | cons e rest ih =>
    obtain ⟨t, ht, hinbox⟩ := step_takes_event hs fun q c he => hc q c (he ▸ List.mem_cons_self)
    rw [List.length_cons, core_run_succ rest.length ht]
    exact ih hinbox fun q c hmem => hc q c (List.mem_cons_of_mem e hmem)

/-- Settles O10: by induction over the order. -/
theorem waitingOperationsAreAllServed : Obligations.WaitingOperationsAreAllServed := fun _ => run_serves_all _ rfl

/-! ### The telemetry of a step -/

/-- Settles O19: only a reset, and an `RXF` that is served, change the telemetry. -/
theorem telemetryComesFromOneFrame : Obligations.TelemetryComesFromOneFrame := by
  intro s t k hst
  cases hs : s.inbox with
  | nil =>
    rw [step_idle hs] at hst
    exact .inl (Host.Outcome.next.inj hst ▸ rfl)
  | cons e rest =>
    cases e with
    | reset =>
      rw [step_reset hs] at hst
      obtain rfl := Host.Outcome.next.inj hst
      obtain ⟨htel, _⟩ := resetOf_slot k
      exact .inr (.inl ⟨htel, rest, rfl⟩)
    | request q c =>
      rw [step_request hs] at hst
      cases hd : decode Config.G c with
      | error e =>
        rw [hd] at hst
        rcases rejected_next hst with rfl | rfl
        · exact .inl rfl
        · exact .inl rfl
      | ok i =>
        rw [hd] at hst
        rcases (exec_effect hst).tel_cases with htel | ⟨fid, p, j, rfl, rfl, hv, hj, htel⟩
        · exact .inl (congrArg (·[k]) htel)
        · rw [htel, get_set]
          split
          · rename_i hkj
            exact .inr (.inr ⟨fid, p, rest, c, rfl, hd, hkj ▸ rxSlotOf_eq_some.mp hj, hv, rfl⟩)
          · exact .inl rfl

end Sys2Proof.Machine
end
section
/-! SUPPORT. Repeating an operation (20_memory.md R56): what a halted block does, the outcome of each write that passes
its checks, and that the checks pass again and the write is idempotent. -/

namespace Sys2Proof.Machine
open Sys2Proof.F32

variable {N : Nat}

/-! ### Writing twice -/

@[simp] theorem respond_respond (r r' : Response) (s : State N) : respond r (respond r' s) = respond r s := by
  simp [respond]

theorem writeTel_writeTel (k : Fin N) (x : Tel) (s : State N) : writeTel k x (writeTel k x s) = writeTel k x s := by
  simp [writeTel]

theorem writeCmd_writeCmd (k : Fin N) (x : Cmd) (s : State N) : writeCmd k x (writeCmd k x s) = writeCmd k x s := by
  simp [writeCmd]

theorem writePst_writePst (k : Fin N) (x : Pst) (s : State N) : writePst k x (writePst k x s) = writePst k x s := by
  simp [writePst]

theorem writePcf_writePcf (k : Fin N) (x : Pcf) (s : State N) : writePcf k x (writePcf k x s) = writePcf k x s := by
  simp [writePcf]

theorem writeCodec_writeCodec (c : Codec (Config.groups N)) (s : State N) :
    writeCodec c (writeCodec c s) = writeCodec c s := rfl

/-- A write that no response can see, and that is idempotent, changes nothing when made and answered again. -/
theorem respond_write_again {write : State N → State N} (hcomm : ∀ r s, write (respond r s) = respond r (write s))
    (hidem : ∀ s, write (write s) = write s) (r : Response) (s : State N) :
    respond r (write (respond r (write s))) = respond r (write s) := by
  rw [hcomm, hidem, respond_respond]

/-! ### The outcome of a write that passes its checks -/

section written
variable {s : State N}

theorem execRxf_ignored {fid : BitVec 11} (p : Payload) (hh : s.fault.halt = false) (hp : s.port = .rx)
    (hk : s.codec.valid = false ∨ (rxSlotOf fid s.codec.baseRxId : Option (Fin N)) = none) :
    execRxf fid p s = .next (respond .ignored s) := by
  rw [execRxf, accept_legal hh (by simp [hp])]
  rcases hk with hv | hk
  · simp [hv]
  · simp [hk]

theorem execRxf_written {fid : BitVec 11} (p : Payload) {k : Fin N} (hh : s.fault.halt = false) (hp : s.port = .rx)
    (hv : s.codec.valid = true) (hk : rxSlotOf fid s.codec.baseRxId = some k) :
    execRxf fid p s = .next (respond (.ok .none) (writeTel k (decodeTel p s.codec) s)) := by
  rw [execRxf, accept_legal hh (by simp [hp]), if_pos hv, hk]
  rfl

theorem execWrc_written {id : BitVec 8} {demand : Num32} {k : Fin N} (hh : s.fault.halt = false) (hp : s.port = .ctl)
    (hk : slotOf id = some k) (hv : s.codec.valid = true) (hn : isNaN demand = false) :
    execWrc id demand s =
      .next (respond (.ok (.stored (clampDemand demand s.codec))) (writeCmd k ⟨clampDemand demand s.codec⟩ s)) := by
  rw [execWrc, accept_legal hh (by simp [hp]), withSlot_some hk, hv, require_true,
    not_anyNaN_iff.mpr (by simpa using hn), require_true]
  rfl

theorem execPrst_written {id : BitVec 8} {k : Fin N} (hh : s.fault.halt = false) (hp : s.port = .cfg)
    (hk : slotOf id = some k) : execPrst id s = .next (respond (.ok .none) (writePst k Pst.reset s)) := by
  rw [execPrst, accept_legal hh (by simp [hp]), withSlot_some hk]
  rfl

theorem execWrp_written {id : BitVec 8} (sepEn dmeas : Bool)
    {kp ki kd integralLimit outputLimit sepThreshold : Num32} {k : Fin N}
    (hh : s.fault.halt = false) (hp : s.port = .cfg) (hk : slotOf id = some k)
    (hn : ∀ x ∈ [kp, ki, kd, integralLimit, outputLimit, sepThreshold], isNaN x = false) :
    execWrp id sepEn dmeas kp ki kd integralLimit outputLimit sepThreshold s =
      .next (respond (.ok .none) (writePcf k
        ⟨true, kp, ki, kd, sat0 integralLimit, sat0 outputLimit, sepThreshold, sepEn, dmeas⟩ s)) := by
  rw [execWrp, accept_legal hh (by simp [hp]), withSlot_some hk, not_anyNaN_iff.mpr hn, require_true]
  rfl

theorem execWrk_written {rawFs : BitVec 15} (base : BitVec 11) (ids : List (BitVec 11))
    {iFs angleNum angleDen : Num32} (hh : s.fault.halt = false) (hp : s.port = .cfg)
    (hn : ∀ x ∈ [iFs, angleNum, angleDen], isNaN x = false) (hl : configLegal iFs rawFs angleNum angleDen = true) :
    execWrk rawFs base ids iFs angleNum angleDen s =
      .next (respond (.ok .none) (writeCodec ⟨true, base, frameIds ids, iFs, rawFs, angleNum, angleDen⟩ s)) := by
  rw [execWrk, accept_legal hh (by simp [hp]), not_anyNaN_iff.mpr hn, require_true, hl, require_true]
  rfl

end written

/-! ### Issuing an operation twice -/

section twice
variable {s t : State N} {i : Instr}

/-- A halted block answers HALTED to every operation but `RDF` (60_exceptions.md R169). -/
theorem execOf_halted (hh : s.fault.halt = true) (hi : i.row ≠ .rdf) : execOf i s = .next (respond .halted s) := by
  cases i with
  | rdf => exact absurd rfl hi
  | _ => exact accept_halted hh

/-- A read that does not fault changes the response alone. -/
theorem Effect.read_eq (h : Effect s i t) (hi : i.row ∈ readRows) (hf : t.fault = s.fault) :
    ∃ r, t = respond r s := by
  cases h with
  | raised hh c => simp [← hf] at hh
  | halted | ignored | read => exact ⟨_, rfl⟩
  | rxf | wrc | pid | prst | wrp | wrk => simp [readRows, Instr.row] at hi

/-- The operations that write what does not depend on what they wrote before (20_memory.md R56). -/
def writeRows : List Row := [.wrc, .wrp, .wrk, .prst, .rxf]

/-- A write that left the block running passes its checks again, and ends where it did. -/
theorem Effect.write_again (h : Effect s i t) (hi : i.row ∈ writeRows) (ht : t.fault.halt = false) :
    execOf i t = .next t := by
  cases h with
  | halted hh => exact absurd ht (by simp [hh])
  | raised hh c => cases ht
  | read hr => exact absurd hr ((by decide : ∀ r ∈ writeRows, r ∉ readRows) _ hi)
  | pid => exact absurd hi (by decide : Row.pid ∉ writeRows)
  | ignored hh hp hk =>
    refine (execRxf_ignored _ ht hp hk).trans ?_
    rw [respond_respond]
  | rxf hh hp hv hk =>
    exact (execRxf_written _ ht hp hv hk).trans
      (congrArg _ (respond_write_again (fun _ _ => rfl) (writeTel_writeTel _ _) _ s))
  | wrc hh hp hk hv hn =>
    exact (execWrc_written ht hp hk hv hn).trans
      (congrArg _ (respond_write_again (fun _ _ => rfl) (writeCmd_writeCmd _ _) _ s))
  | prst hh hp hk =>
    exact (execPrst_written ht hp hk).trans
      (congrArg _ (respond_write_again (fun _ _ => rfl) (writePst_writePst _ _) _ s))
  | wrp hh hp hk hn =>
    exact (execWrp_written _ _ ht hp hk hn).trans
      (congrArg _ (respond_write_again (fun _ _ => rfl) (writePcf_writePcf _ _) _ s))
  | wrk hh hp hn hl =>
    exact (execWrk_written _ _ ht hp hn hl).trans
      (congrArg _ (respond_write_again (fun _ _ => rfl) (writeCodec_writeCodec _) _ s))

end twice

/-- An operation sees nothing of a response. -/
theorem sameView_respond (o : Option (Fin N)) (r : Response) (s : State N) : SameView o s (respond r s) :=
  ⟨fun _ _ => ⟨rfl, rfl, rfl, rfl⟩, rfl, rfl, rfl, rfl⟩

section hardware
variable {s t : State} {i : Instr}

/-- A read that does not fault ends in the same state when repeated. -/
theorem exec_read_again (hi : i.row ∈ readRows) (h : exec i s = .next t) (hf : t.fault = s.fault) :
    exec i t = .next t := by
  obtain ⟨r, rfl⟩ := (exec_effect h).read_eq hi hf
  obtain ⟨u, hu, hview, hrsp⟩ := exec_of_sameView (sameView_respond _ r s) h
  obtain ⟨r', rfl⟩ := (exec_effect hu).read_eq hi hview.fault
  obtain rfl : r' = r := by simpa using hrsp
  rwa [respond_respond] at hu

/-- A write issued twice: on a block that halted the second answers HALTED, and else ends where the first did. -/
theorem exec_write_again (hi : i.row ∈ writeRows) (h : exec i s = .next t) :
    ∃ u, exec i t = .next u ∧ SameRecords t u ∧ (t.fault = s.fault → u = t) := by
  have hrdf : i.row ≠ .rdf := (by decide : ∀ r ∈ writeRows, r ≠ .rdf) _ hi
  cases ht : t.fault.halt with
  | false =>
    exact ⟨t, (exec_eq_execOf i t).trans ((exec_effect h).write_again hi ht), ⟨rfl, rfl, rfl, rfl, rfl, rfl⟩,
      fun _ => rfl⟩
  | true =>
    refine ⟨respond .halted t, (exec_eq_execOf i t).trans (execOf_halted ht hrdf), ⟨rfl, rfl, rfl, rfl, rfl, rfl⟩,
      fun hf => ?_⟩
    rw [exec_eq_execOf, execOf_halted (hf ▸ ht) hrdf] at h
    rw [← Host.Outcome.next.inj h, respond_respond]

end hardware

/-- A block on port CTL whose first controller has an integral limit of 10 and no gain. -/
def integrating : State :=
  writePcf 0 ⟨true, 0, 0, 0, 0x41200000#32, 0, 0, false, true⟩ { State.reset with port := .ctl }

/-- The error 5 held for a second integrates to 2.5 at the first tick and to 7.5 at the second. -/
theorem pid_twice_differs : ∃ (s t u : State) (i : Instr), i.row = .pid ∧ exec i s = .next t ∧ exec i t = .next u ∧
    t.pst ≠ u.pst ∧ u.fault = s.fault :=
  ⟨integrating, _, _, .pid 1 0x40A00000#32 0 0x3F800000#32, rfl, rfl, rfl, by decide, by decide⟩

/-- Settles O17: a read is a response; a write passes its checks again; `PID` goes on integrating. -/
theorem idempotentOperations : Obligations.IdempotentOperations := by
  refine ⟨fun s t i hi h hf => ?_, fun s t i => exec_write_again, pid_twice_differs⟩
  have hread : i.row ∈ readRows := (by decide : ∀ r ∈ [Row.rdt, .rdc, .rdf, .dec, .enc, .pack], r ∈ readRows) _ hi
  refine ⟨?_, exec_read_again hread h hf⟩
  obtain ⟨r, rfl⟩ := (exec_effect h).read_eq hread hf
  exact ⟨rfl, rfl, rfl, rfl, rfl, rfl⟩

end Sys2Proof.Machine
end
section
/-! SUPPORT. Operations on different actuators in either order (20_memory.md R57, R60, R65), and a tick after a
configuration write of the same actuator (R64). -/

namespace Sys2Proof.Machine

variable {N : Nat}

/-! ### The address mappings -/

/-- Settles O24: an identifier of the window is the base plus the actuator's number; group and slot are quotient and
remainder by 4. -/
theorem addressMappingsAreInjective : Obligations.AddressMappingsAreInjective := by
  refine ⟨fun base f f' k h h' => BitVec.eq_of_toNat_eq ?_, fun base k hk => rxSlotOf_eq_some.mpr ?_,
    fun _ _ => eq_of_group_of_frameSlot⟩
  · rw [rxSlotOf_eq_some.mp h, rxSlotOf_eq_some.mp h']
  · exact Nat.mod_eq_of_lt hk

/-! ### Either order -/

section effect
variable {s t : State N} {i : Instr}

/-- An operation that leaves the block running leaves FAULT as it was. -/
theorem Effect.fault_eq (h : Effect s i t) (ht : t.fault.halt = false) : t.fault = s.fault := by
  cases h with
  | raised => cases ht
  | _ => rfl

/-- `WRK` alone writes CODEC, and it names no actuator. -/
theorem Effect.codec_eq_of_named (h : Effect s i t) {k : Fin N} (hk : namedSlot s i = some k) : t.codec = s.codec := by
  cases h with
  | wrk => cases hk
  | _ => rfl

end effect

theorem namedSlot_congr {s s' : State N} (i : Instr) (h : s'.codec = s.codec) : namedSlot s' i = namedSlot s i := by
  cases i with
  | rxf => exact congrArg (fun c => rxSlotOf _ c.baseRxId) h
  | _ => rfl

theorem SameSlot.symm {s t : State N} {k : Fin N} (h : SameSlot k s t) : SameSlot k t s :=
  have ⟨htel, hcmd, hpst, hpcf⟩ := h
  ⟨htel.symm, hcmd.symm, hpst.symm, hpcf.symm⟩

theorem SameSlot.trans {s t u : State N} {k : Fin N} (h : SameSlot k s t) (h' : SameSlot k t u) : SameSlot k s u :=
  have ⟨htel, hcmd, hpst, hpcf⟩ := h
  have ⟨htel', hcmd', hpst', hpcf'⟩ := h'
  ⟨htel'.trans htel, hcmd'.trans hcmd, hpst'.trans hpst, hpcf'.trans hpcf⟩

/-- States that agree in every slot, in CODEC and in FAULT have the same records. -/
theorem sameRecords_of_slots {s t : State N} (h : ∀ k, SameSlot k s t) (hcodec : t.codec = s.codec)
    (hfault : t.fault = s.fault) : SameRecords s t :=
  ⟨Vector.ext fun k hk => have ⟨htel, _⟩ := h ⟨k, hk⟩; htel,
    Vector.ext fun k hk => have ⟨_, hcmd, _⟩ := h ⟨k, hk⟩; hcmd,
    Vector.ext fun k hk => have ⟨_, _, hpst, _⟩ := h ⟨k, hk⟩; hpst,
    Vector.ext fun k hk => have ⟨_, _, _, hpcf⟩ := h ⟨k, hk⟩; hpcf, hcodec, hfault⟩

/-- Two requests that name different actuators are served in both orders, `i` then `i'` through `t` to `u`, and `i'` then
`i` through `t'` to `u'`, and neither order halts the block. -/
structure BothOrders (s t u t' u' : State) (q q' : Port) (i i' : Instr) (k k' : Fin Config.N) : Prop where
  names : namedSlot s i = some k
  names' : namedSlot s i' = some k'
  ne : k ≠ k'
  first : exec i (latch q (encode i) s) = .next t
  second : exec i' (latch q' (encode i') t) = .next u
  first' : exec i' (latch q' (encode i') s) = .next t'
  second' : exec i (latch q (encode i) t') = .next u'
  running : u.fault.halt = false
  running' : u'.fault.halt = false

namespace BothOrders
variable {s t u t' u' : State} {q q' : Port} {i i' : Instr} {k k' : Fin Config.N}

theorem symm (h : BothOrders s t u t' u' q q' i i' k k') : BothOrders s t' u' t u q' q i' i k' k :=
  ⟨h.names', h.names, h.ne.symm, h.first', h.second', h.first, h.second, h.running', h.running⟩

variable (h : BothOrders s t u t' u' q q' i i' k k')
include h

theorem fault_second : u.fault = t.fault := (exec_effect h.second).fault_eq h.running

theorem fault_first : t.fault = s.fault := (exec_effect h.first).fault_eq (h.fault_second ▸ h.running)

theorem codec_first : t.codec = s.codec := (exec_effect h.first).codec_eq_of_named h.names

theorem names_second : namedSlot t i' = some k' := (namedSlot_congr i' h.codec_first).trans h.names'

theorem codec_second : u.codec = t.codec := (exec_effect h.second).codec_eq_of_named h.names_second

theorem slot_first {j : Fin Config.N} (hj : j ≠ k) : SameSlot j s t :=
  (exec_effect h.first).sameSlot fun e => hj (Option.some.inj (e.symm.trans h.names))

theorem slot_second {j : Fin Config.N} (hj : j ≠ k') : SameSlot j t u :=
  (exec_effect h.second).sameSlot fun e => hj (Option.some.inj (e.symm.trans h.names_second))

/-- To `i`, the state that `i'` left looks as the one before `i'`. -/
theorem sameView : SameView (namedSlot s i) (latch q (encode i) s) (latch q (encode i) t') where
  slot _ hj := h.symm.slot_first fun e => h.ne (Option.some.inj (h.names.symm.trans (e ▸ hj)))
  codec := h.symm.codec_first
  fault := h.symm.fault_first
  port := rfl
  word := rfl

/-- So `i` does and answers after `i'` what it does and answers before it. -/
theorem same_outcome : SameSlot k t u' ∧ responseAt q u'.rsp = responseAt q t.rsp := by
  obtain ⟨u₁, hu₁, hview, hrsp⟩ := exec_of_sameView (i := i) h.sameView h.first
  obtain rfl : u₁ = u' := Host.Outcome.next.inj (hu₁ ▸ h.second')
  exact ⟨hview.slot k h.names, hrsp⟩

/-- The two orders agree in every slot but that of `i'`, which `h.symm` covers. -/
theorem slot_end {j : Fin Config.N} (hj : j ≠ k') : SameSlot j u u' := by
  refine (h.slot_second hj).symm.trans ?_
  by_cases hjk : j = k
  · exact hjk ▸ h.same_outcome.1
  · exact (h.slot_first hjk).symm.trans ((h.symm.slot_first hj).trans (h.symm.slot_second hjk))

theorem sameRecords : SameRecords u u' := by
  refine sameRecords_of_slots (fun j => ?_) ?_ ?_
  · by_cases hj : j = k'
    · exact (h.symm.slot_end (hj ▸ h.ne.symm)).symm
    · exact h.slot_end hj
  · rw [h.codec_second, h.codec_first, h.symm.codec_second, h.symm.codec_first]
  · rw [h.fault_second, h.fault_first, h.symm.fault_second, h.symm.fault_first]

end BothOrders

/-- Settles O18: each operation sees the same before and after the other, and leaves the other's slot alone. -/
theorem differentActuatorsCommute : Obligations.DifferentActuatorsCommute := by
  intro s t u t' u' q q' i i' k k' hk hk' hne ht hu ht' hu' hrun hrun'
  have h : BothOrders s t u t' u' q q' i i' k k' := ⟨hk, hk', hne, ht, hu, ht', hu', hrun, hrun'⟩
  exact ⟨h.sameRecords, h.same_outcome.2, h.symm.same_outcome.2⟩

/-! ### A tick after a configuration write -/

section tick
variable {s t : State N} {id : BitVec 8}

/-- A `PID` that answers OK has run the tick of its slot on a block that is not halted. -/
theorem Effect.pid_output {reference feedback dt v : Num32} (h : Effect s (.pid id reference feedback dt) t)
    (hr : responseAt s.port t.rsp = some (.ok (.output v))) :
    ∃ k : Fin N, slotOf id = some k ∧ s.fault.halt = false ∧
      (t.pst[k], v) = pidTick s.pcf[k] s.pst[k] reference feedback dt := by
  cases h with
  | halted | raised => simp at hr
  | read hi => exact absurd hi (by decide : Row.pid ∉ readRows)
  | @pid _ _ _ _ k hh _ hk =>
    obtain rfl : (pidTick s.pcf[k] s.pst[k] reference feedback dt).2 = v := by simpa using hr
    exact ⟨k, hk, hh, by simp⟩

/-- A `WRP` that leaves the block running has written its slot's parameters, with the limits saturated, and no
controller. -/
theorem Effect.wrp_written {sepEn dmeas : Bool} {kp ki kd integralLimit outputLimit sepThreshold : Num32}
    (h : Effect s (.wrp id sepEn dmeas kp ki kd integralLimit outputLimit sepThreshold) t)
    (ht : t.fault.halt = false) :
    ∃ k : Fin N, slotOf id = some k ∧ t.pst = s.pst ∧ t.pcf = s.pcf.set k
      ⟨true, kp, ki, kd, sat0 integralLimit, sat0 outputLimit, sepThreshold, sepEn, dmeas⟩ := by
  cases h with
  | halted hh => exact absurd ht (by simp [hh])
  | raised => cases ht
  | read hi => exact absurd hi (by decide : Row.wrp ∉ readRows)
  | wrp _ _ hk => exact ⟨_, hk, rfl, rfl⟩

end tick

/-- Settles O53: a `PID` that answers OK was served on a block that runs, so the `WRP` before it has written. -/
theorem nextTickSeesTheNewParameters : Obligations.NextTickSeesTheNewParameters := by
  intro s t u id sepEn dmeas kp ki kd integralLimit outputLimit sepThreshold reference feedback dt v k hid _ hwrp hpid hr
  have hk : slotOf id = some k := slotOf_eq_some.mpr hid
  obtain ⟨j, hj, hrun, htick⟩ := (exec_effect hpid).pid_output hr
  obtain rfl : j = k := Option.some.inj (hj.symm.trans hk)
  obtain ⟨j', hj', hpst, hpcf⟩ := (exec_effect hwrp).wrp_written hrun
  obtain rfl : j' = j := Option.some.inj (hj'.symm.trans hk)
  rw [htick]
  simp only [hpst, hpcf, get_set_same]

end Sys2Proof.Machine
end
section
/-! SUPPORT. The decoder and the encoder undo one another (30_encoding.md R70 to R72, R80 to R82): what the table says of
a word, the one word of a row with given fields, and the operand blocks. -/

namespace Sys2Proof

/-! ### What the table says of a word -/

/-- The opcode of a row (30_encoding.md R80): the top byte of its `match`. -/
def rowOpcode (r : Row) : BitVec 8 := (rowMatch r).extractLsb' 24 8

/-- The rows whose word names an actuator in its `id` field (30_encoding.md R80). -/
def idRows : List Row := [.enc, .pid, .prst, .rdt, .wrc, .rdc, .wrp]

/-- The number of the low `aux` bits that a row defines (30_encoding.md R71). -/
def auxWidth : Row → Nat
  | .rxf => 11
  | .pack | .wrp => 2
  | .wrk => 15
  | _ => 0

theorem auxWidth_le (r : Row) : auxWidth r ≤ 16 := by cases r <;> decide

theorem rowOpcode_injective : Function.Injective rowOpcode := by
  have h : ∀ a ∈ rows, ∀ b ∈ rows, rowOpcode a = rowOpcode b → a = b := by decide
  exact fun a b => h a (mem_rows a) b (mem_rows b)

theorem rowMatch_eq (r : Row) : rowMatch r = wordOf (rowOpcode r) 0 0 := by cases r <;> decide

/-- A mask takes the whole opcode, the `id` field where the row has none, and the `aux` bits the row leaves undefined. -/
theorem rowMask_eq (r : Row) : rowMask r =
    wordOf (BitVec.allOnes 8) (if r ∈ idRows then 0 else BitVec.allOnes 8) (BitVec.allOnes 16 <<< auxWidth r) := by
  cases r <;> decide

theorem and_shifted_eq_zero_iff (x : BitVec 16) {n : Nat} (h : n ≤ 16) :
    x &&& (BitVec.allOnes 16 <<< n) = 0 ↔ x.extractLsb' n (16 - n) = 0 := by
  refine and_eq_zero_iff x _ n (16 - n) (fun i => ?_) (by omega)
  rw [BitVec.getLsbD_shiftLeft, BitVec.getLsbD_allOnes, Bool.eq_iff_iff]
  simp
  omega

/-- A word names a row just where it has the row's opcode and zeros in all that the row does not define. -/
theorem rowNamed_iff {w : Word} {r : Row} :
    rowNamed w r = true ↔ w.extractLsb' 24 8 = rowOpcode r ∧ (r ∉ idRows → idField w = 0) ∧
      w.extractLsb' (auxWidth r) (16 - auxWidth r) = 0 := by
  have hle := auxWidth_le r
  rw [rowNamed, beq_iff_eq, rowMatch_eq, rowMask_eq, ← wordOf_parts w, wordOf_and, wordOf_inj,
    and_shifted_eq_zero_iff _ hle, wordOf_parts, extract_aux _ _ _ (by omega), BitVec.and_allOnes]
  by_cases hr : r ∈ idRows
  · simp [hr]
  · simp only [hr, if_false, BitVec.and_allOnes, not_false_eq_true, true_implies]

/-- The rows a word names have its opcode, and no two rows share one. -/
theorem rowNamed_unique {w : Word} {a b : Row} (ha : rowNamed w a = true) (hb : rowNamed w b = true) : a = b := by
  obtain ⟨hopa, _⟩ := rowNamed_iff.mp ha
  obtain ⟨hopb, _⟩ := rowNamed_iff.mp hb
  exact rowOpcode_injective (hopa.symm.trans hopb)

/-- Settles O3: the opcodes of the rows are distinct. -/
theorem rowsAreDisjoint : Obligations.RowsAreDisjoint := fun _ _ _ => rowNamed_unique

theorem rowOf_eq_some_iff {w : Word} {r : Row} : rowOf w = some r ↔ rowNamed w r = true := by
  refine ⟨rowOf_some, fun h => ?_⟩
  cases hw : rowOf w with
  | none => rw [rowOf_none hw] at h; cases h
  | some r' => rw [rowNamed_unique (rowOf_some hw) h]

/-! ### The word of a row with given fields -/

/-- The word of a row with the fields of `w` that the row defines, and zeros elsewhere. -/
def rowWord (r : Row) (w : Word) : Word :=
  wordOf (rowOpcode r) (if r ∈ idRows then idField w else 0) ((w.extractLsb' 0 (auxWidth r)).zeroExtend 16)

/-- A field of 16 bits that is zero from bit `n` on is its low `n` bits. -/
theorem zeroExtend_extract_low (x : BitVec 16) {n : Nat} (h : x.extractLsb' n (16 - n) = 0) :
    (x.extractLsb' 0 n).zeroExtend 16 = x := by
  apply BitVec.eq_of_getLsbD_eq
  intro j hj
  by_cases hn : j < n
  · simp [hj, hn]
  · have hb := congrArg (BitVec.getLsbD · (j - n)) h
    have hlt : j - n < 16 - n := by omega
    have hadd : n + (j - n) = j := by omega
    simp only [BitVec.getLsbD_extractLsb', hlt, hadd, decide_true, Bool.true_and] at hb
    simp [hn, hb]

/-- A word that names a row has no bit but those the row defines. -/
theorem rowWord_of_rowNamed {w : Word} {r : Row} (h : rowNamed w r = true) : rowWord r w = w := by
  obtain ⟨hop, hid, haux⟩ := rowNamed_iff.mp h
  have hle := auxWidth_le r
  rw [← extract_aux w _ _ (by omega)] at haux
  conv_rhs => rw [← wordOf_parts w]
  rw [rowWord, wordOf_inj, ← extract_aux w 0 (auxWidth r) (by omega)]
  refine ⟨hop.symm, ?_, zeroExtend_extract_low _ haux⟩
  split
  · rfl
  · rename_i hr
    exact (hid hr).symm

theorem extract_wordOf_zeroExtend (opcode id : BitVec 8) {n : Nat} (x : BitVec n) (h : n ≤ 16) :
    (wordOf opcode id (x.zeroExtend 16)).extractLsb' 0 n = x := by
  rw [← extract_aux _ _ _ (by omega), aux_wordOf, extract_zeroExtend_low x h]

theorem sepEnField_eq (w : Word) : sepEnField w = (w.extractLsb' 0 2).getLsbD 0 := by
  simp [sepEnField]

theorem dmeasField_eq (w : Word) : dmeasField w = (w.extractLsb' 0 2).getLsbD 1 := by
  simp [dmeasField]

/-- The two flags of `WRP` read from a word and put together again. -/
theorem flags_eq (w : Word) :
    BitVec.ofBool (dmeasField w) ++ BitVec.ofBool (sepEnField w) = w.extractLsb' 0 2 := by
  have h : ∀ x : BitVec 2, BitVec.ofBool (x.getLsbD 1) ++ BitVec.ofBool (x.getLsbD 0) = x := by decide
  rw [dmeasField_eq, sepEnField_eq, h]

theorem rowNamed_encodeWord (i : Instr) : rowNamed (encodeWord i) i.row = true := by
  cases i with
  | rxf => exact Laws.RowWord.rxf ..
  | dec => exact Laws.RowWord.dec ..
  | enc => exact Laws.RowWord.enc ..
  | pack => exact Laws.RowWord.pack ..
  | pid => exact Laws.RowWord.pid ..
  | prst => exact Laws.RowWord.prst ..
  | rdt => exact Laws.RowWord.rdt ..
  | wrc => exact Laws.RowWord.wrc ..
  | rdc => exact Laws.RowWord.rdc ..
  | wrp => exact Laws.RowWord.wrp ..
  | wrk => exact Laws.RowWord.wrk ..
  | rdf => exact Laws.RowWord.rdf

/-! ### Decoding what was encoded -/

/-- All that decoding an operation takes: its row, and its row's block. -/
theorem decode_eq_ok_iff {g : Nat} {c : Command} {i : Instr} :
    decode g c = .ok i ↔ ∃ r, rowOf c.word = some r ∧ build g r c.word c.operands = some i := by
  unfold decode
  split
  · rename_i h
    simp [h]
  · rename_i r h
    split <;> rename_i hb <;> simp [h, hb]

/-- The fields of the encoder's word and its operand block build the operation. -/
theorem build_encode {g : Nat} {i : Instr} (h : i.wellFormed g = true) :
    build g i.row (encodeWord i) (encodeOperands i) = some i := by
  cases i with
  | rxf fid p =>
    have hfid : fidField (encodeWord (.rxf fid p)) = fid := extract_wordOf_zeroExtend _ _ fid (by decide)
    simp only [Instr.row, build, encodeOperands, buildRxf, payloadOf_toList, hfid, Option.map_some]
  | dec p => exact congrArg (Option.map Instr.dec) (payloadOf_toList p)
  | pack slot f high low =>
    have hslot : slotField (encodeWord (.pack slot f high low)) = slot :=
      extract_wordOf_zeroExtend _ _ slot (by decide)
    simp only [Instr.row, build, encodeOperands, buildPack, payloadOf_toList, hslot, Option.map_some]
  | enc id | pid id | prst id | rdt id | wrc id | rdc id =>
    have hid (opcode : BitVec 8) : idField (wordOf opcode id 0) = id := idField_wordOf opcode id 0
    simp only [Instr.row, build, encodeWord, encodeOperands, buildEnc, buildPid, buildPrst, buildRdt, buildWrc,
      buildRdc, hid]
  | wrp id sepEn dmeas kp ki kd integralLimit outputLimit sepThreshold =>
    simp only [Instr.row, build, encodeWord, encodeOperands, buildWrp, idField_wordOf, sepEnField_eq, dmeasField_eq,
      extract_wordOf_zeroExtend _ _ (BitVec.ofBool dmeas ++ BitVec.ofBool sepEn) (by decide)]
    cases sepEn <;> cases dmeas <;> rfl
  | wrk rawFs base ids iFs angleNum angleDen =>
    have hraw : rawFsField (encodeWord (.wrk rawFs base ids iFs angleNum angleDen)) = rawFs :=
      extract_wordOf_zeroExtend _ _ rawFs (by decide)
    obtain rfl : ids.length = g := by simpa [Instr.wellFormed] using h
    simp only [Instr.row, build, encodeOperands, List.cons_append, buildWrk, u11Of_toNat, takeU11_append,
      buildWrkConstants, hraw]
  | rdf => rfl

theorem decode_encode {g : Nat} {i : Instr} (h : i.wellFormed g = true) : decode g (encode i) = .ok i :=
  decode_eq_ok_iff.mpr ⟨i.row, rowOf_eq_some_iff.mpr (rowNamed_encodeWord i), build_encode h⟩

/-- Settles O1: the encoder's word names the operation's row, whose fields and block build the operation. -/
theorem decodeOfEncode : Obligations.DecodeOfEncode := fun _ _ => decode_encode

/-! ### Encoding what was decoded -/

/-- All that `WRK` can be built from: a base, one identifier for each group, and the three constants. -/
theorem buildWrk_some {g : Nat} {w : Word} {block : List Operand} {i : Instr} (h : buildWrk g w block = some i) :
    ∃ base ids iFs angleNum angleDen, ids.length = g ∧ i = .wrk (rawFsField w) base ids iFs angleNum angleDen ∧
      block = encodeOperands i := by
  unfold buildWrk at h
  split at h
  · split at h
    · rename_i base ids rest hbase htake
      obtain ⟨hlen, rfl⟩ := takeU11_some _ _ _ _ htake
      unfold buildWrkConstants at h
      split at h
      · cases h
        exact ⟨base, ids, _, _, _, hlen, rfl, by rw [← u11Of_some hbase]; rfl⟩
      · cases h
    · cases h
  · cases h

/-- What a row builds from a word and a block is an operation of the build, and is encoded in that block and in the
word's fields. -/
theorem encode_of_build {g : Nat} {r : Row} {w : Word} {block : List Operand} {i : Instr}
    (h : build g r w block = some i) :
    i.wellFormed g = true ∧ encode i = ⟨rowWord r w, block⟩ := by
  have hword (opcode id : BitVec 8) : wordOf opcode id ((w.extractLsb' 0 0).zeroExtend 16) = wordOf opcode id 0 := by
    rw [BitVec.of_length_zero (x := w.extractLsb' 0 0)]
    rfl
  cases r with
  | rxf =>
    simp only [build, buildRxf] at h
    split at h
    · obtain ⟨p, hp, rfl⟩ := Option.map_eq_some_iff.mp h
      exact ⟨rfl, by rw [← payloadOf_some hp]; rfl⟩
    · cases h
  | dec =>
    simp only [build, buildDec] at h
    split at h
    · obtain ⟨p, hp, rfl⟩ := Option.map_eq_some_iff.mp h
      exact ⟨rfl, by rw [← payloadOf_some hp]; exact congrArg (Command.mk · _) (hword _ _).symm⟩
    · cases h
  | pack =>
    simp only [build, buildPack] at h
    split at h
    · obtain ⟨f, hf, rfl⟩ := Option.map_eq_some_iff.mp h
      exact ⟨rfl, by rw [← payloadOf_some hf]; rfl⟩
    · cases h
  | enc | pid | prst | rdt | wrc | rdc | rdf =>
    simp only [build, buildEnc, buildPid, buildPrst, buildRdt, buildWrc, buildRdc, buildRdf] at h
    split at h
    · cases h
      exact ⟨rfl, congrArg (Command.mk · _) (hword _ _).symm⟩
    · cases h
  | wrp =>
    simp only [build, buildWrp] at h
    split at h
    · cases h
      exact ⟨rfl, by rw [encode, encodeWord, flags_eq]; rfl⟩
    · cases h
  | wrk =>
    obtain ⟨base, ids, iFs, angleNum, angleDen, hlen, rfl, rfl⟩ := buildWrk_some h
    exact ⟨by simpa [Instr.wellFormed] using hlen, rfl⟩

/-- Settles O2: the command is its row's word and block, and a word that names a row has no bit beyond its row's fields. -/
theorem encodeOfDecode : Obligations.EncodeOfDecode := by
  intro g c i h
  obtain ⟨r, hr, hb⟩ := decode_eq_ok_iff.mp h
  have he := encode_of_build hb
  rwa [rowWord_of_rowNamed (rowOf_some hr)] at he

/-- Settles O5: each word, with its block of zeros, evaluated. -/
theorem decodedWordsOfTheTable : Obligations.DecodedWordsOfTheTable := by
  unfold Obligations.DecodedWordsOfTheTable
  decide

end Sys2Proof
end
section
/-! SUPPORT. Which cause an operation raises (60_exceptions.md R165 to R167, 30_encoding.md R81): the checks of a meaning
stand in the order of the codes, so one relation between a list of causes and an outcome is passed on, check by check. -/

namespace Sys2Proof.Machine

variable {N : Nat}

/-- The outcome is fault entry with the first cause of the list whose condition holds; where none holds it is a next
state with FAULT as it was and a response that is OK or IGNORED. -/
structure RaisesFirst (s : State N) (holds : Cause → Bool) (l : List Cause) (out : Result N) : Prop where
  raised : ∀ c, l.find? holds = some c → out = .next (raiseFault c s)
  passed : l.find? holds = none → ∃ t, out = .next t ∧ t.fault = s.fault ∧
    (responseAt s.port t.rsp = some .ignored ∨ ∃ r, responseAt s.port t.rsp = some (.ok r))

section checks
variable {s t : State N} {holds : Cause → Bool} {c : Cause} {l : List Cause} {go out : Result N}

/-- A cause whose condition holds comes before those after it. -/
theorem raisesFirst_here (h : holds c = true) : RaisesFirst s holds (c :: l) (.next (raiseFault c s)) := by
  constructor
  · intro c' hc
    rw [List.find?_cons_of_pos h] at hc
    rw [Option.some.inj hc]
  · intro hn
    rw [List.find?_cons_of_pos h] at hn
    cases hn

/-- A cause whose condition does not hold is passed over. -/
theorem raisesFirst_skip (h : holds c = false) (hl : RaisesFirst s holds l out) : RaisesFirst s holds (c :: l) out := by
  have hfind : (c :: l).find? holds = l.find? holds := List.find?_cons_of_neg (by simp [h])
  exact ⟨hfind ▸ hl.raised, hfind ▸ hl.passed⟩

/-- With no condition left that holds, the outcome is that of no cause. -/
theorem raisesFirst_rest (h : l.any holds = false) (hout : RaisesFirst s holds [] out) :
    RaisesFirst s holds l out := by
  have hfind : l.find? holds = none := by simpa using h
  refine ⟨fun c hc => ?_, fun _ => hout.passed rfl⟩
  rw [hfind] at hc
  cases hc

theorem raisesFirst_accept (hh : s.fault.halt = false) {legal : List Port}
    (hc : holds .illegalOp = !legal.contains s.port) (hgo : RaisesFirst s holds l go) :
    RaisesFirst s holds (.illegalOp :: l) (accept legal s go) := by
  cases hp : legal.contains s.port with
  | true => exact accept_legal hh hp ▸ raisesFirst_skip (by rw [hc, hp]; rfl) hgo
  | false => exact accept_wrongPort hh hp ▸ raisesFirst_here (by rw [hc, hp]; rfl)

theorem raisesFirst_require {ok : Bool} (hc : holds c = !ok) (hgo : RaisesFirst s holds l go) :
    RaisesFirst s holds (c :: l) (require ok c s go) := by
  cases ok with
  | true => exact raisesFirst_skip hc hgo
  | false => exact raisesFirst_here hc

theorem raisesFirst_withSlot {id : BitVec 8} (hc : holds .badId = (id.toNat == 0 || decide (N < id.toNat)))
    {go : Fin N → Result N} (hgo : ∀ k, slotOf id = some k → RaisesFirst s holds l (go k)) :
    RaisesFirst s holds (.badId :: l) (withSlot id s go) := by
  cases hk : (slotOf id : Option (Fin N)) with
  | none =>
    have hid := slotOf_eq_none.mp hk
    exact withSlot_none hk ▸ raisesFirst_here (by rw [hc]; simpa using hid)
  | some k =>
    have hid : ¬(id.toNat = 0 ∨ N < id.toNat) := fun h => by rw [slotOf_eq_none.mpr h] at hk; cases hk
    exact withSlot_some hk ▸ raisesFirst_skip (by rw [hc]; simpa using hid) (hgo k hk)

/-- The end of an operation that no condition held for: the answer OK. -/
theorem raisesFirst_answer (h : l.any holds = false) (r : Results) (hf : t.fault = s.fault) (hp : t.port = s.port) :
    RaisesFirst s holds l (answer r t) :=
  raisesFirst_rest h ⟨nofun, fun _ => ⟨_, rfl, hf, .inr ⟨r, by rw [← hp]; exact responseAt_respond ..⟩⟩⟩

theorem raisesFirst_ignored (h : l.any holds = false) : RaisesFirst s holds l (.next (respond .ignored s)) :=
  raisesFirst_rest h ⟨nofun, fun _ => ⟨_, rfl, rfl, .inl (responseAt_respond ..)⟩⟩

end checks

/-! ### The twelve operations -/

section operations
variable {s : State N} (hh : s.fault.halt = false)
include hh

theorem execRxf_raisesFirst (fid : BitVec 11) (p : Payload) :
    RaisesFirst s (violates s (.rxf fid p)) causes (execRxf fid p s) := by
  refine raisesFirst_accept hh rfl ?_
  split
  · split
    · exact raisesFirst_answer rfl _ rfl rfl
    · exact raisesFirst_ignored rfl
  · exact raisesFirst_ignored rfl

theorem execDec_raisesFirst (p : Payload) : RaisesFirst s (violates s (.dec p)) causes (execDec p s) :=
  raisesFirst_accept hh rfl <| raisesFirst_skip rfl <| raisesFirst_require rfl <| raisesFirst_answer rfl _ rfl rfl

theorem execEnc_raisesFirst (id : BitVec 8) (demand : Num32) :
    RaisesFirst s (violates s (.enc id demand)) causes (execEnc id demand s) :=
  raisesFirst_accept hh rfl <| raisesFirst_withSlot rfl fun _ _ => raisesFirst_require rfl <| raisesFirst_skip rfl <|
    raisesFirst_require (Bool.not_not _).symm <| raisesFirst_answer rfl _ rfl rfl

theorem execPack_raisesFirst (slot : BitVec 2) (f : Payload) (high low : Byte) :
    RaisesFirst s (violates s (.pack slot f high low)) causes (execPack slot f high low s) :=
  raisesFirst_accept hh rfl <| raisesFirst_answer rfl _ rfl rfl

theorem execPid_raisesFirst (id : BitVec 8) (reference feedback dt : Num32) :
    RaisesFirst s (violates s (.pid id reference feedback dt)) causes (execPid id reference feedback dt s) :=
  raisesFirst_accept hh rfl <| raisesFirst_withSlot rfl fun _ hk => raisesFirst_skip rfl <|
    raisesFirst_require (by simp [violates, hk]) <| raisesFirst_require (Bool.not_not _).symm <|
    raisesFirst_require (Bool.not_not _).symm <| raisesFirst_skip rfl <|
    raisesFirst_require (by simp [violates, hk]) <| raisesFirst_answer rfl _ rfl rfl

theorem execPrst_raisesFirst (id : BitVec 8) : RaisesFirst s (violates s (.prst id)) causes (execPrst id s) :=
  raisesFirst_accept hh rfl <| raisesFirst_withSlot rfl fun _ _ => raisesFirst_answer rfl _ rfl rfl

theorem execRdt_raisesFirst (id : BitVec 8) : RaisesFirst s (violates s (.rdt id)) causes (execRdt id s) :=
  raisesFirst_accept hh rfl <| raisesFirst_withSlot rfl fun _ _ => raisesFirst_answer rfl _ rfl rfl

theorem execWrc_raisesFirst (id : BitVec 8) (demand : Num32) :
    RaisesFirst s (violates s (.wrc id demand)) causes (execWrc id demand s) :=
  raisesFirst_accept hh rfl <| raisesFirst_withSlot rfl fun _ _ => raisesFirst_require rfl <| raisesFirst_skip rfl <|
    raisesFirst_require (Bool.not_not _).symm <| raisesFirst_answer rfl _ rfl rfl

theorem execRdc_raisesFirst (id : BitVec 8) : RaisesFirst s (violates s (.rdc id)) causes (execRdc id s) :=
  raisesFirst_accept hh rfl <| raisesFirst_withSlot rfl fun _ _ => raisesFirst_answer rfl _ rfl rfl

theorem execWrp_raisesFirst (id : BitVec 8) (sepEn dmeas : Bool)
    (kp ki kd integralLimit outputLimit sepThreshold : Num32) :
    RaisesFirst s (violates s (.wrp id sepEn dmeas kp ki kd integralLimit outputLimit sepThreshold)) causes
      (execWrp id sepEn dmeas kp ki kd integralLimit outputLimit sepThreshold s) :=
  raisesFirst_accept hh rfl <| raisesFirst_withSlot rfl fun _ _ => raisesFirst_skip rfl <| raisesFirst_skip rfl <|
    raisesFirst_require (Bool.not_not _).symm <| raisesFirst_answer rfl _ rfl rfl

theorem execWrk_raisesFirst (rawFs : BitVec 15) (base : BitVec 11) (ids : List (BitVec 11))
    (iFs angleNum angleDen : Num32) :
    RaisesFirst s (violates s (.wrk rawFs base ids iFs angleNum angleDen)) causes
      (execWrk rawFs base ids iFs angleNum angleDen s) :=
  raisesFirst_accept hh rfl <| raisesFirst_skip rfl <| raisesFirst_skip rfl <| raisesFirst_skip rfl <|
    raisesFirst_require (Bool.not_not _).symm <| raisesFirst_skip rfl <| raisesFirst_require rfl <|
    raisesFirst_answer rfl _ rfl rfl

/-- An operation of any build raises the first cause whose condition holds. -/
theorem execOf_raisesFirst (i : Instr) : RaisesFirst s (violates s i) causes (execOf i s) := by
  cases i with
  | rxf fid p => exact execRxf_raisesFirst hh fid p
  | dec p => exact execDec_raisesFirst hh p
  | enc id demand => exact execEnc_raisesFirst hh id demand
  | pack slot f high low => exact execPack_raisesFirst hh slot f high low
  | pid id reference feedback dt => exact execPid_raisesFirst hh id reference feedback dt
  | prst id => exact execPrst_raisesFirst hh id
  | rdt id => exact execRdt_raisesFirst hh id
  | wrc id demand => exact execWrc_raisesFirst hh id demand
  | rdc id => exact execRdc_raisesFirst hh id
  | wrp id sepEn dmeas kp ki kd integralLimit outputLimit sepThreshold =>
    exact execWrp_raisesFirst hh id sepEn dmeas kp ki kd integralLimit outputLimit sepThreshold
  | wrk rawFs base ids iFs angleNum angleDen => exact execWrk_raisesFirst hh rawFs base ids iFs angleNum angleDen
  | rdf =>
    have hport : violates s .rdf .illegalOp = false := by
      cases hq : s.port <;> simp [violates, legalPorts, Instr.row, hq]
    exact raisesFirst_skip hport (raisesFirst_answer rfl _ rfl rfl)

end operations

theorem exec_raisesFirst {s : State} (hh : s.fault.halt = false) (i : Instr) :
    RaisesFirst s (violates s i) causes (exec i s) :=
  exec_eq_execOf i s ▸ execOf_raisesFirst hh i

/-- Settles O14: the checks of every meaning stand in the order of the codes. -/
theorem lowestCauseIsRaised : Obligations.LowestCauseIsRaised := by
  intro s i hh
  have h := exec_raisesFirst hh i
  split
  · rename_i c hc
    exact h.raised c hc
  · rename_i hn
    exact h.passed hn

end Sys2Proof.Machine
end
section
/-! SUPPORT. Illegal words, wrong ports and ids out of range (30_encoding.md R82). -/

namespace Sys2Proof

/-- The words that 30_encoding.md R82 lists as illegal. -/
def IllegalWord (w : Word) : Prop :=
  (w.extractLsb' 24 8 ∉ [0x01#8, 0x10#8, 0x11#8, 0x12#8, 0x20#8, 0x21#8, 0x30#8, 0x31#8, 0x32#8, 0x40#8, 0x41#8, 0x50#8]) ∨
  (w.extractLsb' 24 8 ∈ [0x01#8, 0x10#8, 0x12#8, 0x41#8, 0x50#8] ∧ w.extractLsb' 16 8 ≠ 0) ∨
  (w.extractLsb' 24 8 = 0x01#8 ∧ w.extractLsb' 11 5 ≠ 0) ∨
  (w.extractLsb' 24 8 ∈ [0x12#8, 0x40#8] ∧ w.extractLsb' 2 14 ≠ 0) ∨
  (w.extractLsb' 24 8 = 0x41#8 ∧ w.extractLsb' 15 1 ≠ 0) ∨
  (w.extractLsb' 24 8 ∈ [0x10#8, 0x11#8, 0x20#8, 0x21#8, 0x30#8, 0x31#8, 0x32#8, 0x50#8] ∧ w.extractLsb' 0 16 ≠ 0)

theorem illegalWord_of_opcode {w : Word} (h : ∀ r, w.extractLsb' 24 8 ≠ rowOpcode r) : IllegalWord w :=
  .inl fun hmem =>
    have ⟨r, _, hr⟩ := List.mem_map.mp (show w.extractLsb' 24 8 ∈ rows.map rowOpcode from hmem)
    h r hr.symm

/-- With the opcode of a row, R82 asks of `id` and `aux` just what the row does. -/
theorem illegalWord_iff_of_opcode {w : Word} {r : Row} (h : w.extractLsb' 24 8 = rowOpcode r) :
    IllegalWord w ↔ rowNamed w r ≠ true := by
  rw [ne_eq, rowNamed_iff, IllegalWord, h]
  cases r <;> simp [rowOpcode, rowMatch, idRows, auxWidth, idField, imp_iff_not_or]

theorem rowOf_eq_none_iff {w : Word} : rowOf w = none ↔ ∀ r, rowNamed w r ≠ true := by
  rw [rowOf, List.find?_eq_none]
  exact ⟨fun h r => h r (mem_rows r), fun h r _ => h r⟩

/-- The words of no row are those that R82 lists. -/
theorem rowOf_eq_none_iff_illegalWord {w : Word} : rowOf w = none ↔ IllegalWord w := by
  have hop {r : Row} (h : rowNamed w r = true) : w.extractLsb' 24 8 = rowOpcode r :=
    have ⟨hop, _⟩ := rowNamed_iff.mp h
    hop
  rw [rowOf_eq_none_iff]
  by_cases hw : ∃ r, w.extractLsb' 24 8 = rowOpcode r
  · obtain ⟨r, hr⟩ := hw
    rw [illegalWord_iff_of_opcode hr]
    exact ⟨fun h => h r, fun h r' hr' => h (rowOpcode_injective (hr.symm.trans (hop hr')) ▸ hr')⟩
  · exact iff_of_true (fun r hr => hw ⟨r, hop hr⟩) (illegalWord_of_opcode fun r hr => hw ⟨r, hr⟩)

end Sys2Proof

namespace Sys2Proof.Machine

/-- An operation on a port where it is not legal raises ILLEGAL_OP, the first cause. -/
theorem exec_wrongPort {s : State} {i : Instr} (hh : s.fault.halt = false) (hp : s.port ∉ legalPorts i.row) :
    exec i s = .next (raiseFault .illegalOp s) :=
  (exec_raisesFirst hh i).raised _ (List.find?_cons_of_pos (by simpa [violates] using hp))

/-- On a legal port an `id` outside `1..N` raises BAD_ID, the second cause. -/
theorem exec_badId {s : State} {i : Instr} {id : BitVec 8} (hh : s.fault.halt = false)
    (hp : s.port ∈ legalPorts i.row) (hi : idOf i = some id) (hid : id.toNat = 0 ∨ Config.N < id.toNat) :
    exec i s = .next (raiseFault .badId s) := by
  refine (exec_raisesFirst hh i).raised _ ?_
  have hport : violates s i .illegalOp = false := by simpa [violates] using hp
  have hbad : violates s i .badId = true := by simpa [violates, hi] using hid
  rw [causes, List.find?_cons_of_neg (by simp [hport]), List.find?_cons_of_pos hbad]

theorem decode_noRow {g : Nat} {c : Command} (h : rowOf c.word = none) : decode g c = .error .noRow := by
  simp [decode, h]

/-- A word of no row raises ILLEGAL_OP on a block that is not halted. -/
theorem step_noRow {s : State} {q : Port} {c : Command} {rest : List Event} (hs : s.inbox = .request q c :: rest)
    (hh : s.fault.halt = false) (hr : rowOf c.word = none) :
    step s = .next (raiseFault .illegalOp (latch q c { s with inbox := rest })) := by
  rw [step_request hs, decode_noRow hr]
  exact if_neg (by simp [hh])

/-- Settles O4: R82's list is what the rows' opcodes and undefined bits leave out; a wrong port and an `id` out of range
are the first two causes; a request that can be presented is answered. -/
theorem illegalEncodings : Obligations.IllegalEncodings :=
  ⟨fun _ => rowOf_eq_none_iff_illegalWord, fun _ _ _ _ => step_noRow, fun _ _ => exec_wrongPort,
    fun _ _ _ => exec_badId, fun _ _ _ _ hs hc =>
      have ⟨t, _, ht, _⟩ := step_presentable hs hc
      ⟨t, ht⟩⟩

end Sys2Proof.Machine
end
section
/-! SUPPORT. The pseudo-operations served without a gap (30_encoding.md R90, R91): one operation of an expansion is `exec`
of it at the latched state, and an operation that leaves the block running passed all its checks. -/

namespace Sys2Proof.Machine
open Sys2Proof.F32

/-! ### Serving one operation of an expansion -/

/-- The block serves the operation on port `q`, ends in `t` and answers `r`. -/
def Served (q : Port) (i : Instr) (s t : State) (r : Response) : Prop :=
  exec i (latch q (encode i) s) = .next t ∧ responseAt q t.rsp = some r

theorem exists_served (q : Port) (i : Instr) (s : State) : ∃ t r, Served q i s t r := by
  obtain ⟨t, r, ht, _, hrsp⟩ := exec_answers i (latch q (encode i) s)
  exact ⟨t, r, ht, hrsp ▸ responseAt_putResponse ..⟩

theorem serveNow_encode {q : Port} {i : Instr} (s : State) (hi : i.wellFormed Config.G = true) :
    serveNow (.request q (encode i)) s = exec i (latch q (encode i) s) := by
  rw [serveNow, step_request rfl, decode_encode hi]

/-- With no event of another agent before it, the next operation of a script is served at once. -/
theorem runScript_served {q : Port} {next : List Response → Option Instr} {gaps : List (List Event)}
    {rs : List Response} {s t : State} {i : Instr} {r : Response} (hn : next rs = some i)
    (hi : i.wellFormed Config.G = true) (h : Served q i s t r) :
    runScript q next ([] :: gaps) rs s = runScript q next gaps (rs ++ [r]) t := by
  obtain ⟨ht, hr⟩ := h
  simp only [runScript, serveAll, hn, serveNow_encode s hi, ht, hr]

/-! ### Operations that leave the block running -/

section running
variable {N : Nat} {s t : State N}

theorem accept_running {legal : List Port} {go : Result N} (h : accept legal s go = .next t)
    (ht : t.fault.halt = false) : go = .next t := by
  rcases accept_next h with ⟨hh, rfl⟩ | ⟨_, _, rfl⟩ | ⟨_, _, hgo⟩
  · rw [respond_fault, hh] at ht
    cases ht
  · cases ht
  · exact hgo

theorem require_running {ok : Bool} {c : Cause} {go : Result N} (h : require ok c s go = .next t)
    (ht : t.fault.halt = false) : go = .next t := by
  rcases require_next h with ⟨_, rfl⟩ | ⟨_, hgo⟩
  · cases ht
  · exact hgo

theorem withSlot_running {id : BitVec 8} {k : Fin N} {go : Fin N → Result N} (hk : slotOf id = some k)
    (h : withSlot id s go = .next t) : go k = .next t := by rwa [withSlot_some hk] at h

end running

section served
variable {q : Port} {s t : State} {r : Response}

/-- A block that an operation leaves running was running before it. -/
theorem Served.running {i : Instr} (h : Served q i s t r) (ht : t.fault.halt = false) : s.fault.halt = false := by
  obtain ⟨ht', _⟩ := h
  have hf : t.fault = s.fault := (exec_effect ht').fault_eq ht
  rwa [hf] at ht

/-- The response of an operation is the one that its meaning gives. -/
theorem Served.response_eq {i : Instr} {u : State} {r' : Response} (h : Served q i s t r)
    (ht : t = respond r' u) (hu : u.port = q) : r = r' := by
  obtain ⟨_, hr⟩ := h
  rw [ht, respond_rsp, hu, responseAt_putResponse] at hr
  exact (Option.some.inj hr).symm

variable {id : BitVec 8} {k : Fin Config.N} (hk : slotOf id = some k) (ht : t.fault.halt = false)
include hk ht

theorem Served.rdt (h : Served q (.rdt id) s t r) : r = .ok (.telemetry s.tel[k]) ∧ SameRecords s t := by
  have he := answer_next (withSlot_running hk (accept_running h.1 ht))
  exact ⟨h.response_eq he rfl, by rw [he]; exact ⟨rfl, rfl, rfl, rfl, rfl, rfl⟩⟩

theorem Served.pid {reference feedback dt : Num32} (h : Served q (.pid id reference feedback dt) s t r) :
    r = .ok (.output (pidTick s.pcf[k] s.pst[k] reference feedback dt).2) ∧
      t.pst[k] = (pidTick s.pcf[k] s.pst[k] reference feedback dt).1 ∧ t.codec = s.codec := by
  have he := answer_next <| require_running (require_running (require_running (require_running
    (withSlot_running hk (accept_running h.1 ht)) ht) ht) ht) ht
  exact ⟨h.response_eq he rfl, by rw [he]; exact get_set_same .., by rw [he]; rfl⟩

theorem Served.wrc {demand : Num32} (h : Served q (.wrc id demand) s t r) :
    r = .ok (.stored (clampDemand demand s.codec)) ∧ t.cmd[k].demand = clampDemand demand s.codec ∧
      t.pst = s.pst ∧ t.codec = s.codec := by
  have he := answer_next <| require_running (require_running (withSlot_running hk (accept_running h.1 ht)) ht) ht
  exact ⟨h.response_eq he rfl, by rw [he]; exact congrArg Cmd.demand (get_set_same ..), by rw [he]; rfl,
    by rw [he]; rfl⟩

theorem Served.enc {demand : Num32} (h : Served q (.enc id demand) s t r) :
    r = .ok (encodeResults k demand s.codec) ∧ SameRecords s t := by
  have he := answer_next <| require_running (require_running (withSlot_running hk (accept_running h.1 ht)) ht) ht
  exact ⟨h.response_eq he rfl, by rw [he]; exact ⟨rfl, rfl, rfl, rfl, rfl, rfl⟩⟩

end served

/-! ### TICK -/

section tick
variable (id : BitVec 8) (reference : Num32) (sel : Selector) (dt other : Num32)

/-- The second operation of `TICK` takes its feedback from the telemetry of the first. -/
theorem tickNext_pid (r : Response) : ∃ fb, tickNext id reference sel dt other [r] = some (.pid id reference fb dt) ∧
    ∀ tel, r = .ok (.telemetry tel) → fb = feedbackOf sel tel :=
  ⟨_, rfl, fun _ h => h ▸ rfl⟩

/-- The third takes its demand from the output of the second. -/
theorem tickNext_wrc (r₁ r : Response) : ∃ u, tickNext id reference sel dt other [r₁, r] = some (.wrc id u) ∧
    ∀ v, r = .ok (.output v) → u = v :=
  ⟨_, rfl, fun _ h => h ▸ rfl⟩

/-- The fourth encodes what the third has stored. -/
theorem tickNext_enc (r₁ r₂ r : Response) :
    ∃ c, tickNext id reference sel dt other [r₁, r₂, r] = some (.enc id c) ∧ ∀ v, r = .ok (.stored v) → c = v :=
  ⟨_, rfl, fun _ h => h ▸ rfl⟩

end tick

/-- Settles O56: each of the four operations is served and answers; where the last leaves the block running, all four
passed their checks, and each hands its value to the next. -/
theorem tickEncodesWhatItStores : Obligations.TickEncodesWhatItStores := by
  intro s id k reference dt other sel _ hid _ _
  have hk : slotOf id = some k := slotOf_eq_some.mpr hid
  obtain ⟨s₁, r₁, h₁⟩ := exists_served .ctl (.rdt id) s
  obtain ⟨fb, hn₂, hfb⟩ := tickNext_pid id reference sel dt other r₁
  obtain ⟨s₂, r₂, h₂⟩ := exists_served .ctl (.pid id reference fb dt) s₁
  obtain ⟨u, hn₃, hu⟩ := tickNext_wrc id reference sel dt other r₁ r₂
  obtain ⟨s₃, r₃, h₃⟩ := exists_served .ctl (.wrc id u) s₂
  obtain ⟨c, hn₄, hc⟩ := tickNext_enc id reference sel dt other r₁ r₂ r₃
  obtain ⟨s₄, r₄, h₄⟩ := exists_served .ctl (.enc id c) s₃
  refine ⟨s₄, [r₁, r₂, r₃, r₄], ?_, rfl, fun hrun₄ => ?_⟩
  · exact (runScript_served rfl rfl h₁).trans <| (runScript_served hn₂ rfl h₂).trans <|
      (runScript_served hn₃ rfl h₃).trans (runScript_served hn₄ rfl h₄)
  · have hrun₃ := h₄.running hrun₄
    have hrun₂ := h₃.running hrun₃
    obtain ⟨hr₁, _, _, hpst₁, hpcf₁, hcodec₁, _⟩ := h₁.rdt hk (h₂.running hrun₂)
    obtain rfl := hfb _ hr₁
    obtain ⟨hr₂, hpst₂, hcodec₂⟩ := h₂.pid hk hrun₂
    rw [hpcf₁, hpst₁] at hr₂ hpst₂
    obtain rfl := hu _ hr₂
    obtain ⟨hr₃, hcmd₃, hpst₃, hcodec₃⟩ := h₃.wrc hk hrun₃
    rw [hcodec₂, hcodec₁] at hr₃ hcmd₃
    obtain rfl := hc _ hr₃
    obtain ⟨hr₄, _, hcmd₄, hpst₄, _⟩ := h₄.enc hk hrun₄
    rw [hcodec₃, hcodec₂, hcodec₁] at hr₄
    have hdemand : s₄.cmd[k].demand = _ := (congrArg (·[k].demand) hcmd₄).trans hcmd₃
    refine ⟨_, ?_, ?_, hdemand⟩
    · rw [hdemand, hr₁, hr₂, hr₃, hr₄]
    · rw [hpst₄, hpst₃, hpst₂]

/-! ### ENCP -/

theorem SameRecords.trans {N : Nat} {s t u : State N} (h : SameRecords s t) (h' : SameRecords t u) :
    SameRecords s u :=
  have ⟨htel, hcmd, hpst, hpcf, hcodec, hfault⟩ := h
  have ⟨htel', hcmd', hpst', hpcf', hcodec', hfault'⟩ := h'
  ⟨htel'.trans htel, hcmd'.trans hcmd, hpst'.trans hpst, hpcf'.trans hpcf, hcodec'.trans hcodec,
    hfault'.trans hfault⟩

/-- An operation whose outcome is a response alone is served with that response and changes no record. -/
theorem served_of_respond {q : Port} {i : Instr} {s : State} {r : Response}
    (h : exec i (latch q (encode i) s) = .next (respond r (latch q (encode i) s))) :
    ∃ t, Served q i s t r ∧ SameRecords s t :=
  ⟨_, ⟨h, responseAt_putResponse ..⟩, rfl, rfl, rfl, rfl, rfl, rfl⟩

/-- The outcome of an `ENC` that passes its checks. -/
theorem execEnc_answered {N : Nat} {s : State N} {id : BitVec 8} {demand : Num32} {k : Fin N}
    (hh : s.fault.halt = false) (hp : s.port = .ctl) (hk : slotOf id = some k) (hv : s.codec.valid = true)
    (hn : isNaN demand = false) :
    execEnc id demand s = .next (respond (.ok (encodeResults k demand s.codec)) s) := by
  rw [execEnc, accept_legal hh (by simp [hp]), withSlot_some hk, hv, require_true,
    not_anyNaN_iff.mpr (by simpa using hn), require_true]
  rfl

section encp
variable {s : State} (hh : s.fault.halt = false)
include hh

theorem served_enc {id : BitVec 8} {demand : Num32} {k : Fin Config.N} (hk : slotOf id = some k)
    (hv : s.codec.valid = true) (hn : isNaN demand = false) :
    ∃ t, Served .ctl (.enc id demand) s t (.ok (encodeResults k demand s.codec)) ∧ SameRecords s t :=
  served_of_respond (execEnc_answered hh rfl hk hv hn)

theorem served_pack (slot : BitVec 2) (f : Payload) (high low : Byte) :
    ∃ t, Served .ctl (.pack slot f high low) s t (.ok (.frame (packFrame slot f high low))) ∧ SameRecords s t :=
  served_of_respond (accept_legal hh rfl)

end encp

/-- The slot that `ENCP` asks `PACK` for is the actuator's own (40_codec.md R104). -/
theorem encp_slot_toNat {N : Nat} (k : Fin N) :
    2 * (BitVec.ofNat 2 ((BitVec.ofNat 3 (frameOffset k)).toNat / 2)).toNat = frameOffset k := by
  simp only [frameOffset, frameSlot, BitVec.toNat_ofNat]
  omega

/-- Settles O57: both operations pass their checks, and the slot packed is the actuator's own. -/
theorem encpPlacesTheEncodedBytes : Obligations.EncpPlacesTheEncodedBytes := by
  intro s id k demand f hh hid hv hn
  obtain ⟨t, henc, hst⟩ := served_enc hh (slotOf_eq_some.mpr hid) hv hn
  have hht : t.fault.halt = false := by
    obtain ⟨_, _, _, _, _, hfault⟩ := hst
    rwa [hfault]
  obtain ⟨u, hpack, htu⟩ := served_pack hht (BitVec.ofNat 2 ((BitVec.ofNat 3 (frameOffset k)).toNat / 2)) f
    (highByte (u16 (encodeRaw demand s.codec))) (lowByte (u16 (encodeRaw demand s.codec)))
  refine ⟨u, _, _, (runScript_served rfl rfl henc).trans (runScript_served rfl rfl hpack), hst.trans htu, rfl,
    fun i => ?_⟩
  refine (packFrame_get _ f _ _ i.val i.isLt).trans ?_
  rw [encp_slot_toNat]
  by_cases hi : i.val = frameOffset k
  · rw [if_neg (by omega), if_pos hi, if_pos hi]
  · rw [if_neg hi, if_neg hi]
    rfl

end Sys2Proof.Machine
end
section
/-! SUPPORT. The operations of the frame codec by their outcomes (40_codec.md R101 to R107, R111): what a passed `DEC`,
`ENC`, `PACK` or `RXF` answers and stores, with the fields of a payload read as 16-bit words. -/

namespace Sys2Proof.Machine
open Sys2Proof.F32

variable {N : Nat}

/-! ### Decoding with the fields as words -/

/-- The decoded record with its 16-bit fields as concatenations of bytes (40_codec.md R101). -/
theorem decodeTel_eq {G : Nat} (p : Payload) (c : Codec G) :
    decodeTel p c =
      { angle := div (mul (ofInt ((p[0] ++ p[1] : BitVec 16).toNat : Int)) c.angleNum) c.angleDen,
        velocity := p[2] ++ p[3],
        current := div (mul (ofInt (p[4] ++ p[5] : BitVec 16).toInt) c.iFs) (ofInt (c.rawFs.toNat : Int)),
        temperature := p[6] } := by
  simp only [decodeTel, decodeAngle, decodeCurrent, be16_eq, s16_toNat, u16_toInt]

/-- A response changes the state at its own port alone. -/
theorem respond_eq {s : State N} {q : Port} (hp : s.port = q) (r : Response) :
    respond r s = { s with rsp := putResponse q r s.rsp } := by
  subst hp
  rfl

/-! ### `RXF` and `DEC` -/

/-- The outcome of a `DEC` that passes its checks. -/
theorem execDec_answered {s : State N} (p : Payload) (hh : s.fault.halt = false) (hp : s.port = .ctl)
    (hv : s.codec.valid = true) :
    execDec p s = .next (respond (.ok (.telemetry (decodeTel p s.codec))) s) := by
  rw [execDec, accept_legal hh (by simp [hp]), hv, require_true]
  rfl

/-- On its own port a running block serves an `RXF` without a fault, whatever the identifier. -/
theorem execRxf_noFault {s : State N} (fid : BitVec 11) (p : Payload) (hh : s.fault.halt = false) (hp : s.port = .rx)
    (hv : s.codec.valid = true) : ∃ t, execRxf fid p s = .next t ∧ t.fault = s.fault := by
  cases hk : (rxSlotOf fid s.codec.baseRxId : Option (Fin N)) with
  | some k => exact ⟨_, execRxf_written p hh hp hv hk, rfl⟩
  | none => exact ⟨_, execRxf_ignored p hh hp (.inr hk), rfl⟩

/-- Settles O22: the identifier names slot `k`, so the record written is the decoded one. -/
theorem rxfStoresTheFrame : Obligations.RxfStoresTheFrame := by
  intro s fid p k hh hp hv hfid
  rw [← decodeTel_eq]
  exact (execRxf_written p hh hp hv (rxSlotOf_eq_some.mpr hfid)).trans
    (congrArg Host.Outcome.next (respond_eq (s := writeTel k _ s) hp _))

/-- Settles O25: the outcome is the answer alone. -/
theorem decAnswersTheFields : Obligations.DecAnswersTheFields := by
  intro s p hh hp hv
  rw [← decodeTel_eq]
  exact (execDec_answered p hh hp hv).trans (congrArg Host.Outcome.next (respond_eq hp _))

/-- Settles O26: a legal divisor is finite and not zero, and neither operation checks a decoded value. -/
theorem decodeIsTotal : Obligations.DecodeIsTotal :=
  ⟨fun _ p hv hc => legalTel_decodeTel hv hc p, fun _ p fid hh hv =>
    ⟨fun hp => ⟨_, execDec_answered p hh hp hv, rfl⟩, fun hp => execRxf_noFault fid p hh hp hv⟩⟩

/-! ### `ENC` -/

/-- The identifier of an actuator's group, read from the list of identifiers (40_codec.md R104). -/
theorem cmdFrameId_groupOf (ids : Vector (BitVec 11) (Config.groups N)) (k : Fin N) :
    ids[groupOf k] = ids.toList.getD (k.val / 4) 0 := by
  have hk : k.val / 4 < ids.toList.length := by
    rw [Vector.length_toList]
    exact (groupOf k).isLt
  rw [List.getD_eq_getElem _ _ hk, Vector.getElem_toList]
  rfl

/-- Settles O27: the two bytes are those of the encoded word, and the rest is the answer's own. -/
theorem encAnswersTheSlot : Obligations.EncAnswersTheSlot := by
  intro s id demand k hh hp hid hv hn
  refine ⟨_, _, highByte_append_lowByte _, ?_⟩
  rw [← cmdFrameId_groupOf]
  exact (execEnc_answered hh hp (slotOf_eq_some.mpr hid) hv hn).trans (congrArg Host.Outcome.next (respond_eq hp _))

/-- An `ENC` that answers OK answers the encoding for some slot: every failed check gives another response. -/
theorem execEnc_ok {s t : State N} {id : BitVec 8} {demand : Num32} {r : Results} (h : execEnc id demand s = .next t)
    (hr : responseAt s.port t.rsp = some (.ok r)) : ∃ k, r = encodeResults k demand s.codec := by
  rcases accept_next h with ⟨_, rfl⟩ | ⟨_, _, rfl⟩ | ⟨_, _, h⟩
  · simp at hr
  · simp at hr
  rcases withSlot_next h with ⟨_, rfl⟩ | ⟨k, _, h⟩
  · simp at hr
  rcases require_next h with ⟨_, rfl⟩ | ⟨_, h⟩
  · simp at hr
  rcases require_next h with ⟨_, rfl⟩ | ⟨_, h⟩
  · simp at hr
  obtain rfl := answer_next h
  rw [responseAt_respond, Option.some.injEq, Response.ok.injEq] at hr
  exact ⟨k, hr.symm⟩

/-! ### `PACK` -/

/-- Packing one slot twice keeps the later bytes. -/
theorem packFrame_packFrame_same (slot : BitVec 2) (f : Payload) (high low high' low' : Byte) :
    packFrame slot (packFrame slot f high low) high' low' = packFrame slot f high' low' := by
  ext i hi : 1
  simp only [packFrame_get]
  split
  · rfl
  · split <;> rfl

/-- The bytes of different slots are different bytes, so their packings commute. -/
theorem packFrame_comm {a b : BitVec 2} (h : a ≠ b) (f : Payload) (high low high' low' : Byte) :
    packFrame b (packFrame a f high low) high' low' = packFrame a (packFrame b f high' low') high low := by
  have hne : a.toNat ≠ b.toNat := fun e => h (BitVec.eq_of_toNat_eq e)
  ext i hi : 1
  simp only [packFrame_get]
  by_cases ha : i / 2 = a.toNat
  · have hb1 : i ≠ 2 * b.toNat + 1 := by omega
    have hb0 : i ≠ 2 * b.toNat := by omega
    simp only [if_neg hb1, if_neg hb0]
  · have ha1 : i ≠ 2 * a.toNat + 1 := by omega
    have ha0 : i ≠ 2 * a.toNat := by omega
    simp only [if_neg ha1, if_neg ha0]

/-- The slot field is the only part of the word that varies (30_encoding.md R71). -/
theorem toNat_encodeWord_pack (slot : BitVec 2) (f : Payload) (high low : Byte) :
    (encodeWord (.pack slot f high low)).toNat = 0x12000000 + slot.toNat := by
  have hword : ∀ slot : BitVec 2,
      (wordOf 0x12 0 (slot.zeroExtend 16)).toNat = 0x12000000 + slot.toNat := by decide
  exact hword slot

/-- Settles O30: `PACK` passes its port check or raises ILLEGAL_OP; the rest is about the frame alone. -/
theorem packWritesOneSlot : Obligations.PackWritesOneSlot := by
  refine ⟨toNat_encodeWord_pack,
    fun s slot f high low hh hp => exec_wrongPort hh fun hmem => hp (List.mem_singleton.mp hmem),
    fun s slot f high low hh hp => ⟨packFrame slot f high low, ?_, fun i => ?_⟩, packFrame_packFrame_same,
    fun a b f high low high' low' hab => packFrame_comm hab f high low high' low', by decide⟩
  · exact (accept_legal hh (by simp [hp])).trans (congrArg Host.Outcome.next (respond_eq hp _))
  · refine (packFrame_get slot f high low i.val i.isLt).trans ?_
    by_cases hi : i.val = 2 * slot.toNat
    · rw [if_neg (by omega), if_pos hi, if_pos hi]
    · rw [if_neg hi, if_neg hi]
      rfl

end Sys2Proof.Machine
end
section
/-! SUPPORT. Operations on `Num` whose exact result is a value: they give it, unrounded (00_scope.md R9). And the
numbers of the reference configuration's round trip (40_codec.md R109, R110), which are exact but for one quotient. -/

namespace Sys2Proof.F32

/-! ### Values that a pattern has -/

/-- Twice the worth of a pattern is the worth of a pattern. -/
theorem exists_unitsOfMag_eq_double (p : Nat) : ∃ q, unitsOfMag q = unitsOfMag p * 2 := by
  obtain ⟨s, m, _, hm, hs, hu⟩ := exists_scale p
  rcases Nat.lt_or_ge m (2 ^ 23) with hlow | hhigh
  · obtain rfl : s = 0 := by omega
    exact ⟨0 * 2 ^ 23 + m * 2, by rw [unitsOfMag_of_scale (by omega) (.inl rfl), hu]; ring⟩
  · exact ⟨(s + 1) * 2 ^ 23 + m, by rw [unitsOfMag_of_scale hm.le (.inr hhigh), hu]; ring⟩

theorem exists_unitsOfMag_eq_mul_two_pow (p n : Nat) : ∃ q, unitsOfMag q = unitsOfMag p * 2 ^ n := by
  induction n with
  | zero => exact ⟨p, by ring⟩
  | succ n ih =>
    obtain ⟨q, hq⟩ := ih
    obtain ⟨q', hq'⟩ := exists_unitsOfMag_eq_double q
    exact ⟨q', by rw [hq', hq]; ring⟩

theorem unitsOfMag_infMag : unitsOfMag infMag = 2 ^ 24 * 2 ^ 253 :=
  unitsOfMag_of_scale (s := 253) (le_refl _) (.inr (by decide))

/-- A value times a power of two, where that is below the infinities' place, is a value. -/
theorem exists_value_eq_mul_two_pow {x : Num32} (n : Nat) (h : |value x * 2 ^ n| < 2 ^ 24 * 2 ^ 253) :
    ∃ y, isFinite y = true ∧ value y = value x * 2 ^ n := by
  obtain ⟨q, hq⟩ := exists_unitsOfMag_eq_mul_two_pow (mag x) n
  have hlt : q < infMag := by
    rw [abs_mul, abs_value, abs_of_pos (by positivity)] at h
    rw [← unitsOfMag_strictMono.lt_iff_lt, unitsOfMag_infMag, hq]
    exact_mod_cast h
  have hmag (b : Bool) : mag (ofSignMag b q) = q := mag_ofSignMag b (lt_trans hlt (by decide))
  refine ⟨ofSignMag (sign x) q, isFinite_iff.mpr ((hmag _).symm ▸ hlt), ?_⟩
  rw [value_eq_signed, sign_ofSignMag, units, hmag, hq, ← signed_mul_natCast, Nat.cast_pow]
  rfl

/-- A whole number of at most 24 bits, times a power of two, is a value. -/
theorem exists_value_eq {k : Int} (hk : k.natAbs < 2 ^ 24) {e : Nat} (he : e ≤ 253) :
    ∃ x, isFinite x = true ∧ value x = k * 2 ^ e := by
  have hmag : mag (ofSignMag (k < 0) k.natAbs) = 0 * 2 ^ 23 + k.natAbs := by
    rw [mag_ofSignMag _ (lt_trans hk (by decide)), Nat.zero_mul, Nat.zero_add]
  have hval : value (ofSignMag (k < 0) k.natAbs) = k := by
    rw [value_eq_signed, sign_ofSignMag, units, hmag, unitsOfMag_of_scale hk.le (.inl rfl), pow_zero, mul_one,
      signed_natAbs]
  rw [← hval]
  refine exists_value_eq_mul_two_pow e ?_
  have hk' : |k| < 2 ^ 24 := by rw [Int.abs_eq_natAbs]; exact_mod_cast hk
  rw [hval, abs_mul, abs_of_pos (show (0 : Int) < 2 ^ e by positivity)]
  calc |k| * 2 ^ e < 2 ^ 24 * 2 ^ e := Int.mul_lt_mul_of_pos_right hk' (by positivity)
    _ ≤ 2 ^ 24 * 2 ^ 253 := Int.mul_le_mul_of_nonneg_left (pow_le_pow_right₀ (by decide) he) (by positivity)

/-- A finite value is below the overflow threshold. -/
theorem abs_value_lt_overflow {x : Num32} (h : isFinite x = true) : |value x| < (2 ^ 25 - 1) * 2 ^ 252 := by
  have hle : mag x ≤ infMag - 1 := Nat.le_sub_one_of_lt (isFinite_iff.mp h)
  have hlt : units x < overflowUnits :=
    lt_of_le_of_lt (unitsOfMag_strictMono.monotone hle) (by decide)
  rw [abs_value, ← overflowUnits_cast]
  exact_mod_cast hlt

/-! ### Operations without a rounding -/

theorem isZero_of_value_ne_zero {x : Num32} (h : value x ≠ 0) : isZero x = false := by
  rw [isZero, beq_eq_false_iff_ne]
  intro hm
  exact h (by rw [value_eq_signed, units, hm, unitsOfMag_zero, signed_zero])

section unrounded
variable {a b c : Num32} (ha : isFinite a = true) (hb : isFinite b = true) (hc : isFinite c = true)
include ha hb hc

/-- Where the exact product is a value, the product is that value: none is nearer. -/
theorem mul_exact (h : value c * 2 ^ 149 = value a * value b) :
    isFinite (mul a b) = true ∧ value (mul a b) = value c := by
  obtain ⟨hround, _, _⟩ := mulIsCorrectlyRounded a b ha hb
  rw [← h] at hround
  obtain ⟨hfin, hnear⟩ := hround (by
    rw [abs_mul, abs_of_pos (show (0 : Int) < 2 ^ 149 by positivity)]
    exact Int.mul_lt_mul_of_pos_right (abs_value_lt_overflow hc) (by positivity))
  obtain ⟨hzero, _⟩ := hnear c hc
  rw [sub_self, abs_zero, abs_nonpos_iff, sub_eq_zero] at hzero
  exact ⟨hfin, mul_right_cancel₀ (by positivity) hzero⟩

/-- Where the exact quotient is a value, the quotient is that value. -/
theorem div_exact (hb0 : value b ≠ 0) (h : value c * value b = value a * 2 ^ 149) :
    isFinite (div a b) = true ∧ value (div a b) = value c := by
  obtain ⟨hround, _, _⟩ := divIsCorrectlyRounded a b ha hb (isZero_of_value_ne_zero hb0)
  rw [← h] at hround
  obtain ⟨hfin, hnear⟩ := hround (by
    rw [abs_mul]
    exact Int.mul_lt_mul_of_pos_right (abs_value_lt_overflow hc) (abs_pos.mpr hb0))
  obtain ⟨hzero, _⟩ := hnear c hc
  rw [sub_self, abs_zero, abs_nonpos_iff, sub_eq_zero] at hzero
  exact ⟨hfin, mul_right_cancel₀ hb0 hzero⟩

end unrounded

section integers
variable {a b : Num32} {i j : Int} (ha : isFinite a = true) (hb : isFinite b = true)
include ha hb

/-- A product of integers of at most 24 bits is exact. -/
theorem mul_integers (hi : value a = i * 2 ^ 149) (hj : value b = j * 2 ^ 149) (hij : (i * j).natAbs < 2 ^ 24) :
    isFinite (mul a b) = true ∧ value (mul a b) = i * j * 2 ^ 149 := by
  rw [← value_ofInt hij]
  exact mul_exact ha hb (isFinite_ofInt hij) (by rw [value_ofInt hij, hi, hj]; ring)

/-- A quotient of integers that is an integer of at most 24 bits is exact. -/
theorem div_integers (hi : value a = i * j * 2 ^ 149) (hj : value b = j * 2 ^ 149) (hj0 : j ≠ 0)
    (hlt : i.natAbs < 2 ^ 24) : isFinite (div a b) = true ∧ value (div a b) = i * 2 ^ 149 := by
  rw [← value_ofInt hlt]
  exact div_exact ha hb (isFinite_ofInt hlt) (by rw [hj]; positivity) (by rw [value_ofInt hlt, hi, hj]; ring)

/-- A quotient by a positive integer is at least as near to the exact one as any integer of at most 24 bits is. -/
theorem div_near_integer {k : Int} (hj : value b = j * 2 ^ 149) (hj0 : 0 < j) (hk : k.natAbs < 2 ^ 24) :
    isFinite (div a b) = true ∧ |value (div a b) * j - value a| ≤ |k * 2 ^ 149 * j - value a| := by
  have hpos : (0 : Int) < 2 ^ 149 := by positivity
  have hscale (y : Int) : |y * (j * 2 ^ 149) - value a * 2 ^ 149| = |y * j - value a| * 2 ^ 149 := by
    rw [← mul_assoc, ← sub_mul, abs_mul, abs_of_pos hpos]
  have hb0 : value b ≠ 0 := by rw [hj]; positivity
  obtain ⟨hround, _, _⟩ := divIsCorrectlyRounded a b ha hb (isZero_of_value_ne_zero hb0)
  obtain ⟨hfin, hnear⟩ := hround <| calc
    |value a * 2 ^ 149| = |value a| * 2 ^ 149 := by rw [abs_mul, abs_of_pos hpos]
    _ < (2 ^ 25 - 1) * 2 ^ 252 * 2 ^ 149 := Int.mul_lt_mul_of_pos_right (abs_value_lt_overflow ha) hpos
    _ ≤ (2 ^ 25 - 1) * 2 ^ 252 * |value b| := by
      rw [hj, abs_of_pos (mul_pos hj0 hpos)]
      exact Int.mul_le_mul_of_nonneg_left (le_mul_of_one_le_left hpos.le hj0) (by decide)
  obtain ⟨hle, _⟩ := hnear (ofInt k) (isFinite_ofInt hk)
  rw [value_ofInt hk, hj, hscale, hscale] at hle
  exact ⟨hfin, le_of_mul_le_mul_right hle hpos⟩

end integers

/-! ### The conversion to 16 bits -/

/-- Within the range of 16 bits, its ends included, the conversion is at most half a one away. -/
theorem toS16_near {x : Num32} (hx : isFinite x = true) (hlo : -32768 * 2 ^ 149 ≤ value x)
    (hhi : value x ≤ 32767 * 2 ^ 149) : 2 * |toS16 x * 2 ^ 149 - value x| ≤ 2 ^ 149 := by
  have hn := not_nan_of_finite hx
  cases hmax : le (ofInt 32767) x with
  | true =>
    have hle := (le_iff_value (isFinite_ofInt natAbs_32767) hx).mp hmax
    rw [value_ofInt natAbs_32767] at hle
    rw [toS16_high hn hmax, le_antisymm hhi hle]
    simp
  | false =>
    cases hmin : le x (ofInt (-32768)) with
    | true =>
      have hle := (le_iff_value hx (isFinite_ofInt natAbs_neg_32768)).mp hmin
      rw [value_ofInt natAbs_neg_32768] at hle
      rw [toS16_low hn hmin, le_antisymm hle hlo]
      simp
    | false =>
      rw [toS16_between hn hmax hmin]
      exact (roundHAZ_near x).1

/-- An integer in the range of 16 bits is converted to itself. -/
theorem toS16_integer {x : Num32} {i : Int} (hx : isFinite x = true) (hi : value x = i * 2 ^ 149)
    (hlo : -32768 ≤ i) (hhi : i ≤ 32767) : toS16 x = i := by
  have hnear := toS16_near hx (by omega) (by omega)
  rw [hi] at hnear
  have hle := abs_le.mp (show |toS16 x * 2 ^ 149 - i * 2 ^ 149| ≤ 2 ^ 148 by omega)
  omega

end Sys2Proof.F32
end
section
/-! SUPPORT. Saturation and the round trip in full scale 3 (40_codec.md R109, R110). -/

namespace Sys2Proof.Machine
open Sys2Proof.F32

/-- The full scale of the reference configuration, 3 (00_scope.md R10). -/
def three : Num32 := 0x40400000#32

theorem isFinite_three : isFinite three = true := by decide

theorem value_three : value three = 3 * 2 ^ 149 := by decide

section encode
variable {G : Nat} {c : Codec G} (hfs : c.iFs = three)
include hfs

/-- A demand that is clamped to `k` times the full scale 3 is encoded as `k` times the full-scale count: the product is
an integer below 2^24, so neither step rounds. -/
theorem encodeRaw_of_clamp {demand x : Num32} {k : Int} (hk : k = 1 ∨ k = -1)
    (hclamp : clamp demand (neg three) three = x) (hfin : isFinite x = true) (hx : value x = k * 3 * 2 ^ 149) :
    encodeRaw demand c = k * c.rawFs.toNat := by
  have hr : c.rawFs.toNat < 2 ^ 15 := c.rawFs.isLt
  have hraw := value_ofInt (i := (c.rawFs.toNat : Int)) (by omega)
  obtain ⟨hmul, hmulv⟩ := mul_integers hfin (isFinite_ofInt_rawFs c.rawFs) hx hraw (by
    rcases hk with rfl | rfl <;> omega)
  obtain ⟨hdiv, hdivv⟩ := div_integers (i := k * c.rawFs.toNat) hmul isFinite_three (hmulv.trans (by ring))
    value_three (by decide) (by rcases hk with rfl | rfl <;> omega)
  rw [encodeRaw, hfs, hclamp]
  exact toS16_integer hdiv hdivv (by rcases hk with rfl | rfl <;> omega) (by rcases hk with rfl | rfl <;> omega)

/-- Ten, three and their negatives encode as the full-scale count with their sign. -/
theorem encodeRaw_saturates :
    encodeRaw 0x41200000#32 c = c.rawFs.toNat ∧ encodeRaw 0x40400000#32 c = c.rawFs.toNat ∧
      encodeRaw 0xC1200000#32 c = -(c.rawFs.toNat : Int) ∧ encodeRaw 0xC0400000#32 c = -(c.rawFs.toNat : Int) := by
  have hhigh (demand : Num32) (h : clamp demand (neg three) three = three) :
      encodeRaw demand c = c.rawFs.toNat := by
    rw [encodeRaw_of_clamp hfs (.inl rfl) h isFinite_three (by rw [value_three]; ring), one_mul]
  have hlow (demand : Num32) (h : clamp demand (neg three) three = neg three) :
      encodeRaw demand c = -(c.rawFs.toNat : Int) := by
    rw [encodeRaw_of_clamp hfs (.inr rfl) h (by rw [isFinite_neg, isFinite_three])
      (by rw [value_neg, value_three]; ring), neg_one_mul]
  exact ⟨hhigh _ (by decide), hhigh _ (by decide), hlow _ (by decide), hlow _ (by decide)⟩

end encode

/-- Settles O28: saturation for every full-scale count, read off at 16384 for the two reference words. -/
theorem encodeSaturatesAndPlaces : Obligations.EncodeSaturatesAndPlaces := by
  refine ⟨fun c hfs _ => encodeRaw_saturates hfs, fun base ids => ?_, by decide⟩
  obtain ⟨hhigh, _, hlow, _⟩ := encodeRaw_saturates (c := referenceCodec base ids) rfl
  rw [hhigh, hlow]
  exact ⟨by simp only [referenceCodec]; decide, by simp only [referenceCodec]; decide⟩

/-! ### The round trip -/

/-- In full scale 3 and 16384 counts, the demand in counts before it is rounded to an integer. -/
def scaledDemand (d : Num32) : Num32 := div (mul d (ofInt 16384)) three

theorem value_ofInt_16384 : value (ofInt 16384) = 16384 * 2 ^ 149 := value_ofInt (by decide)

section demand
variable {d : Num32} (hlo : le (neg three) d = true) (hhi : le d three = true)
include hlo hhi

theorem isFinite_of_within_three : isFinite d = true := by
  obtain ⟨_, hd, _⟩ := le_iff.mp hlo
  rw [← clamp_inside hlo hhi]
  exact isFinite_clamp (by rw [isFinite_neg, isFinite_three]) isFinite_three hd

theorem value_within_three : -3 * 2 ^ 149 ≤ value d ∧ value d ≤ 3 * 2 ^ 149 := by
  have hfin := isFinite_of_within_three hlo hhi
  have h1 := (le_iff_value (by rw [isFinite_neg, isFinite_three]) hfin).mp hlo
  have h2 := (le_iff_value hfin isFinite_three).mp hhi
  rw [value_neg, value_three] at h1
  rw [value_three] at h2
  exact ⟨by omega, h2⟩

/-- Multiplying by 16384, a power of two, is exact. -/
theorem mul_16384 : isFinite (mul d (ofInt 16384)) = true ∧ value (mul d (ofInt 16384)) = value d * 2 ^ 14 := by
  have hfin := isFinite_of_within_three hlo hhi
  obtain ⟨h1, h2⟩ := value_within_three hlo hhi
  obtain ⟨x, hx, hv⟩ := exists_value_eq_mul_two_pow (x := d) 14 (abs_lt.mpr ⟨by omega, by omega⟩)
  rw [← hv]
  exact mul_exact hfin (isFinite_ofInt (by decide)) hx (by rw [hv, value_ofInt_16384]; ring)

/-- The one rounded quotient is at least as near to the exact one as the nearest integer is: half a count. -/
theorem scaledDemand_near : isFinite (scaledDemand d) = true ∧
    |value (scaledDemand d) * 3 - value d * 2 ^ 14| ≤ 3 * 2 ^ 148 := by
  obtain ⟨hmul, hv⟩ := mul_16384 hlo hhi
  obtain ⟨h1, h2⟩ := value_within_three hlo hhi
  obtain ⟨k, hk⟩ : ∃ k : Int, k = (2 * (value d * 2 ^ 14) + 3 * 2 ^ 149) / (6 * 2 ^ 149) := ⟨_, rfl⟩
  obtain ⟨hfin, hnear⟩ := div_near_integer hmul isFinite_three value_three (by decide) (k := k) (by omega)
  rw [hv] at hnear
  have hk3 : |k * 2 ^ 149 * 3 - value d * 2 ^ 14| ≤ 3 * 2 ^ 148 := abs_le.mpr ⟨by omega, by omega⟩
  exact ⟨hfin, hnear.trans hk3⟩

/-- The counts are within half a one of the scaled demand, so within one of the exact ratio; and they fit 16 bits. -/
theorem toS16_scaledDemand_near :
    |3 * 2 ^ 135 * toS16 (scaledDemand d) - value d| ≤ 3 * 2 ^ 135 ∧
      -32768 ≤ toS16 (scaledDemand d) ∧ toS16 (scaledDemand d) ≤ 32767 := by
  obtain ⟨h1, h2⟩ := value_within_three hlo hhi
  obtain ⟨hfin, hnear⟩ := scaledDemand_near hlo hhi
  obtain ⟨hdlo, hdhi⟩ := abs_le.mp hnear
  have hround := toS16_near hfin (by omega) (by omega)
  obtain ⟨hrlo, hrhi⟩ := abs_le.mp
    (show |toS16 (scaledDemand d) * 2 ^ 149 - value (scaledDemand d)| ≤ 2 ^ 148 by omega)
  exact ⟨abs_le.mpr ⟨by omega, by omega⟩, toS16_mem (not_nan_of_finite hfin)⟩

/-- In the reference configuration a demand within the full scale is encoded with no clamp. -/
theorem encodeRaw_reference {G : Nat} (base : BitVec 11) (ids : Vector (BitVec 11) G) :
    encodeRaw d (referenceCodec base ids) = toS16 (scaledDemand d) := by
  change toS16 (div (mul (clamp d (neg three) three) (ofInt 16384)) three) = _
  rw [clamp_inside hlo hhi, scaledDemand]

end demand

/-- In the reference configuration the current is decoded exactly: `rc * 3` is an integer, and dividing by 16384 only
moves the exponent. -/
theorem decodeCurrent_reference {G : Nat} (base : BitVec 11) (ids : Vector (BitVec 11) G) {rc : Int}
    (hlo : -32768 ≤ rc) (hhi : rc ≤ 32767) :
    isFinite (decodeCurrent rc (referenceCodec base ids)) = true ∧
      value (decodeCurrent rc (referenceCodec base ids)) = 3 * 2 ^ 135 * rc := by
  change isFinite (div (mul (ofInt rc) three) (ofInt 16384)) = true ∧
    value (div (mul (ofInt rc) three) (ofInt 16384)) = _
  have hrc : rc.natAbs < 2 ^ 24 := by omega
  obtain ⟨hmul, hmulv⟩ := mul_integers (isFinite_ofInt hrc) isFinite_three (value_ofInt hrc) value_three (by omega)
  obtain ⟨x, hx, hv⟩ := exists_value_eq (k := rc * 3) (by omega) (e := 135) (by decide)
  rw [show 3 * 2 ^ 135 * rc = rc * 3 * 2 ^ 135 by ring, ← hv]
  exact div_exact hmul (isFinite_ofInt (by decide)) hx (by rw [value_ofInt_16384]; decide)
    (by rw [hv, hmulv, value_ofInt_16384]; ring)

/-- An integer of 16 bits survives being written as two bytes and read again. -/
theorem s16_be16_bytes {r : Int} (hlo : -32768 ≤ r) (hhi : r ≤ 32767) :
    s16 (be16 (highByte (u16 r)) (lowByte (u16 r))) = r := by
  rw [be16_eq, highByte_append_lowByte, s16_toNat, u16, BitVec.toInt_ofInt_eq_self (by decide) hlo (by omega)]

/-- Settles O29: the bytes are read as the encoded integer, which the current is an exact multiple of; half a count is
lost to the quotient at most and half a count to the conversion. -/
theorem roundTripWithinOneStep : Obligations.RoundTripWithinOneStep := by
  intro s t id d base ids frameId offset high low p hcodec _ hlo hhi hport hexec hrsp hhigh hlow
  rw [← hport] at hrsp
  obtain ⟨k, hk⟩ := execEnc_ok hexec hrsp
  obtain ⟨_, _, rfl, rfl⟩ := Results.encoded.inj hk
  obtain ⟨hstep, hmin, hmax⟩ := toS16_scaledDemand_near hlo hhi
  have hraw := encodeRaw_reference hlo hhi base ids
  have hcurrent : (decodeTel p s.codec).current =
      decodeCurrent (toS16 (scaledDemand d)) (referenceCodec base ids) := by
    rw [decodeTel, hhigh, hlow, hcodec, hraw, s16_be16_bytes hmin hmax]
  obtain ⟨hfin, hval⟩ := decodeCurrent_reference base ids hmin hmax
  rw [hcurrent, hval, hcodec, hraw]
  exact ⟨hfin, rfl, hstep⟩

end Sys2Proof.Machine
end
section
/-! SUPPORT. One `PID` as a function of the controller and the operands alone (41_pid.md R122, R123, R131 (c)):
`pidOutcome` is what its checks and its tick give, `execPid_eq` says that `PID` is that function. Whole ticks, their limits,
their NaN check and the missing derivative kick are read off it, and so is what `PRST` does. -/

namespace Sys2Proof.Machine
open Sys2Proof.F32

variable {N : Nat}

/-! ### One equation for `PID` -/

/-- What a `PID` on a block that runs makes of its controller: the first cause of R122 and R128 whose condition holds, or
the new record and the output. -/
def pidOutcome (c : Pcf) (p : Pst) (reference feedback dt : Num32) : Except Cause (Pst × Num32) :=
  if c.valid = false then .error .paramsUninit
  else if anyNaN [reference, feedback, dt] then .error .nanOperand
  else if le dt zero then .error .dtNonpositive
  else if pidNumeric (pidTick c p reference feedback dt) then .ok (pidTick c p reference feedback dt)
  else .error .nanResult

/-- The state in which a `PID` of slot `k` ends. -/
def pidEnd (k : Fin N) (s : State N) : Except Cause (Pst × Num32) → State N
  | .error c => raiseFault c s
  | .ok x => respond (.ok (.output x.2)) (writePst k x.1 s)

/-- On a block that runs, `PID` is a function of its controller and its operands (41_pid.md R131 (c)). -/
theorem execPid_eq {s : State N} {id : BitVec 8} {k : Fin N} (reference feedback dt : Num32)
    (hh : s.fault.halt = false) (hp : s.port = .ctl) (hk : slotOf id = some k) :
    execPid id reference feedback dt s =
      .next (pidEnd k s (pidOutcome s.pcf[k] s.pst[k] reference feedback dt)) := by
  rw [execPid, accept_legal hh (by simp [hp]), withSlot_some hk, pidOutcome]
  cases s.pcf[k].valid with
  | false => rfl
  | true =>
    cases anyNaN [reference, feedback, dt] with
    | true => rfl
    | false =>
      cases le dt zero with
      | true => rfl
      | false =>
        cases hnum : pidNumeric (pidTick s.pcf[k] s.pst[k] reference feedback dt) with
        | true => simp only [hnum]; rfl
        | false => simp only [hnum]; rfl

section outcome
variable {c : Pcf} {p : Pst} {reference feedback dt : Num32}

/-- With its operands accepted a `PID` is left with its numeric check. -/
theorem pidOutcome_checked (hv : c.valid = true) (hr : isNaN reference = false) (hf : isNaN feedback = false)
    (hn : isNaN dt = false) (hdt : le dt zero = false) :
    pidOutcome c p reference feedback dt =
      if pidNumeric (pidTick c p reference feedback dt) then .ok (pidTick c p reference feedback dt)
      else .error .nanResult := by
  simp [pidOutcome, anyNaN, hv, hr, hf, hn, hdt]

/-- A `PID` that completes gives its tick, which passed the numeric check. -/
theorem pidOutcome_ok {x : Pst × Num32} (h : pidOutcome c p reference feedback dt = .ok x) :
    x = pidTick c p reference feedback dt ∧ pidNumeric x = true := by
  unfold pidOutcome at h
  split_ifs at h with _ _ _ hnum
  obtain rfl := Except.ok.inj h
  exact ⟨rfl, hnum⟩

theorem pidNumeric_iff {x : Pst × Num32} : pidNumeric x = true ↔
    isNaN x.1.lastError = false ∧ isNaN x.1.integral = false ∧ isNaN x.2 = false := by simp [pidNumeric, anyNaN]

/-- The steps of a tick by name (41_pid.md R123). -/
theorem pidTick_eq : pidTick c p reference feedback dt =
    (⟨pidIntegral c p (sub reference feedback) dt, sub reference feedback, feedback, .running⟩,
      pidOutput c (sub reference feedback) (pidIntegral c p (sub reference feedback) dt)
        (pidDerivative c p (sub reference feedback) feedback dt)) := rfl

theorem pidAccumulate_eq (error : Num32) : pidAccumulate c p error dt =
    if c.sepEn = false ∨ lt (abs error) c.sepThreshold = true then
      add p.integral (mul (div (add error p.lastError) two) dt)
    else p.integral := by simp [pidAccumulate]

end outcome

theorem pidEnd_inbox (k : Fin N) (s : State N) (o : Except Cause (Pst × Num32)) : (pidEnd k s o).inbox = s.inbox := by
  cases o <;> rfl

/-- An executed `PID` writes the one record and responds. -/
theorem pidEnd_ok {s : State N} (hp : s.port = .ctl) (k : Fin N) (x : Pst × Num32) :
    pidEnd k s (.ok x) = { s with pst := s.pst.set k x.1, rsp := putResponse .ctl (.ok (.output x.2)) s.rsp } :=
  respond_eq (s := writePst k x.1 s) hp _

/-- A `PID` that fails its numeric check writes FAULT and responds. -/
theorem pidEnd_nanResult {s : State N} (hp : s.port = .ctl) (k : Fin N) :
    pidEnd k s (.error .nanResult) =
      { s with fault := ⟨true, 8, s.word, 1⟩, rsp := putResponse .ctl .fault s.rsp } := by
  simp only [pidEnd, raiseFault, respond, hp]
  rfl

/-- `PID` of slot `k` on port CTL of a running block of this hardware, by its outcome. -/
theorem exec_pid_eq_of_outcome {s : State} {id : BitVec 8} {k : Fin Config.N} {reference feedback dt : Num32}
    {o : Except Cause (Pst × Num32)} (hh : s.fault.halt = false) (hp : s.port = .ctl) (hid : id.toNat = k.val + 1)
    (ho : pidOutcome s.pcf[k] s.pst[k] reference feedback dt = o) :
    exec (.pid id reference feedback dt) s = .next (pidEnd k s o) :=
  ho ▸ execPid_eq reference feedback dt hh hp (slotOf_eq_some.mpr hid)

/-- A `PID` of slot `k` that answers OK has stored and answered its tick, which passed the numeric check. -/
theorem exec_pid_ok {s t : State} {id : BitVec 8} {k : Fin Config.N} {reference feedback dt v : Num32}
    (hid : id.toNat = k.val + 1) (hp : s.port = .ctl) (h : exec (.pid id reference feedback dt) s = .next t)
    (hr : responseAt .ctl t.rsp = some (.ok (.output v))) :
    (t.pst[k], v) = pidTick s.pcf[k] s.pst[k] reference feedback dt ∧ pidNumeric (t.pst[k], v) = true := by
  have hk : slotOf id = some k := slotOf_eq_some.mpr hid
  obtain ⟨_, _, hh, _⟩ := (exec_effect h).pid_output (hp ▸ hr)
  obtain rfl := Host.Outcome.next.inj ((execPid_eq reference feedback dt hh hp hk).symm.trans h)
  cases ho : pidOutcome s.pcf[k] s.pst[k] reference feedback dt with
  | error c =>
    rw [ho] at hr
    simp [pidEnd, hp] at hr
  | ok x =>
    rw [ho] at hr
    obtain rfl : x.2 = v := by simpa [pidEnd, hp] using hr
    have hpst : (pidEnd k s (.ok x)).pst[k] = x.1 := get_set_same ..
    rw [hpst]
    exact pidOutcome_ok ho

/-! ### The whole tick -/

/-- Parameter set of 95_test_vectors.md S5: threshold 35, integral limit 10, output limit 100. -/
def heldParams : Pcf :=
  ⟨true, 0x40000000#32, 0x3F000000#32, 0x3E800000#32, 0x41200000#32, 0x42C80000#32, 0x420C0000#32, true, true⟩

/-- The first tick from Idle with an error of 5 stores 2.5 and answers 11.25 (41_pid.md R123's example). -/
theorem pidOutcome_held_first : pidOutcome heldParams Pst.reset 0x40A00000#32 0 0x3F800000#32 =
    .ok (⟨0x40200000#32, 0x40A00000#32, 0, .running⟩, 0x41340000#32) := rfl

/-- The causes of R122 and R128, and ILLEGAL_OP and BAD_ID before them, are all that `PID` can raise. -/
theorem exec_pid_causes {s t : State} {id : BitVec 8} {reference feedback dt : Num32}
    (h : exec (.pid id reference feedback dt) s = .next t) :
    t.fault = s.fault ∨ t.fault.cause ∈ [1#4, 2#4, 4#4, 5#4, 6#4, 8#4] := by
  cases hh : s.fault.halt with
  | true =>
    obtain rfl := Host.Outcome.next.inj ((accept_halted hh).symm.trans h)
    exact .inl rfl
  | false =>
    have hfirst := exec_raisesFirst hh (.pid id reference feedback dt)
    cases hc : causes.find? (violates s (.pid id reference feedback dt)) with
    | none =>
      obtain ⟨u, hu, hf, _⟩ := hfirst.passed hc
      obtain rfl := Host.Outcome.next.inj (hu.symm.trans h)
      exact .inl hf
    | some c =>
      obtain rfl := Host.Outcome.next.inj ((hfirst.raised c hc).symm.trans h)
      have hviolates := List.find?_some hc
      cases c with
      | codecUninit | badConfig => cases hviolates
      | _ => exact .inr (by simp [causeCode])

/-- `PID` is not among the writers of the parameters (41_pid.md R123). -/
theorem Effect.pcf_eq_of_pid {s t : State N} {id : BitVec 8} {reference feedback dt : Num32}
    (h : Effect s (.pid id reference feedback dt) t) : t.pcf = s.pcf := by
  cases h <;> rfl

/-- Settles O39: past the operand checks the outcome is the numeric check of the tick, whose steps are the rule's. -/
theorem pidComputesTheTick : Obligations.PidComputesTheTick := by
  refine ⟨?_, ?_, fun s t id reference feedback dt h => ⟨(exec_effect h).pcf_eq_of_pid, exec_pid_causes h⟩⟩
  · intro s id k reference feedback dt hh hp hid hv hr hf hn hdt c p error acc integral derivative u output
    have hacc : pidAccumulate c p error dt = acc := pidAccumulate_eq error
    have htick : pidTick c p reference feedback dt = (⟨integral, error, feedback, .running⟩, output) := by
      simp only [integral, output, u, ← hacc]
      rfl
    have hnum := pidNumeric_iff (x := pidTick c p reference feedback dt)
    have ho := pidOutcome_checked (p := p) hv hr hf hn hdt
    rw [htick] at hnum ho
    refine ⟨fun he hi hout => ?_, fun hbad => ?_⟩
    · rw [if_pos (hnum.mpr ⟨he, hi, hout⟩)] at ho
      rw [exec_pid_eq_of_outcome hh hp hid ho, pidEnd_ok hp]
    · rw [if_neg fun h => ?_] at ho
      · rw [exec_pid_eq_of_outcome hh hp hid ho, pidEnd_nanResult hp]
      · obtain ⟨he, hi, hout⟩ := hnum.mp h
        simp [he, hi, hout] at hbad
  · intro s k id hh hp hid hc hpst
    have ho := pidOutcome_held_first
    rw [heldParams, ← hc, Pst.reset, ← hpst] at ho
    rw [exec_pid_eq_of_outcome hh hp hid ho, pidEnd_ok hp]

/-- The new integral is a clamped sum of finite values, or the clamped old one, so no NaN. -/
theorem isNaN_pidIntegral {c : Pcf} {p : Pst} {error dt : Num32} (hlimit : isNaN c.integralLimit = false)
    (hp : isFinite p.integral = true)
    (hincrement : isFinite (mul (div (add error p.lastError) two) dt) = true) :
    isNaN (pidIntegral c p error dt) = false := by
  rw [pidIntegral, isNaN_clamp (by rw [isNaN_neg, hlimit]) hlimit, pidAccumulate_eq]
  split
  · exact isNaN_add_finite hp hincrement
  · exact not_nan_of_finite hp

/-- Settles O40: the limits are no NaN and each sum has finite terms, so the numeric check passes. -/
theorem pidOfFiniteValuesCompletes : Obligations.PidOfFiniteValuesCompletes := by
  intro s id k reference feedback dt hh hp hid hv hc hr hf hn hdt c p error integral hfinite
  simp only [List.forall_mem_cons, List.not_mem_nil, false_imp_iff, implies_true, and_true] at hfinite
  obtain ⟨herror, hintegral, hincrement, _, _, hsum, hterm⟩ := hfinite
  obtain ⟨_, _, _, _, hil, hol, _⟩ := hc
  obtain ⟨_, hil, _⟩ := le_iff.mp hil
  obtain ⟨_, hol, _⟩ := le_iff.mp hol
  have hnn := not_nan_of_finite hn
  have hpos : le dt zero = false := (le_eq_false_iff hnn isNaN_zero).mpr hdt
  have hout : isNaN (pidOutput c error integral (pidDerivative c p error feedback dt)) = false := by
    rw [pidOutput, isNaN_clamp (by rw [isNaN_neg, hol]) hol, isNaN_add_finite hsum hterm]
  have hnum : pidNumeric (pidTick c p reference feedback dt) = true := by
    rw [pidTick_eq, pidNumeric_iff]
    exact ⟨not_nan_of_finite herror, isNaN_pidIntegral hil hintegral hincrement, hout⟩
  have ho := pidOutcome_checked (p := p) hv (not_nan_of_finite hr) (not_nan_of_finite hf) hnn hpos
  rw [if_pos hnum] at ho
  have hexec := exec_pid_eq_of_outcome hh hp hid ho
  rw [pidEnd_ok hp] at hexec
  exact ⟨_, _, hexec, rfl, rfl⟩

/-- A clamp between limits of one size that is no NaN lies between them. -/
theorem clamp_limit_mem {x limit : Num32} (hl : le zero limit = true) (hx : isNaN (clamp x (neg limit) limit) = false) :
    le (neg limit) (clamp x (neg limit) limit) = true ∧ le (clamp x (neg limit) limit) limit = true := by
  obtain ⟨_, hn, _⟩ := le_iff.mp hl
  rw [isNaN_clamp (by rw [isNaN_neg, hn]) hn] at hx
  exact clamp_mem (neg_le_self hl) hx

/-- Settles O41: integral and output are clamps to limits that are not negative, and the numeric check passed. -/
theorem pidStaysInItsLimits : Obligations.PidStaysInItsLimits := by
  intro s t id k reference feedback dt v hc hid hp h hr
  obtain ⟨htick, hnum⟩ := exec_pid_ok hid hp h hr
  obtain ⟨_, hi, hv⟩ := pidNumeric_iff.mp hnum
  obtain ⟨hpst, rfl⟩ := Prod.mk.inj htick
  rw [hpst] at hi ⊢
  obtain ⟨_, _, _, _, hil, hol, _⟩ := hc
  exact ⟨(clamp_limit_mem hil hi).1, (clamp_limit_mem hil hi).2, clamp_limit_mem hol hv⟩

/-! ### No derivative kick -/

/-- A finite value less itself is `+0` (00_scope.md R15). -/
theorem sub_self_of_finite {x : Num32} (h : isFinite x = true) : sub x x = zero := by
  rw [sub, add_of_finite h (by rw [isFinite_neg, h]), addFinite, value_neg, if_pos (Int.add_right_neg _), sign_neg,
    Bool.and_not_self]
  rfl

/-- A positive value has a clear sign and is not zero. -/
theorem sign_isZero_of_pos {x : Num32} (h : gt x zero = true) : sign x = false ∧ isZero x = false := by
  obtain ⟨_, _, hk⟩ := gt_iff.mp h
  rw [key_zero, key] at hk
  cases hs : sign x with
  | true => rw [hs, if_pos rfl] at hk; omega
  | false =>
    rw [hs, if_neg Bool.false_ne_true] at hk
    exact ⟨rfl, by rw [isZero, beq_eq_false_iff_ne]; omega⟩

/-- Zero over a positive value, the infinity included, is `+0`. -/
theorem zero_div_of_pos {x : Num32} (h : gt x zero = true) : div zero x = zero := by
  obtain ⟨hx, _, _⟩ := gt_iff.mp h
  obtain ⟨hs, hz⟩ := sign_isZero_of_pos h
  have hsign : signProduct zero x = false := by rw [signProduct, hs]; decide
  have hunits : units zero = 0 := by decide
  cases hi : isInf x with
  | true => simp [div, hx, hi, hsign, show isInf zero = false by decide]; decide
  | false =>
    rw [div_of_finite (by decide) (finite_of_not_nan_not_inf hx hi) hz, hsign, hunits, Nat.zero_mul, roundUnits,
      roundMag_zero]
    decide

/-- On the measurement, a feedback that stays makes no derivative, whatever the error (41_pid.md R126). -/
theorem pidDerivative_of_held_feedback {c : Pcf} {p : Pst} {feedback dt : Num32} (error : Num32) (hc : c.dmeas = true)
    (hp : p.lastFeedback = feedback) (hf : isFinite feedback = true) (hdt : gt dt zero = true) :
    pidDerivative c p error feedback dt = zero := by
  rw [pidDerivative, if_pos hc, hp, sub_self_of_finite hf, zero_div_of_pos hdt]

/-- Settles O44: the output of the tick, with its derivative `zero`. -/
theorem noDerivativeKick : Obligations.NoDerivativeKick := by
  intro s t id k reference feedback dt v hc hlast hf _ hdt hid hp h hr
  obtain ⟨htick, _⟩ := exec_pid_ok hid hp h hr
  obtain ⟨hpst, rfl⟩ := Prod.mk.inj htick
  rw [hpst, pidDerivative_of_held_feedback _ hc hlast hf hdt]
  rfl

/-! ### PRST -/

/-- Settles O46: the outcome is the write of the Idle record and the answer. -/
theorem prstMakesTheControllerIdle : Obligations.PrstMakesTheControllerIdle := fun s _ k hh hp hid =>
  (execPrst_written hh hp (slotOf_eq_some.mpr hid)).trans
    (congrArg Host.Outcome.next (respond_eq (s := writePst k Pst.reset s) hp _))

end Sys2Proof.Machine
end
section
/-! SUPPORT. Ticks served one after another (41_pid.md R131): a request of `PID` at the head of the order is one
`pidOutcome`, and the laws of the controller are inductions over the order. -/

namespace Sys2Proof.Machine
open Sys2Proof.F32

/-! ### One tick of the order -/

section served
variable {s : State} {id : BitVec 8} {reference feedback dt : Num32} {rest : List Event}
  (hs : s.inbox = .request .ctl (encode (.pid id reference feedback dt)) :: rest)
include hs

theorem step_pid : step s = exec (.pid id reference feedback dt)
    (latch .ctl (encode (.pid id reference feedback dt)) { s with inbox := rest }) := by
  rw [step_request hs, decode_encode rfl]

theorem step_pid_halted (hh : s.fault.halt = true) : step s = .next (respond .halted
    (latch .ctl (encode (.pid id reference feedback dt)) { s with inbox := rest })) :=
  (step_pid hs).trans (accept_halted hh)

theorem step_pid_running {k : Fin Config.N} (hid : id.toNat = k.val + 1) (hh : s.fault.halt = false) :
    step s = .next (pidEnd k (latch .ctl (encode (.pid id reference feedback dt)) { s with inbox := rest })
      (pidOutcome s.pcf[k] s.pst[k] reference feedback dt)) :=
  (step_pid hs).trans (exec_pid_eq_of_outcome hh rfl hid rfl)

end served

/-- `inv m s`, said of the state `s` after `m` services of the command `c` on port CTL, is passed on by the next one. -/
def PassedOn (c : Command) (inv : Nat → State → Prop) : Prop :=
  ∀ m s rest, inv m s → s.inbox = .request .ctl c :: rest →
    ∃ t, step s = .next t ∧ State.inbox t = rest ∧ inv (m + 1) t

/-- What each service of a command passes on holds after any number of them. -/
theorem run_held_input {c : Command} {inv : Nat → State → Prop} (hstep : PassedOn c inv)
    (n : Nat) {m : Nat} {s : State} (h : inv m s) (hs : s.inbox = List.replicate n (.request .ctl c)) :
    ∃ t, Host.Core.run Sys2Proof.core n s = .next t ∧ inv (m + n) t := by
  induction n generalizing m s with
  | zero => exact ⟨s, rfl, h⟩
  | succ n ih =>
    obtain ⟨t, ht, hinbox, hinv⟩ := hstep m s _ h hs
    obtain ⟨u, hu, hend⟩ := ih hinv hinbox
    exact ⟨u, (core_run_succ n ht).trans hu, by rwa [Nat.add_right_comm] at hend⟩

/-! ### The frozen integral -/

/-- A frozen tick leaves an integral within its limits as it is (41_pid.md R124, R125). -/
theorem pidIntegral_frozen {c : Pcf} {p : Pst} {error : Num32} (dt : Num32) (hsep : c.sepEn = true)
    (herror : lt (abs error) c.sepThreshold = false) (hlo : le (neg c.integralLimit) p.integral = true)
    (hhi : le p.integral c.integralLimit = true) : pidIntegral c p error dt = p.integral := by
  rw [pidIntegral, pidAccumulate_eq, if_neg (by simp [hsep, herror]), clamp_inside hlo hhi]

/-- A `PID` leaves the integral of slot `k` as it is where the tick of its own id would. -/
theorem Effect.pid_integral {N : Nat} {s t : State N} {id : BitVec 8} {k : Fin N} {reference feedback dt : Num32}
    (h : Effect s (.pid id reference feedback dt) t) (hid : id.toNat = k.val + 1)
    (hkeep : pidIntegral s.pcf[k] s.pst[k] (sub reference feedback) dt = s.pst[k].integral) :
    t.pst[k].integral = s.pst[k].integral := by
  cases h with
  | @pid _ _ _ _ j _ _ hj =>
    obtain rfl : j = k := Option.some.inj (hj.symm.trans (slotOf_eq_some.mpr hid))
    rw [respond_pst, writePst_pst, get_set_same]
    exact hkeep
  | _ => rfl

/-- Settles O42: by induction over the ticks; the parameters and the integral stay, so each tick is frozen. -/
theorem separationFreezesTheIntegral : Obligations.SeparationFreezesTheIntegral := by
  intro n s id k reference feedback dt hid hsep herror hlo hhi hs
  have hstep : PassedOn (encode (.pid id reference feedback dt)) fun _ t =>
      t.pcf[k] = s.pcf[k] ∧ t.pst[k].integral = s.pst[k].integral := by
    intro _ t rest ⟨hpcf, hint⟩ hinbox
    obtain ⟨u, _, hu, hrest, _⟩ := exec_answers (.pid id reference feedback dt)
      (latch .ctl (encode (.pid id reference feedback dt)) { t with inbox := rest })
    have he := exec_effect hu
    rw [← hpcf] at hsep herror hlo hhi
    rw [← hint] at hlo hhi
    exact ⟨u, (step_pid hinbox).trans hu, hrest, (congrArg (·[k]) he.pcf_eq_of_pid).trans hpcf,
      (he.pid_integral hid (pidIntegral_frozen dt hsep herror hlo hhi)).trans hint⟩
  obtain ⟨t, ht, _, hintegral⟩ := run_held_input hstep n (m := 0) ⟨rfl, rfl⟩ hs
  exact ⟨t, ht, hintegral⟩

/-! ### The held error -/

/-- The controller after `n` ticks with the error held at 5 and a period of 1 (95_test_vectors.md S5). -/
def heldPst : Nat → Pst
  | 0 => Pst.reset
  | 1 => ⟨0x40200000#32, 0x40A00000#32, 0, .running⟩
  | 2 => ⟨0x40F00000#32, 0x40A00000#32, 0, .running⟩
  | _ + 3 => ⟨0x41200000#32, 0x40A00000#32, 0, .running⟩

/-- At the clamp a tick stores the clamp again and answers 15. -/
theorem pidOutcome_held_clamped :
    pidOutcome heldParams ⟨0x41200000#32, 0x40A00000#32, 0, .running⟩ 0x40A00000#32 0 0x3F800000#32 =
      .ok (⟨0x41200000#32, 0x40A00000#32, 0, .running⟩, 0x41700000#32) := rfl

/-- Each tick with the error held completes, and from the third on the controller stays at the clamp. -/
theorem pidOutcome_held (n : Nat) :
    ∃ v, pidOutcome heldParams (heldPst n) 0x40A00000#32 0 0x3F800000#32 = .ok (heldPst (n + 1), v) :=
  match n with
  | 0 => ⟨_, pidOutcome_held_first⟩
  | 1 => ⟨0x415C0000#32, rfl⟩
  | 2 => ⟨0x41700000#32, rfl⟩
  | _ + 3 => ⟨_, pidOutcome_held_clamped⟩

/-- Settles O43: by induction over the ticks, the controller running through `heldPst`. -/
theorem heldErrorRunsToTheClamp : Obligations.HeldErrorRunsToTheClamp := by
  intro n s k id hh hid hpcf hpst hs
  have hstep : PassedOn (encode (.pid id 0x40A00000#32 0 0x3F800000#32)) fun m t =>
      t.pcf[k] = heldParams ∧ t.fault = s.fault ∧ t.pst[k] = heldPst m := by
    intro m t rest ⟨hpcf, hf, hpst⟩ hinbox
    obtain ⟨v, hv⟩ := pidOutcome_held m
    have hu := step_pid_running hinbox hid (hf ▸ hh)
    rw [hpcf, hpst, hv] at hu
    exact ⟨_, hu, rfl, hpcf, hf, get_set_same ..⟩
  obtain ⟨t, ht, _, hf, hend⟩ := run_held_input hstep n (m := 0) ⟨hpcf, rfl, hpst⟩ hs
  refine ⟨t, ht, hf, ?_⟩
  rw [hend, Nat.zero_add]
  match n with
  | 0 | 1 | 2 | _ + 3 => rfl

/-! ### Two equal controllers -/

/-- Slot `k` of one block and slot `k'` of another hold equal controllers, the blocks halted alike, with the same response
on port CTL. -/
structure EqualControllers (k k' : Fin Config.N) (s s' : State) : Prop where
  pcf : s.pcf[k] = s'.pcf[k']
  pst : s.pst[k] = s'.pst[k']
  halt : s.fault.halt = s'.fault.halt
  rsp : s.rsp.ctl = s'.rsp.ctl

namespace EqualControllers
variable {k k' : Fin Config.N} {s s' : State} (h : EqualControllers k k' s s')
include h

theorem respond (r : Response) (hp : s.port = .ctl) (hp' : s'.port = .ctl) :
    EqualControllers k k' (respond r s) (respond r s') :=
  { h with rsp := by rw [respond_rsp, respond_rsp, hp, hp']; rfl }

/-- One outcome ends in equal controllers. -/
theorem pidEnd (o : Except Cause (Pst × Num32)) (hp : s.port = .ctl) (hp' : s'.port = .ctl) :
    EqualControllers k k' (pidEnd k s o) (pidEnd k' s' o) :=
  match o with
  | .error _ => ⟨h.pcf, h.pst, rfl, by simp only [Machine.pidEnd, raiseFault_rsp, hp, hp']; rfl⟩
  | .ok x =>
    have hwritten : EqualControllers k k' (writePst k x.1 s) (writePst k' x.1 s') :=
      { h with pst := (get_set_same ..).trans (get_set_same ..).symm }
    hwritten.respond _ hp hp'

/-- The same input on both blocks keeps the controllers equal: what `PID` makes of it depends on them alone. -/
theorem step {id id' : BitVec 8} {reference feedback dt : Num32} {rest rest' : List Event}
    (hid : id.toNat = k.val + 1) (hid' : id'.toNat = k'.val + 1)
    (hs : s.inbox = .request .ctl (encode (.pid id reference feedback dt)) :: rest)
    (hs' : s'.inbox = .request .ctl (encode (.pid id' reference feedback dt)) :: rest') :
    ∃ t t', step s = .next t ∧ step s' = .next t' ∧ State.inbox t = rest ∧ State.inbox t' = rest' ∧
      EqualControllers k k' t t' := by
  have hl : EqualControllers k k' (latch .ctl (encode (.pid id reference feedback dt)) { s with inbox := rest })
    (latch .ctl (encode (.pid id' reference feedback dt)) { s' with inbox := rest' }) := { h with }
  cases hh : s.fault.halt with
  | true => exact ⟨_, _, step_pid_halted hs hh, step_pid_halted hs' (h.halt ▸ hh), rfl, rfl, hl.respond _ rfl rfl⟩
  | false =>
    have hstep := step_pid_running hs hid hh
    rw [h.pcf, h.pst] at hstep
    exact ⟨_, _, hstep, step_pid_running hs' hid' (h.halt ▸ hh), pidEnd_inbox .., pidEnd_inbox .., hl.pidEnd _ rfl rfl⟩

/-- So does every sequence of inputs. -/
theorem run {id id' : BitVec 8} (hid : id.toNat = k.val + 1) (hid' : id'.toNat = k'.val + 1)
    (inputs : List (Num32 × Num32 × Num32))
    (hs : s.inbox = inputs.map fun x => .request .ctl (encode (.pid id x.1 x.2.1 x.2.2)))
    (hs' : s'.inbox = inputs.map fun x => .request .ctl (encode (.pid id' x.1 x.2.1 x.2.2))) :
    ∃ t t', Host.Core.run Sys2Proof.core inputs.length s = .next t ∧
      Host.Core.run Sys2Proof.core inputs.length s' = .next t' ∧ EqualControllers k k' t t' := by
  induction inputs generalizing s s' with
  | nil => exact ⟨s, s', rfl, rfl, h⟩
  | cons x inputs ih =>
    obtain ⟨t, t', ht, ht', hinbox, hinbox', hequal⟩ := h.step hid hid' hs hs'
    rw [List.length_cons, core_run_succ _ ht, core_run_succ _ ht']
    exact ih hequal hinbox hinbox'

end EqualControllers

/-- Settles O45: by induction over the inputs; halted blocks answer HALTED, and one outcome moves equal controllers alike
on blocks that run. -/
theorem equalControllersAnswerEqually : Obligations.EqualControllersAnswerEqually := by
  intro inputs s s' id id' k k' hid hid' hpcf hpst hhalt hrsp hs hs'
  obtain ⟨t, t', ht, ht', h⟩ := (EqualControllers.mk hpcf hpst hhalt hrsp).run hid hid' inputs hs hs'
  exact ⟨t, t', ht, ht', h.pst, h.rsp, h.halt⟩

end Sys2Proof.Machine
end
section
/-! SUPPORT. The registry operations by their outcomes (42_registry.md R141 to R148): the answers of `RDT` and `RDC`, the
legality check of `WRK` in the terms of R147, the malformed words of `RDF`, and the fault that `RDF` reads after a `PID`
with a period of zero. -/

namespace Sys2Proof.F32

/-- The zeros are the two patterns without a magnitude. -/
theorem isZero_iff {x : Num32} : isZero x = true ↔ x = 0x00000000#32 ∨ x = 0x80000000#32 := by
  refine ⟨fun h => ?_, by rintro (rfl | rfl) <;> rfl⟩
  have hm : mag x = 0 := beq_iff_eq.mp h
  cases hs : sign x with
  | false => exact .inl (ext_sign_mag hs hm)
  | true => exact .inr (ext_sign_mag hs hm)

theorem isZero_eq_false_iff {x : Num32} : isZero x = false ↔ x ≠ 0x00000000#32 ∧ x ≠ 0x80000000#32 := by
  rw [← Bool.not_eq_true, isZero_iff, not_or]

/-- What is no NaN is finite just where it is no infinity. -/
theorem isFinite_iff_isInf {x : Num32} (h : isNaN x = false) : isFinite x = true ↔ isInf x = false :=
  ⟨not_inf_of_finite, finite_of_not_nan_not_inf h⟩

end Sys2Proof.F32

namespace Sys2Proof.Machine
open Sys2Proof.F32

variable {N : Nat}

/-- Fault entry writes FAULT and responds at the port of the operation, and does nothing else (60_exceptions.md R168). -/
theorem raiseFault_eq {s : State N} {q : Port} (hp : s.port = q) (c : Cause) :
    raiseFault c s =
      { s with fault := ⟨true, causeCode c, s.word, portCode q⟩, rsp := putResponse q .fault s.rsp } := by
  subst hp
  rfl

/-! ### `RDT` and `RDC` -/

/-- A meaning that answers from the slot of its `id` on port CTL changes the response alone. -/
theorem slotRead_answered {s : State N} {id : BitVec 8} {k : Fin N} (results : Fin N → Results)
    (hh : s.fault.halt = false) (hp : s.port = .ctl) (hid : id.toNat = k.val + 1) :
    (accept [.ctl] s <| withSlot id s fun j => answer (results j) s) =
      .next { s with rsp := putResponse .ctl (.ok (results k)) s.rsp } := by
  rw [accept_legal hh (by simp [hp]), withSlot_some (slotOf_eq_some.mpr hid), answer, respond_eq hp]

/-- Settles O48: `RDT` is the answer of one telemetry record. -/
theorem rdtReadsTheRecord : Obligations.RdtReadsTheRecord := fun s _ _ =>
  slotRead_answered fun j => .telemetry s.tel[j]

/-- Settles O51: `RDC` is the answer of one stored demand; the codec is not among its checks. -/
theorem rdcReadsTheCommand : Obligations.RdcReadsTheCommand := fun s _ _ =>
  slotRead_answered fun j => .demand s.cmd[j].demand

/-! ### `WRC` and `WRP` -/

/-- Settles O49: the demand stored is `clampDemand`, which is the statement's chain of comparisons. -/
theorem wrcStoresTheClampedDemand : Obligations.WrcStoresTheClampedDemand := fun s _ _ k hh hp hid hv hn =>
  (execWrc_written hh hp (slotOf_eq_some.mpr hid) hv hn).trans
    (congrArg Host.Outcome.next (respond_eq (s := writeCmd k _ s) hp _))

/-- Settles O52: the outcome is the write of the one record, its limits through `sat0`, and the answer. -/
theorem wrpReplacesTheParameters : Obligations.WrpReplacesTheParameters :=
  fun s _ sepEn dmeas _ _ _ _ _ _ k hh hp hid hn =>
    (execWrp_written sepEn dmeas hh hp (slotOf_eq_some.mpr hid) hn).trans
      (congrArg Host.Outcome.next (respond_eq (s := writePcf k _ s) hp _))

/-! ### `WRK` -/

/-- As many identifiers as groups are stored as given. -/
theorem frameIds_toList {G : Nat} (ids : Vector (BitVec 11) G) : frameIds ids.toList = ids := by
  ext i hi : 1
  rw [frameIds, Vector.getElem_ofFn, List.getD_eq_getElem _ _ (by simpa using hi), Vector.getElem_toList]

/-- The legality check of `WRK` on constants that are no NaN, in the terms of R147. -/
theorem configLegal_iff_of_not_nan {iFs angleNum angleDen : Num32} {rawFs : BitVec 15} (hi : isNaN iFs = false)
    (hn : isNaN angleNum = false) (hd : isNaN angleDen = false) :
    configLegal iFs rawFs angleNum angleDen = true ↔
      isInf iFs = false ∧ gt iFs 0#32 = true ∧ 1 ≤ rawFs.toNat ∧ isInf angleNum = false ∧ isInf angleDen = false ∧
        angleDen ≠ 0x00000000#32 ∧ angleDen ≠ 0x80000000#32 := by
  rw [configLegal_iff, isFinite_iff_isInf hi, isFinite_iff_isInf hn, isFinite_iff_isInf hd, isZero_eq_false_iff, zero]

/-- A `WRK` whose constants are no NaN and fail the legality check raises BAD_CONFIG (42_registry.md R147). -/
theorem execWrk_badConfig {s : State N} {rawFs : BitVec 15} (base : BitVec 11) (ids : List (BitVec 11))
    {iFs angleNum angleDen : Num32} (hh : s.fault.halt = false) (hp : s.port = .cfg)
    (hn : ∀ x ∈ [iFs, angleNum, angleDen], isNaN x = false) (hl : configLegal iFs rawFs angleNum angleDen = false) :
    execWrk rawFs base ids iFs angleNum angleDen s = .next (raiseFault .badConfig s) := by
  rw [execWrk, accept_legal hh (by simp [hp]), not_anyNaN_iff.mpr hn, require_true, hl, require_false]

/-- Settles O54: the statement's condition is the legality check, which decides between the write and BAD_CONFIG. -/
theorem wrkReplacesTheCodec : Obligations.WrkReplacesTheCodec := by
  intro s rawFs base ids iFs angleNum angleDen hh hp hi hn hd
  have hnan : ∀ x ∈ [iFs, angleNum, angleDen], isNaN x = false := by simp [hi, hn, hd]
  simp only [← configLegal_iff_of_not_nan hi hn hd]
  cases hl : configLegal iFs rawFs angleNum angleDen with
  | true =>
    have hwritten := execWrk_written base ids.toList hh hp hnan hl
    rw [frameIds_toList] at hwritten
    exact hwritten.trans (congrArg Host.Outcome.next
      (respond_eq (s := writeCodec ⟨true, base, ids, iFs, rawFs, angleNum, angleDen⟩ s) hp _))
  | false =>
    exact (execWrk_badConfig base ids.toList hh hp hnan hl).trans (congrArg Host.Outcome.next (raiseFault_eq hp _))

/-! ### `RDF` -/

/-- `RDF` answers in every state (42_registry.md R148). -/
theorem exec_rdf (s : State) : exec .rdf s =
    .next { s with rsp := putResponse s.port (.ok (.faultRecord s.fault)) s.rsp } := rfl

/-- The row of `RDF` fixes all 32 bits, so that its opcode with any other bit set names no row (42_registry.md R148). -/
theorem rowOf_malformed_rdf {w : Word} (hop : w.extractLsb' 24 8 = 0x50#8) (hw : w.extractLsb' 0 24 ≠ 0) :
    rowOf w = none := by
  rw [rowOf_eq_none_iff_illegalWord, illegalWord_iff_of_opcode (r := .rdf) hop]
  intro hrdf
  have hword : w &&& BitVec.allOnes 32 = 0x50000000#32 := beq_iff_eq.mp hrdf
  rw [BitVec.and_allOnes] at hword
  exact hw (hword ▸ rfl)

/-- A word of no row answers HALTED on a halted block (30_encoding.md R81 step 1). -/
theorem step_noRow_halted {s : State} {q : Port} {c : Command} {rest : List Event}
    (hs : s.inbox = .request q c :: rest) (hh : s.fault.halt = true) (hr : rowOf c.word = none) :
    step s = .next (respond .halted (latch q c { s with inbox := rest })) := by
  rw [step_request hs, decode_noRow hr]
  exact if_pos hh

theorem step_rdf {s : State} {q : Port} {rest : List Event} (hs : s.inbox = .request q (encode .rdf) :: rest) :
    step s = .next (respond (.ok (.faultRecord s.fault)) (latch q (encode .rdf) { s with inbox := rest })) := by
  rw [step_request hs, decode_encode rfl]
  exact exec_rdf _

/-- A `PID` with parameters and a period of zero raises DT_NONPOSITIVE, whatever its error (41_pid.md R122). -/
theorem pidOutcome_zero_period {c : Pcf} {p : Pst} {reference feedback : Num32} (hv : c.valid = true)
    (hr : isNaN reference = false) (hf : isNaN feedback = false) :
    pidOutcome c p reference feedback 0 = .error .dtNonpositive := by
  have hzero : isNaN 0#32 = false ∧ le 0#32 zero = true := ⟨rfl, rfl⟩
  simp [pidOutcome, anyNaN, hv, hr, hf, hzero]

/-- The rule's example: `PID` with a period of zero faults with cause 6, and the `RDF` after it answers that record. -/
theorem run_pid_rdf {s : State} (hh : s.fault.halt = false) (hv : s.pcf[(0 : Fin Config.N)].valid = true)
    (hs : s.inbox = [.request .ctl (encode (.pid 1 0x40A00000#32 0 0)), .request .ctl (encode .rdf)]) :
    ∃ t : State, Host.Core.run Sys2Proof.core 2 s = .next t ∧
      responseAt .ctl t.rsp = some (.ok (.faultRecord ⟨true, 6, 0x20010000#32, 1⟩)) := by
  have hpid := step_pid_running hs (k := 0) rfl hh
  rw [pidOutcome_zero_period hv rfl rfl] at hpid
  exact ⟨_, (core_run_succ 1 hpid).trans (core_run_succ 0 (step_rdf (q := .ctl) (rest := []) rfl)), rfl⟩

/-- Settles O55: `RDF` has no check to fail; a malformed word is one of no row; the examples are runs of the model. -/
theorem rdfReadsTheFaultRecord : Obligations.RdfReadsTheFaultRecord := by
  refine ⟨rfl, exec_rdf, fun s q c rest hs hop hw => ?_, fun q => exec_rdf _, fun s => run_pid_rdf⟩
  have hr := rowOf_malformed_rdf hop hw
  cases hh : s.fault.halt with
  | true =>
    exact (step_noRow_halted hs hh hr).trans (congrArg Host.Outcome.next (respond_eq rfl _))
  | false =>
    exact (step_noRow hs hh hr).trans (congrArg Host.Outcome.next (raiseFault_eq rfl _))

end Sys2Proof.Machine
end
section
/-! SUPPORT. Faults and the halt (60_exceptions.md R162 to R170): a request that is served, a word of no row included, does
what the cases of `Effect` say, so whether FAULT is entered and what a halted block keeps are read off those cases; and
the causes that each operation can raise, from the conditions of the causes. -/

namespace Sys2Proof.Machine

variable {N : Nat}

/-! ### The idle step and the ignored `RXF` -/

/-- Settles O8: by the law of serving an empty order. -/
theorem idleBlockWaits : Obligations.IdleBlockWaits := fun _ => step_idle

/-- Settles O23: an identifier outside the window maps to no slot. -/
theorem rxfIgnoresUnknownIdentifiers : Obligations.RxfIgnoresUnknownIdentifiers := by
  intro s fid p hh hp hout
  refine (execRxf_ignored p hh hp (hout.imp_right fun hwindow => ?_)).trans
    (congrArg Host.Outcome.next (respond_eq hp _))
  rw [rxSlotOf_eq_none]
  omega

/-! ### A served request does what an operation can do -/

/-- Turning a command away is the halted response or fault entry, the two things that every operation can do. -/
theorem rejected_effect {e : DecodeError} {s t : State N} (h : rejected e s = .next t) (i : Instr) : Effect s i t := by
  cases e with
  | noRow =>
    cases hh : s.fault.halt with
    | true =>
      rw [rejected, if_pos hh] at h
      exact Host.Outcome.next.inj h ▸ .halted hh
    | false =>
      rw [rejected, if_neg (by simp [hh])] at h
      exact Host.Outcome.next.inj h ▸ .raised hh .illegalOp
  | operandBlock => cases h

/-- An operation either enters a fault, on a running block, or keeps FAULT and answers something else. -/
theorem Effect.raised_or_kept {s t : State N} {i : Instr} (h : Effect s i t) :
    (s.fault.halt = false ∧ ∃ cause, t = raiseFault cause s) ∨
    (t.fault = s.fault ∧ responseAt s.port t.rsp ≠ some .fault) := by
  cases h with
  | raised hh cause => exact .inl ⟨hh, cause, rfl⟩
  | _ => exact .inr ⟨rfl, by simp⟩

section request
variable {s t : State} {q : Port} {c : Command} {rest : List Event}

/-- All that serving a request can do: what some operation can do, at the latched state. -/
theorem step_request_effect (hs : s.inbox = .request q c :: rest) (h : step s = .next t) :
    ∃ i, Effect (latch q c { s with inbox := rest }) i t := by
  rw [step_request hs] at h
  cases hd : decode Config.G c with
  | ok i =>
    rw [hd] at h
    exact ⟨i, exec_effect h⟩
  | error e =>
    rw [hd] at h
    exact ⟨.rdf, rejected_effect h .rdf⟩

/-- Every step takes the first event, where there is one. -/
theorem step_inbox (h : step s = .next t) : t.inbox = s.inbox.tail := by
  cases hs : s.inbox with
  | nil =>
    rw [step_idle hs] at h
    exact Host.Outcome.next.inj h ▸ hs
  | cons e rest =>
    cases e with
    | reset =>
      rw [step_reset hs] at h
      exact Host.Outcome.next.inj h ▸ rfl
    | request q c =>
      obtain ⟨i, hi⟩ := step_request_effect hs h
      exact hi.inbox_eq

/-- Serving a request either enters a fault at the latched state or keeps FAULT and answers something else. -/
theorem step_request_raised_or_kept (hs : s.inbox = .request q c :: rest) (h : step s = .next t) :
    (s.fault.halt = false ∧ ∃ cause, t = raiseFault cause (latch q c { s with inbox := rest })) ∨
    (t.fault = s.fault ∧ responseAt q t.rsp ≠ some .fault) :=
  have ⟨_, hi⟩ := step_request_effect hs h
  hi.raised_or_kept

end request

/-! ### Fault entry -/

/-- Settles O11: the two cases of a served request, read from the response, from FAULT and from the halt. -/
theorem faultEntryIsPrecise : Obligations.FaultEntryIsPrecise := by
  refine ⟨fun s t q c rest hs hst hfault => ?_, fun s t q c rest hs hst hne => ?_, fun s t q c rest hs hst hhalt => ?_⟩
  · rcases step_request_raised_or_kept hs hst with ⟨hh, cause, rfl⟩ | ⟨_, hother⟩
    · exact ⟨hh, cause, raiseFault_eq rfl cause⟩
    · exact absurd hfault hother
  · rcases step_request_raised_or_kept hs hst with ⟨_, cause, rfl⟩ | ⟨hkept, _⟩
    · exact responseAt_putResponse ..
    · exact absurd hkept hne
  · rcases step_request_raised_or_kept hs hst with ⟨hh, _⟩ | ⟨hkept, _⟩
    · exact absurd hhalt (by simp [hh])
    · exact hkept

/-! ### The halted block -/

theorem SameRecords.refl (s : State N) : SameRecords s s := ⟨rfl, rfl, rfl, rfl, rfl, rfl⟩

/-- On a halted block an operation can only answer. -/
theorem Effect.sameRecords_of_halted {s t : State N} {i : Instr} (h : Effect s i t) (hh : s.fault.halt = true) :
    SameRecords s t := by
  cases h with
  | halted | read => exact .refl s
  | raised hrun | ignored hrun | rxf hrun | wrc hrun | pid hrun | prst hrun | wrp hrun | wrk hrun =>
    exact absurd hh (by simp [hrun])

/-- What a word decodes to is an operation of the row it names. -/
theorem rowOf_of_decode {g : Nat} {c : Command} {i : Instr} (h : decode g c = .ok i) : rowOf c.word = some i.row := by
  obtain ⟨_, rfl⟩ := encodeOfDecode g c i h
  exact rowOf_eq_some_iff.mpr (rowNamed_encodeWord i)

section halted
variable {s t : State} (hh : s.fault.halt = true)
include hh

/-- A halted block answers HALTED to what can be presented and is no `RDF`, a word of no row included. -/
theorem step_halted {q : Port} {c : Command} {rest : List Event} (hs : s.inbox = .request q c :: rest)
    (hc : presentable Config.G c = true) (hr : rowOf c.word ≠ some .rdf) :
    step s = .next (respond .halted (latch q c { s with inbox := rest })) := by
  cases hd : decode Config.G c with
  | ok i =>
    have hi : i.row ≠ .rdf := fun hrdf => hr ((rowOf_of_decode hd).trans (congrArg some hrdf))
    rw [step_request hs, hd]
    exact (exec_eq_execOf i _).trans (execOf_halted hh hi)
  | error e =>
    cases e with
    | noRow =>
      rw [step_request hs, hd]
      exact if_pos hh
    | operandBlock => exact absurd hd (decode_ne_operandBlock hc)

/-- A step of a halted block that is no reset keeps every record. -/
theorem step_sameRecords_of_halted (hreset : ∀ rest, s.inbox ≠ .reset :: rest) (h : step s = .next t) :
    SameRecords s t := by
  cases hs : s.inbox with
  | nil =>
    rw [step_idle hs] at h
    exact Host.Outcome.next.inj h ▸ .refl s
  | cons e rest =>
    cases e with
    | reset => exact absurd hs (hreset rest)
    | request q c =>
      obtain ⟨i, hi⟩ := step_request_effect hs h
      exact hi.sameRecords_of_halted hh

end halted

/-- Settles O12: by the decoder's three outcomes, and by the effects that a halted block allows. -/
theorem haltedBlockAnswersHalted : Obligations.HaltedBlockAnswersHalted :=
  ⟨fun _ _ _ _ hs hh hc hr => (step_halted hh hs hc hr).trans (congrArg Host.Outcome.next (respond_eq rfl _)),
    fun _ _ hh => step_sameRecords_of_halted hh⟩

/-- A run of one more step that ends in a next state begins with one. -/
theorem core_run_succ_next {n : Nat} {s t : State} (h : Host.Core.run Sys2Proof.core (n + 1) s = .next t) :
    ∃ u, step s = .next u ∧ Host.Core.run Sys2Proof.core n u = .next t := by
  cases hstep : Sys2Proof.core.step s with
  | next u => exact ⟨u, hstep, core_run_succ n hstep ▸ h⟩
  | fault r => cases r
  | refused r => simp [Host.Core.run, hstep] at h

/-- Settles O13: each step keeps the halt with the other records and brings no reset into the order. -/
theorem haltedRunKeepsEveryRecord : Obligations.HaltedRunKeepsEveryRecord := by
  intro n
  induction n with
  | zero => exact fun s t _ _ h => Host.Outcome.next.inj h ▸ SameRecords.refl s
  | succ n ih =>
    intro s t hh hreset h
    obtain ⟨u, hsu, hut⟩ := core_run_succ_next h
    have hsame : SameRecords s u :=
      step_sameRecords_of_halted hh (fun rest hs => hreset (hs ▸ List.mem_cons_self)) hsu
    have ⟨_, _, _, _, _, hfault⟩ := hsame
    have hreset' : Event.reset ∉ u.inbox := fun hmem => hreset (List.mem_of_mem_tail (step_inbox hsu ▸ hmem))
    exact hsame.trans (ih u t (hfault ▸ hh) hreset' hut)

/-! ### The causes of each operation -/

theorem causeCode_injective : Function.Injective causeCode := by
  intro a b
  cases a <;> cases b <;> decide

theorem illegalOp_mem_causesOf (r : Row) : Cause.illegalOp ∈ causesOf r := by cases r <;> decide

theorem badConfig_mem_causesOf_iff {r : Row} : Cause.badConfig ∈ causesOf r ↔ r = .wrk := by cases r <;> decide

theorem nanResult_mem_causesOf_iff {r : Row} : Cause.nanResult ∈ causesOf r ↔ r = .pid := by cases r <;> decide

/-- A cause whose condition holds for an operation is in the operation's list: R165's conditions speak of just those
operations under which R166 lists the cause. -/
theorem mem_causesOf_of_violates {s : State N} {i : Instr} {c : Cause} (h : violates s i c = true) :
    c ∈ causesOf i.row := by
  cases c with
  | illegalOp => exact illegalOp_mem_causesOf _
  | badId =>
    cases i with
    | rxf | dec | pack | wrk | rdf => cases h
    | _ => simp [causesOf, Instr.row]
  | codecUninit =>
    cases i with
    | dec | enc | wrc => simp [causesOf, Instr.row]
    | _ => cases h
  | nanOperand =>
    cases i with
    | enc | pid | wrc | wrp | wrk => simp [causesOf, Instr.row]
    | _ => cases h
  | paramsUninit | dtNonpositive | nanResult =>
    cases i with
    | pid => simp [causesOf, Instr.row]
    | _ => cases h
  | badConfig =>
    cases i with
    | wrk => simp [causesOf, Instr.row]
    | _ => cases h

/-- An operation that halts a running block does it by fault entry, with a cause whose condition holds. -/
theorem exec_raised {s t : State} {i : Instr} (hh : s.fault.halt = false) (h : exec i s = .next t)
    (ht : t.fault.halt = true) : ∃ c, violates s i c = true ∧ t = raiseFault c s := by
  have hfirst := exec_raisesFirst hh i
  cases hc : causes.find? (violates s i) with
  | some c => exact ⟨c, List.find?_some hc, Host.Outcome.next.inj (h.symm.trans (hfirst.raised c hc))⟩
  | none =>
    obtain ⟨u, hu, hfault, _⟩ := hfirst.passed hc
    obtain rfl := Host.Outcome.next.inj (h.symm.trans hu)
    exact absurd ht (by simp [hfault, hh])

/-- Settles O15: the cause's condition holds, which puts it in the list; what the port and the conditions of causes 2 to 6
leave is BAD_CONFIG and NAN_RESULT, each in the list of one operation. -/
theorem causesEachOperationCanRaise : Obligations.CausesEachOperationCanRaise := by
  intro s t i hh hst ht
  obtain ⟨c, hc, rfl⟩ := exec_raised hh hst ht
  have hmem := mem_causesOf_of_violates hc
  refine ⟨⟨c, hmem, rfl⟩, fun hone => ?_, fun hport hnone => ?_⟩
  · obtain rfl : c = .illegalOp := causeCode_injective hone
    simpa [violates] using hc
  · cases c with
    | illegalOp => exact absurd hport (by simpa [violates] using hc)
    | badConfig => exact .inl ⟨badConfig_mem_causesOf_iff.mp hmem, rfl⟩
    | nanResult => exact .inr ⟨nanResult_mem_causesOf_iff.mp hmem, rfl⟩
    | _ => exact absurd hc (by simp [hnone])

end Sys2Proof.Machine
end
